-- ==== Sys2Proof/Word.lean ====
section
/-! DEFINITION. The word types of the block (R6, R20, R32, R50). -/

namespace Sys2Proof

/-- A 32-bit quantity: register, pc, ALU operand, memory word, immediate (R6). -/
abbrev Word := BitVec 32

/-- An 8-bit byte of the data space (R50). -/
abbrev Byte := BitVec 8

/-- A register number, the 5-bit field of R71. -/
abbrev Reg := BitVec 5

end Sys2Proof
end

