-- ==== Sys2Proof/Syntax.lean ====
section
/-! DEFINITION. The instructions (R74, R75), and the decoder's output, the descriptor (R32). -/

namespace Sys2Proof

/-- The 37 instructions of R75. Operands are the fields of the word: an immediate is its raw field,
extended to 32 bits where it is used (R73); a branch or jump offset is the whole byte offset,
including its bit 0, which is 0 in every encoding. -/
inductive Instr where
  /-- R143 -/
  | lui (rd : Reg) (imm20 : BitVec 20)
  /-- R144 -/
  | auipc (rd : Reg) (imm20 : BitVec 20)
  /-- R158 -/
  | jal (rd : Reg) (offset : BitVec 21)
  /-- R159 -/
  | jalr (rd rs1 : Reg) (imm : BitVec 12)
  /-- R152 -/
  | beq (rs1 rs2 : Reg) (offset : BitVec 13)
  /-- R153 -/
  | bne (rs1 rs2 : Reg) (offset : BitVec 13)
  /-- R154 -/
  | blt (rs1 rs2 : Reg) (offset : BitVec 13)
  /-- R155 -/
  | bge (rs1 rs2 : Reg) (offset : BitVec 13)
  /-- R156 -/
  | bltu (rs1 rs2 : Reg) (offset : BitVec 13)
  /-- R157 -/
  | bgeu (rs1 rs2 : Reg) (offset : BitVec 13)
  /-- R171 -/
  | lb (rd rs1 : Reg) (imm : BitVec 12)
  /-- R172 -/
  | lh (rd rs1 : Reg) (imm : BitVec 12)
  /-- R173 -/
  | lw (rd rs1 : Reg) (imm : BitVec 12)
  /-- R174 -/
  | lbu (rd rs1 : Reg) (imm : BitVec 12)
  /-- R175 -/
  | lhu (rd rs1 : Reg) (imm : BitVec 12)
  /-- R176 -/
  | sb (rs2 rs1 : Reg) (imm : BitVec 12)
  /-- R177 -/
  | sh (rs2 rs1 : Reg) (imm : BitVec 12)
  /-- R178 -/
  | sw (rs2 rs1 : Reg) (imm : BitVec 12)
  /-- R134 -/
  | addi (rd rs1 : Reg) (imm : BitVec 12)
  /-- R135 -/
  | slti (rd rs1 : Reg) (imm : BitVec 12)
  /-- R136 -/
  | sltiu (rd rs1 : Reg) (imm : BitVec 12)
  /-- R137 -/
  | xori (rd rs1 : Reg) (imm : BitVec 12)
  /-- R138 -/
  | ori (rd rs1 : Reg) (imm : BitVec 12)
  /-- R139 -/
  | andi (rd rs1 : Reg) (imm : BitVec 12)
  /-- R140 -/
  | slli (rd rs1 : Reg) (shamt : BitVec 5)
  /-- R141 -/
  | srli (rd rs1 : Reg) (shamt : BitVec 5)
  /-- R142 -/
  | srai (rd rs1 : Reg) (shamt : BitVec 5)
  /-- R124 -/
  | add (rd rs1 rs2 : Reg)
  /-- R125 -/
  | sub (rd rs1 rs2 : Reg)
  /-- R126 -/
  | sll (rd rs1 rs2 : Reg)
  /-- R127 -/
  | slt (rd rs1 rs2 : Reg)
  /-- R128 -/
  | sltu (rd rs1 rs2 : Reg)
  /-- R129 -/
  | xor (rd rs1 rs2 : Reg)
  /-- R130 -/
  | srl (rd rs1 rs2 : Reg)
  /-- R131 -/
  | sra (rd rs1 rs2 : Reg)
  /-- R132 -/
  | or (rd rs1 rs2 : Reg)
  /-- R133 -/
  | and (rd rs1 rs2 : Reg)
  deriving DecidableEq, Repr

/-- Opcode classes (R32, R101). -/
inductive OpClass where
  | op | opImm | load | store | branch | jal | jalr | lui | auipc
  deriving DecidableEq, Repr

/-- ALU operations (R32, R120). -/
inductive AluOp where
  | add | sub | and | or | xor | sll | srl | sra | slt | sltu
  deriving DecidableEq, Repr

/-- The widths of a data access (R53, R54). -/
inductive Size where
  | byte | half | word
  deriving DecidableEq, Repr

/-- `memWidth` in bytes: 1, 2 or 4 (R32). -/
def Size.bytes : Size → Nat
  | .byte => 1
  | .half => 2
  | .word => 4

/-- The InstructionDescriptor (R32). `memWidth = none` stands for the spec's 0. -/
structure Descriptor where
  cls : OpClass
  rd : Reg
  rs1 : Reg
  rs2 : Reg
  funct3 : BitVec 3
  funct7 : BitVec 7
  imm : Word
  regWrite : Bool
  memRead : Bool
  memWrite : Bool
  isBranch : Bool
  isJump : Bool
  aluOp : AluOp
  aluSrc : Bool
  memWidth : Option Size
  memSigned : Bool
  usesRs1 : Bool
  usesRs2 : Bool
  deriving DecidableEq, Repr

end Sys2Proof
end

