-- ==== Sys2Proof/Machine/Alu.lean ====
section
/-! DEFINITION. The ALU: a pure function of two 32-bit operands (R120, R121). -/

namespace Sys2Proof.Machine

/-- `sh = b[4:0]` (R120). -/
def shamtOf (b : Word) : Nat := (b.extractLsb' 0 5).toNat

/-- A truth value as the 32-bit value 1 or 0 (R120, rows SLT and SLTU). -/
def ofBool (c : Bool) : Word := if c then 1 else 0

/-- `alu(op, a, b)` (R120). -/
def alu (op : AluOp) (a b : Word) : Word :=
  match op with
  | .add => a + b
  | .sub => a - b
  | .and => a &&& b
  | .or => a ||| b
  | .xor => a ^^^ b
  | .sll => a <<< shamtOf b
  | .srl => a >>> shamtOf b
  | .sra => a.sshiftRight (shamtOf b)
  | .slt => ofBool (a.slt b)
  | .sltu => ofBool (a.ult b)

end Sys2Proof.Machine
end

