-- ==== Sys2Proof/Machine/Flags.lean ====
section
/-! DEFINITION. The block has no flags and no condition codes (R25): no instruction writes one. What
stands in their place is the branch comparator, a combinational unit that compares two operands and
keeps nothing (R151). -/

namespace Sys2Proof.Machine

def isEq (a b : Word) : Bool := a == b
def isNe (a b : Word) : Bool := a != b
/-- `s(a) < s(b)` -/
def isLt (a b : Word) : Bool := a.slt b
/-- `s(a) >= s(b)` -/
def isGe (a b : Word) : Bool := b.sle a
/-- `u(a) < u(b)` -/
def isLtu (a b : Word) : Bool := a.ult b
/-- `u(a) >= u(b)` -/
def isGeu (a b : Word) : Bool := b.ule a

/-- `taken(funct3, a, b)` (R151). A `funct3` of 010 or 011 never gets here: it is a DecodeFault. -/
def taken (funct3 : BitVec 3) (a b : Word) : Bool :=
  if funct3 = 0#3 then isEq a b
  else if funct3 = 1#3 then isNe a b
  else if funct3 = 4#3 then isLt a b
  else if funct3 = 5#3 then isGe a b
  else if funct3 = 6#3 then isLtu a b
  else if funct3 = 7#3 then isGeu a b
  else false

end Sys2Proof.Machine
end

