-- ==== Sys2Proof/Decode.lean ====
section
/-! DEFINITION. The decoder: from a 32-bit word to an instruction (R74, R75) and to its descriptor
(R100 to R106), and the encoder written from the same tables (R72). Total: a word that matches no row
is rejected by the name of the reason R76 gives for it. -/

namespace Sys2Proof

/-! ### Fields and immediates (R71, R73) -/

/-- `w[6:0]` -/
def opcodeOf (w : Word) : BitVec 7 := w.extractLsb' 0 7
/-- `w[11:7]` -/
def rdOf (w : Word) : Reg := w.extractLsb' 7 5
/-- `w[14:12]` -/
def funct3Of (w : Word) : BitVec 3 := w.extractLsb' 12 3
/-- `w[19:15]` -/
def rs1Of (w : Word) : Reg := w.extractLsb' 15 5
/-- `w[24:20]` -/
def rs2Of (w : Word) : Reg := w.extractLsb' 20 5
/-- `w[31:25]` -/
def funct7Of (w : Word) : BitVec 7 := w.extractLsb' 25 7

/-- The I field, `w[31:20]`. -/
def fieldI (w : Word) : BitVec 12 := w.extractLsb' 20 12
/-- The S field, `w[31:25]` then `w[11:7]`. -/
def fieldS (w : Word) : BitVec 12 := w.extractLsb' 25 7 ++ w.extractLsb' 7 5
/-- The B offset, `w[31]`, `w[7]`, `w[30:25]`, `w[11:8]`, 0. -/
def fieldB (w : Word) : BitVec 13 :=
  w.extractLsb' 31 1 ++ w.extractLsb' 7 1 ++ w.extractLsb' 25 6 ++ w.extractLsb' 8 4 ++ 0#1
/-- The U field, `w[31:12]`. -/
def fieldU (w : Word) : BitVec 20 := w.extractLsb' 12 20
/-- The J offset, `w[31]`, `w[19:12]`, `w[20]`, `w[30:21]`, 0. -/
def fieldJ (w : Word) : BitVec 21 :=
  w.extractLsb' 31 1 ++ w.extractLsb' 12 8 ++ w.extractLsb' 20 1 ++ w.extractLsb' 21 10 ++ 0#1

/-- `sext_N(v)` of R7 for a field of `N` bits. -/
def sext {n : Nat} (v : BitVec n) : Word := v.signExtend 32
/-- A 20-bit upper immediate over twelve zeros (R73). -/
def upper (v : BitVec 20) : Word := v ++ 0#12

def immI (w : Word) : Word := sext (fieldI w)
def immS (w : Word) : Word := sext (fieldS w)
def immB (w : Word) : Word := sext (fieldB w)
def immU (w : Word) : Word := upper (fieldU w)
def immJ (w : Word) : Word := sext (fieldJ w)

/-! ### The decoder (R74, R75, R76) -/

/-- Why a word is unrecognized: the rows of R76. All of them are the one diagnostic DecodeFault. -/
inductive DecodeReject where
  /-- `w[6:0]` is not in R74. -/
  | unknownOpcode
  /-- OP with a `funct7`, `funct3` pair of no row. -/
  | opFunct
  /-- OP-IMM shift with a reserved `w[31:25]`. -/
  | shiftFunct7
  /-- LOAD `funct3` 011, 110, 111. -/
  | loadFunct3
  /-- STORE `funct3` 011 and above. -/
  | storeFunct3
  /-- BRANCH `funct3` 010, 011. -/
  | branchFunct3
  /-- JALR `funct3` other than 000. -/
  | jalrFunct3
  deriving DecidableEq, Repr

/-- Opcode `0110011` (OP): `funct3` and `funct7` select the row. -/
def decodeOp (w : Word) : Except DecodeReject Instr :=
  if funct3Of w = 0#3 ∧ funct7Of w = 0x0#7 then .ok (.add (rdOf w) (rs1Of w) (rs2Of w))
  else if funct3Of w = 0#3 ∧ funct7Of w = 0x20#7 then .ok (.sub (rdOf w) (rs1Of w) (rs2Of w))
  else if funct3Of w = 1#3 ∧ funct7Of w = 0x0#7 then .ok (.sll (rdOf w) (rs1Of w) (rs2Of w))
  else if funct3Of w = 2#3 ∧ funct7Of w = 0x0#7 then .ok (.slt (rdOf w) (rs1Of w) (rs2Of w))
  else if funct3Of w = 3#3 ∧ funct7Of w = 0x0#7 then .ok (.sltu (rdOf w) (rs1Of w) (rs2Of w))
  else if funct3Of w = 4#3 ∧ funct7Of w = 0x0#7 then .ok (.xor (rdOf w) (rs1Of w) (rs2Of w))
  else if funct3Of w = 5#3 ∧ funct7Of w = 0x0#7 then .ok (.srl (rdOf w) (rs1Of w) (rs2Of w))
  else if funct3Of w = 5#3 ∧ funct7Of w = 0x20#7 then .ok (.sra (rdOf w) (rs1Of w) (rs2Of w))
  else if funct3Of w = 6#3 ∧ funct7Of w = 0x0#7 then .ok (.or (rdOf w) (rs1Of w) (rs2Of w))
  else if funct3Of w = 7#3 ∧ funct7Of w = 0x0#7 then .ok (.and (rdOf w) (rs1Of w) (rs2Of w))
  else .error .opFunct

/-- Opcode `0010011` (OP-IMM): the shifts also test `w[31:25]`. -/
def decodeOpImm (w : Word) : Except DecodeReject Instr :=
  if funct3Of w = 0#3 then .ok (.addi (rdOf w) (rs1Of w) (fieldI w))
  else if funct3Of w = 2#3 then .ok (.slti (rdOf w) (rs1Of w) (fieldI w))
  else if funct3Of w = 3#3 then .ok (.sltiu (rdOf w) (rs1Of w) (fieldI w))
  else if funct3Of w = 4#3 then .ok (.xori (rdOf w) (rs1Of w) (fieldI w))
  else if funct3Of w = 6#3 then .ok (.ori (rdOf w) (rs1Of w) (fieldI w))
  else if funct3Of w = 7#3 then .ok (.andi (rdOf w) (rs1Of w) (fieldI w))
  else if funct3Of w = 1#3 ∧ funct7Of w = 0x0#7 then .ok (.slli (rdOf w) (rs1Of w) (rs2Of w))
  else if funct3Of w = 5#3 ∧ funct7Of w = 0x0#7 then .ok (.srli (rdOf w) (rs1Of w) (rs2Of w))
  else if funct3Of w = 5#3 ∧ funct7Of w = 0x20#7 then .ok (.srai (rdOf w) (rs1Of w) (rs2Of w))
  else .error .shiftFunct7

/-- Opcode `0000011` (LOAD). -/
def decodeLoad (w : Word) : Except DecodeReject Instr :=
  if funct3Of w = 0#3 then .ok (.lb (rdOf w) (rs1Of w) (fieldI w))
  else if funct3Of w = 1#3 then .ok (.lh (rdOf w) (rs1Of w) (fieldI w))
  else if funct3Of w = 2#3 then .ok (.lw (rdOf w) (rs1Of w) (fieldI w))
  else if funct3Of w = 4#3 then .ok (.lbu (rdOf w) (rs1Of w) (fieldI w))
  else if funct3Of w = 5#3 then .ok (.lhu (rdOf w) (rs1Of w) (fieldI w))
  else .error .loadFunct3

/-- Opcode `0100011` (STORE). -/
def decodeStore (w : Word) : Except DecodeReject Instr :=
  if funct3Of w = 0#3 then .ok (.sb (rs2Of w) (rs1Of w) (fieldS w))
  else if funct3Of w = 1#3 then .ok (.sh (rs2Of w) (rs1Of w) (fieldS w))
  else if funct3Of w = 2#3 then .ok (.sw (rs2Of w) (rs1Of w) (fieldS w))
  else .error .storeFunct3

/-- Opcode `1100011` (BRANCH). -/
def decodeBranch (w : Word) : Except DecodeReject Instr :=
  if funct3Of w = 0#3 then .ok (.beq (rs1Of w) (rs2Of w) (fieldB w))
  else if funct3Of w = 1#3 then .ok (.bne (rs1Of w) (rs2Of w) (fieldB w))
  else if funct3Of w = 4#3 then .ok (.blt (rs1Of w) (rs2Of w) (fieldB w))
  else if funct3Of w = 5#3 then .ok (.bge (rs1Of w) (rs2Of w) (fieldB w))
  else if funct3Of w = 6#3 then .ok (.bltu (rs1Of w) (rs2Of w) (fieldB w))
  else if funct3Of w = 7#3 then .ok (.bgeu (rs1Of w) (rs2Of w) (fieldB w))
  else .error .branchFunct3

/-- The instruction of a word, or the reason there is none (R74, R75, R76). -/
def decode (w : Word) : Except DecodeReject Instr :=
  if opcodeOf w = 0x37#7 then .ok (.lui (rdOf w) (fieldU w))
  else if opcodeOf w = 0x17#7 then .ok (.auipc (rdOf w) (fieldU w))
  else if opcodeOf w = 0x6F#7 then .ok (.jal (rdOf w) (fieldJ w))
  else if opcodeOf w = 0x67#7 then
    if funct3Of w = 0#3 then .ok (.jalr (rdOf w) (rs1Of w) (fieldI w)) else .error .jalrFunct3
  else if opcodeOf w = 0x63#7 then decodeBranch w
  else if opcodeOf w = 0x03#7 then decodeLoad w
  else if opcodeOf w = 0x23#7 then decodeStore w
  else if opcodeOf w = 0x13#7 then decodeOpImm w
  else if opcodeOf w = 0x33#7 then decodeOp w
  else .error .unknownOpcode

/-! ### The opcode table (R75) -/

/-- A row of R75: a word `w` is the row's instruction when `w AND mask = match` (R74). -/
structure Row where
  mnemonic : String
  mask : Word
  bits : Word
  deriving DecidableEq, Repr

/-- The rows of LUI to BGEU. -/
def controlRows : List Row :=
  [⟨"LUI", 0x0000007F#32, 0x00000037#32⟩,
   ⟨"AUIPC", 0x0000007F#32, 0x00000017#32⟩,
   ⟨"JAL", 0x0000007F#32, 0x0000006F#32⟩,
   ⟨"JALR", 0x0000707F#32, 0x00000067#32⟩,
   ⟨"BEQ", 0x0000707F#32, 0x00000063#32⟩,
   ⟨"BNE", 0x0000707F#32, 0x00001063#32⟩,
   ⟨"BLT", 0x0000707F#32, 0x00004063#32⟩,
   ⟨"BGE", 0x0000707F#32, 0x00005063#32⟩,
   ⟨"BLTU", 0x0000707F#32, 0x00006063#32⟩,
   ⟨"BGEU", 0x0000707F#32, 0x00007063#32⟩]

/-- The rows of LB to SW. -/
def memoryRows : List Row :=
  [⟨"LB", 0x0000707F#32, 0x00000003#32⟩,
   ⟨"LH", 0x0000707F#32, 0x00001003#32⟩,
   ⟨"LW", 0x0000707F#32, 0x00002003#32⟩,
   ⟨"LBU", 0x0000707F#32, 0x00004003#32⟩,
   ⟨"LHU", 0x0000707F#32, 0x00005003#32⟩,
   ⟨"SB", 0x0000707F#32, 0x00000023#32⟩,
   ⟨"SH", 0x0000707F#32, 0x00001023#32⟩,
   ⟨"SW", 0x0000707F#32, 0x00002023#32⟩]

/-- The rows of ADDI to SRAI. -/
def immediateRows : List Row :=
  [⟨"ADDI", 0x0000707F#32, 0x00000013#32⟩,
   ⟨"SLTI", 0x0000707F#32, 0x00002013#32⟩,
   ⟨"SLTIU", 0x0000707F#32, 0x00003013#32⟩,
   ⟨"XORI", 0x0000707F#32, 0x00004013#32⟩,
   ⟨"ORI", 0x0000707F#32, 0x00006013#32⟩,
   ⟨"ANDI", 0x0000707F#32, 0x00007013#32⟩,
   ⟨"SLLI", 0xFE00707F#32, 0x00001013#32⟩,
   ⟨"SRLI", 0xFE00707F#32, 0x00005013#32⟩,
   ⟨"SRAI", 0xFE00707F#32, 0x40005013#32⟩]

/-- The rows of ADD to AND. -/
def registerRows : List Row :=
  [⟨"ADD", 0xFE00707F#32, 0x00000033#32⟩,
   ⟨"SUB", 0xFE00707F#32, 0x40000033#32⟩,
   ⟨"SLL", 0xFE00707F#32, 0x00001033#32⟩,
   ⟨"SLT", 0xFE00707F#32, 0x00002033#32⟩,
   ⟨"SLTU", 0xFE00707F#32, 0x00003033#32⟩,
   ⟨"XOR", 0xFE00707F#32, 0x00004033#32⟩,
   ⟨"SRL", 0xFE00707F#32, 0x00005033#32⟩,
   ⟨"SRA", 0xFE00707F#32, 0x40005033#32⟩,
   ⟨"OR", 0xFE00707F#32, 0x00006033#32⟩,
   ⟨"AND", 0xFE00707F#32, 0x00007033#32⟩]

/-- The 37 rows of R75. -/
def opcodeTable : List Row := controlRows ++ memoryRows ++ immediateRows ++ registerRows

/-- The row an instruction belongs to. -/
def Instr.row : Instr → Row
  | .lui _ _ => ⟨"LUI", 0x0000007F#32, 0x00000037#32⟩
  | .auipc _ _ => ⟨"AUIPC", 0x0000007F#32, 0x00000017#32⟩
  | .jal _ _ => ⟨"JAL", 0x0000007F#32, 0x0000006F#32⟩
  | .jalr _ _ _ => ⟨"JALR", 0x0000707F#32, 0x00000067#32⟩
  | .beq _ _ _ => ⟨"BEQ", 0x0000707F#32, 0x00000063#32⟩
  | .bne _ _ _ => ⟨"BNE", 0x0000707F#32, 0x00001063#32⟩
  | .blt _ _ _ => ⟨"BLT", 0x0000707F#32, 0x00004063#32⟩
  | .bge _ _ _ => ⟨"BGE", 0x0000707F#32, 0x00005063#32⟩
  | .bltu _ _ _ => ⟨"BLTU", 0x0000707F#32, 0x00006063#32⟩
  | .bgeu _ _ _ => ⟨"BGEU", 0x0000707F#32, 0x00007063#32⟩
  | .lb _ _ _ => ⟨"LB", 0x0000707F#32, 0x00000003#32⟩
  | .lh _ _ _ => ⟨"LH", 0x0000707F#32, 0x00001003#32⟩
  | .lw _ _ _ => ⟨"LW", 0x0000707F#32, 0x00002003#32⟩
  | .lbu _ _ _ => ⟨"LBU", 0x0000707F#32, 0x00004003#32⟩
  | .lhu _ _ _ => ⟨"LHU", 0x0000707F#32, 0x00005003#32⟩
  | .sb _ _ _ => ⟨"SB", 0x0000707F#32, 0x00000023#32⟩
  | .sh _ _ _ => ⟨"SH", 0x0000707F#32, 0x00001023#32⟩
  | .sw _ _ _ => ⟨"SW", 0x0000707F#32, 0x00002023#32⟩
  | .addi _ _ _ => ⟨"ADDI", 0x0000707F#32, 0x00000013#32⟩
  | .slti _ _ _ => ⟨"SLTI", 0x0000707F#32, 0x00002013#32⟩
  | .sltiu _ _ _ => ⟨"SLTIU", 0x0000707F#32, 0x00003013#32⟩
  | .xori _ _ _ => ⟨"XORI", 0x0000707F#32, 0x00004013#32⟩
  | .ori _ _ _ => ⟨"ORI", 0x0000707F#32, 0x00006013#32⟩
  | .andi _ _ _ => ⟨"ANDI", 0x0000707F#32, 0x00007013#32⟩
  | .slli _ _ _ => ⟨"SLLI", 0xFE00707F#32, 0x00001013#32⟩
  | .srli _ _ _ => ⟨"SRLI", 0xFE00707F#32, 0x00005013#32⟩
  | .srai _ _ _ => ⟨"SRAI", 0xFE00707F#32, 0x40005013#32⟩
  | .add _ _ _ => ⟨"ADD", 0xFE00707F#32, 0x00000033#32⟩
  | .sub _ _ _ => ⟨"SUB", 0xFE00707F#32, 0x40000033#32⟩
  | .sll _ _ _ => ⟨"SLL", 0xFE00707F#32, 0x00001033#32⟩
  | .slt _ _ _ => ⟨"SLT", 0xFE00707F#32, 0x00002033#32⟩
  | .sltu _ _ _ => ⟨"SLTU", 0xFE00707F#32, 0x00003033#32⟩
  | .xor _ _ _ => ⟨"XOR", 0xFE00707F#32, 0x00004033#32⟩
  | .srl _ _ _ => ⟨"SRL", 0xFE00707F#32, 0x00005033#32⟩
  | .sra _ _ _ => ⟨"SRA", 0xFE00707F#32, 0x40005033#32⟩
  | .or _ _ _ => ⟨"OR", 0xFE00707F#32, 0x00006033#32⟩
  | .and _ _ _ => ⟨"AND", 0xFE00707F#32, 0x00007033#32⟩

/-! ### Control signals (R101 to R105) -/

/-- The class of an instruction (R74, R101). -/
def Instr.cls : Instr → OpClass
  | .lui _ _ => .lui
  | .auipc _ _ => .auipc
  | .jal _ _ => .jal
  | .jalr _ _ _ => .jalr
  | .beq _ _ _ => .branch
  | .bne _ _ _ => .branch
  | .blt _ _ _ => .branch
  | .bge _ _ _ => .branch
  | .bltu _ _ _ => .branch
  | .bgeu _ _ _ => .branch
  | .lb _ _ _ => .load
  | .lh _ _ _ => .load
  | .lw _ _ _ => .load
  | .lbu _ _ _ => .load
  | .lhu _ _ _ => .load
  | .sb _ _ _ => .store
  | .sh _ _ _ => .store
  | .sw _ _ _ => .store
  | .addi _ _ _ => .opImm
  | .slti _ _ _ => .opImm
  | .sltiu _ _ _ => .opImm
  | .xori _ _ _ => .opImm
  | .ori _ _ _ => .opImm
  | .andi _ _ _ => .opImm
  | .slli _ _ _ => .opImm
  | .srli _ _ _ => .opImm
  | .srai _ _ _ => .opImm
  | .add _ _ _ => .op
  | .sub _ _ _ => .op
  | .sll _ _ _ => .op
  | .slt _ _ _ => .op
  | .sltu _ _ _ => .op
  | .xor _ _ _ => .op
  | .srl _ _ _ => .op
  | .sra _ _ _ => .op
  | .or _ _ _ => .op
  | .and _ _ _ => .op

/-- `aluOp` (R102, R103): `ADD` where R102 says "unused". -/
def Instr.aluOp : Instr → AluOp
  | .lui _ _ => .add
  | .auipc _ _ => .add
  | .jal _ _ => .add
  | .jalr _ _ _ => .add
  | .beq _ _ _ => .add
  | .bne _ _ _ => .add
  | .blt _ _ _ => .add
  | .bge _ _ _ => .add
  | .bltu _ _ _ => .add
  | .bgeu _ _ _ => .add
  | .lb _ _ _ => .add
  | .lh _ _ _ => .add
  | .lw _ _ _ => .add
  | .lbu _ _ _ => .add
  | .lhu _ _ _ => .add
  | .sb _ _ _ => .add
  | .sh _ _ _ => .add
  | .sw _ _ _ => .add
  | .addi _ _ _ => .add
  | .slti _ _ _ => .slt
  | .sltiu _ _ _ => .sltu
  | .xori _ _ _ => .xor
  | .ori _ _ _ => .or
  | .andi _ _ _ => .and
  | .slli _ _ _ => .sll
  | .srli _ _ _ => .srl
  | .srai _ _ _ => .sra
  | .add _ _ _ => .add
  | .sub _ _ _ => .sub
  | .sll _ _ _ => .sll
  | .slt _ _ _ => .slt
  | .sltu _ _ _ => .sltu
  | .xor _ _ _ => .xor
  | .srl _ _ _ => .srl
  | .sra _ _ _ => .sra
  | .or _ _ _ => .or
  | .and _ _ _ => .and

/-- `memWidth` (R102, R104). -/
def Instr.memWidth : Instr → Option Size
  | .lui _ _ => none
  | .auipc _ _ => none
  | .jal _ _ => none
  | .jalr _ _ _ => none
  | .beq _ _ _ => none
  | .bne _ _ _ => none
  | .blt _ _ _ => none
  | .bge _ _ _ => none
  | .bltu _ _ _ => none
  | .bgeu _ _ _ => none
  | .lb _ _ _ => some .byte
  | .lh _ _ _ => some .half
  | .lw _ _ _ => some .word
  | .lbu _ _ _ => some .byte
  | .lhu _ _ _ => some .half
  | .sb _ _ _ => some .byte
  | .sh _ _ _ => some .half
  | .sw _ _ _ => some .word
  | .addi _ _ _ => none
  | .slti _ _ _ => none
  | .sltiu _ _ _ => none
  | .xori _ _ _ => none
  | .ori _ _ _ => none
  | .andi _ _ _ => none
  | .slli _ _ _ => none
  | .srli _ _ _ => none
  | .srai _ _ _ => none
  | .add _ _ _ => none
  | .sub _ _ _ => none
  | .sll _ _ _ => none
  | .slt _ _ _ => none
  | .sltu _ _ _ => none
  | .xor _ _ _ => none
  | .srl _ _ _ => none
  | .sra _ _ _ => none
  | .or _ _ _ => none
  | .and _ _ _ => none

/-- `memSigned` (R102, R104). -/
def Instr.memSigned : Instr → Bool
  | .lui _ _ => false
  | .auipc _ _ => false
  | .jal _ _ => false
  | .jalr _ _ _ => false
  | .beq _ _ _ => false
  | .bne _ _ _ => false
  | .blt _ _ _ => false
  | .bge _ _ _ => false
  | .bltu _ _ _ => false
  | .bgeu _ _ _ => false
  | .lb _ _ _ => true
  | .lh _ _ _ => true
  | .lw _ _ _ => true
  | .lbu _ _ _ => false
  | .lhu _ _ _ => false
  | .sb _ _ _ => false
  | .sh _ _ _ => false
  | .sw _ _ _ => false
  | .addi _ _ _ => false
  | .slti _ _ _ => false
  | .sltiu _ _ _ => false
  | .xori _ _ _ => false
  | .ori _ _ _ => false
  | .andi _ _ _ => false
  | .slli _ _ _ => false
  | .srli _ _ _ => false
  | .srai _ _ _ => false
  | .add _ _ _ => false
  | .sub _ _ _ => false
  | .sll _ _ _ => false
  | .slt _ _ _ => false
  | .sltu _ _ _ => false
  | .xor _ _ _ => false
  | .srl _ _ _ => false
  | .sra _ _ _ => false
  | .or _ _ _ => false
  | .and _ _ _ => false

/-- `regWrite` (R102): the class writes `rd`; the value of `rd` is not looked at (R106). -/
def OpClass.regWrite : OpClass → Bool
  | .store => false
  | .branch => false
  | .op => true
  | .opImm => true
  | .load => true
  | .jal => true
  | .jalr => true
  | .lui => true
  | .auipc => true

/-- `aluSrc` (R102): the second ALU operand is the immediate. -/
def OpClass.aluSrc : OpClass → Bool
  | .opImm => true
  | .load => true
  | .store => true
  | .lui => true
  | .auipc => true
  | .op => false
  | .branch => false
  | .jal => false
  | .jalr => false

/-- `usesRs1` (R105). -/
def OpClass.usesRs1 : OpClass → Bool
  | .op => true
  | .opImm => true
  | .load => true
  | .store => true
  | .branch => true
  | .jalr => true
  | .lui => false
  | .auipc => false
  | .jal => false

/-- `usesRs2` (R105). -/
def OpClass.usesRs2 : OpClass → Bool
  | .op => true
  | .store => true
  | .branch => true
  | .opImm => false
  | .load => false
  | .jalr => false
  | .lui => false
  | .auipc => false
  | .jal => false

/-- The immediate of the class's format (R73, R102); 0 for OP. -/
def OpClass.immOf (c : OpClass) (w : Word) : Word :=
  match c with
  | .op => 0
  | .opImm => immI w
  | .load => immI w
  | .jalr => immI w
  | .store => immS w
  | .branch => immB w
  | .lui => immU w
  | .auipc => immU w
  | .jal => immJ w

/-- The descriptor of a recognized word: the class's flags (R102), the raw fields for every class
(R101), the source uses (R105). -/
def describe (i : Instr) (w : Word) : Descriptor where
  cls := i.cls
  rd := rdOf w
  rs1 := rs1Of w
  rs2 := rs2Of w
  funct3 := funct3Of w
  funct7 := funct7Of w
  imm := i.cls.immOf w
  regWrite := i.cls.regWrite
  memRead := i.cls == .load
  memWrite := i.cls == .store
  isBranch := i.cls == .branch
  isJump := i.cls == .jal || i.cls == .jalr
  aluOp := i.aluOp
  aluSrc := i.cls.aluSrc
  memWidth := i.memWidth
  memSigned := i.memSigned
  usesRs1 := i.cls.usesRs1
  usesRs2 := i.cls.usesRs2

/-- `decode(w)` of R100: the descriptor, or the reason for a DecodeFault. -/
def decodeDescriptor (w : Word) : Except DecodeReject Descriptor :=
  match decode w with
  | .ok i => .ok (describe i w)
  | .error e => .error e

/-! ### The encoder (R72, R75) -/

def encR (f7 : BitVec 7) (f3 : BitVec 3) (rd rs1 rs2 : Reg) : Word :=
  f7 ++ rs2 ++ rs1 ++ f3 ++ rd ++ 0x33#7
def encI (op : BitVec 7) (f3 : BitVec 3) (rd rs1 : Reg) (imm : BitVec 12) : Word :=
  imm ++ rs1 ++ f3 ++ rd ++ op
def encShift (f7 : BitVec 7) (f3 : BitVec 3) (rd rs1 : Reg) (shamt : BitVec 5) : Word :=
  f7 ++ shamt ++ rs1 ++ f3 ++ rd ++ 0x13#7
def encS (f3 : BitVec 3) (rs1 rs2 : Reg) (imm : BitVec 12) : Word :=
  imm.extractLsb' 5 7 ++ rs2 ++ rs1 ++ f3 ++ imm.extractLsb' 0 5 ++ 0x23#7
def encB (f3 : BitVec 3) (rs1 rs2 : Reg) (o : BitVec 13) : Word :=
  o.extractLsb' 12 1 ++ o.extractLsb' 5 6 ++ rs2 ++ rs1 ++ f3 ++ o.extractLsb' 1 4
    ++ o.extractLsb' 11 1 ++ 0x63#7
def encU (op : BitVec 7) (rd : Reg) (imm20 : BitVec 20) : Word := imm20 ++ rd ++ op
def encJ (rd : Reg) (o : BitVec 21) : Word :=
  o.extractLsb' 20 1 ++ o.extractLsb' 1 10 ++ o.extractLsb' 11 1 ++ o.extractLsb' 12 8
    ++ rd ++ 0x6F#7

/-- The word of an instruction; it is the instruction's encoding when `Instr.wellFormed` holds. -/
def encode : Instr → Word
  | .lui rd imm20 => encU 0x37#7 rd imm20
  | .auipc rd imm20 => encU 0x17#7 rd imm20
  | .jal rd o => encJ rd o
  | .jalr rd rs1 imm => encI 0x67#7 0#3 rd rs1 imm
  | .beq rs1 rs2 o => encB 0#3 rs1 rs2 o
  | .bne rs1 rs2 o => encB 1#3 rs1 rs2 o
  | .blt rs1 rs2 o => encB 4#3 rs1 rs2 o
  | .bge rs1 rs2 o => encB 5#3 rs1 rs2 o
  | .bltu rs1 rs2 o => encB 6#3 rs1 rs2 o
  | .bgeu rs1 rs2 o => encB 7#3 rs1 rs2 o
  | .lb rd rs1 imm => encI 0x03#7 0#3 rd rs1 imm
  | .lh rd rs1 imm => encI 0x03#7 1#3 rd rs1 imm
  | .lw rd rs1 imm => encI 0x03#7 2#3 rd rs1 imm
  | .lbu rd rs1 imm => encI 0x03#7 4#3 rd rs1 imm
  | .lhu rd rs1 imm => encI 0x03#7 5#3 rd rs1 imm
  | .sb rs2 rs1 imm => encS 0#3 rs1 rs2 imm
  | .sh rs2 rs1 imm => encS 1#3 rs1 rs2 imm
  | .sw rs2 rs1 imm => encS 2#3 rs1 rs2 imm
  | .addi rd rs1 imm => encI 0x13#7 0#3 rd rs1 imm
  | .slti rd rs1 imm => encI 0x13#7 2#3 rd rs1 imm
  | .sltiu rd rs1 imm => encI 0x13#7 3#3 rd rs1 imm
  | .xori rd rs1 imm => encI 0x13#7 4#3 rd rs1 imm
  | .ori rd rs1 imm => encI 0x13#7 6#3 rd rs1 imm
  | .andi rd rs1 imm => encI 0x13#7 7#3 rd rs1 imm
  | .slli rd rs1 shamt => encShift 0x0#7 1#3 rd rs1 shamt
  | .srli rd rs1 shamt => encShift 0x0#7 5#3 rd rs1 shamt
  | .srai rd rs1 shamt => encShift 0x20#7 5#3 rd rs1 shamt
  | .add rd rs1 rs2 => encR 0x0#7 0#3 rd rs1 rs2
  | .sub rd rs1 rs2 => encR 0x20#7 0#3 rd rs1 rs2
  | .sll rd rs1 rs2 => encR 0x0#7 1#3 rd rs1 rs2
  | .slt rd rs1 rs2 => encR 0x0#7 2#3 rd rs1 rs2
  | .sltu rd rs1 rs2 => encR 0x0#7 3#3 rd rs1 rs2
  | .xor rd rs1 rs2 => encR 0x0#7 4#3 rd rs1 rs2
  | .srl rd rs1 rs2 => encR 0x0#7 5#3 rd rs1 rs2
  | .sra rd rs1 rs2 => encR 0x20#7 5#3 rd rs1 rs2
  | .or rd rs1 rs2 => encR 0x0#7 6#3 rd rs1 rs2
  | .and rd rs1 rs2 => encR 0x0#7 7#3 rd rs1 rs2

/-- The instruction the decoder reads from a table word of `nbits` bits. An instruction is one 32-bit
word and the image holds whole words (R63, R70), so there is no byte order to lay out. -/
def decodeTableWord (nbits w : Nat) : Option Instr :=
  match decode (BitVec.ofNat 32 (w % 2 ^ nbits)) with
  | .ok i => some i
  | .error _ => none

end Sys2Proof
end

