-- ==== Sys2Proof/Config.lean ====
section
/-! DEFINITION. The parameters of the block (R5): fixed before the first tick, never written by it.
They are plain data held in `State.cfg`, so a statement about every state is a statement about every
choice of them. The spec leaves no value free, so there is no opaque constant here. -/

namespace Sys2Proof

/-- The OPEN parameters of R5. -/
structure Params where
  /-- `IMEM`: word `i` is the instruction at byte address `4*i` (R30). -/
  imem : List Word
  /-- `DMEM_BYTES`: data byte addresses below it are in range (R56). -/
  dmemBytes : Nat
  /-- `DMEM_INIT` as byte cells in the canonical form of the data memory (R5, R51; log entry 4). -/
  dmemInit : List Host.Cell
  /-- `REG_INIT` (R5, R41). -/
  regInit : Vector Word 32
  /-- `PERMISSIVE`: the policy for memory faults (R282). -/
  permissive : Bool
  /-- `HALT_TARGET`: absent or a 32-bit address (R256). -/
  haltTarget : Option Word
  deriving DecidableEq, Repr

/-- The defaults of R5. `IMEM` has none: the empty image stands here (DESIGN CHOICE, log entry 2). -/
def Params.default : Params where
  imem := []
  dmemBytes := 2 ^ 32
  dmemInit := []
  regInit := Vector.replicate 32 0
  permissive := false
  haltTarget := none

end Sys2Proof
end

