-- ==== Sys2Proof/Machine/State.lean ====
section
/-! DEFINITION. The state of the block (`10_state.md`): architectural, pipeline and sequencer state, the
accumulated outputs, and the parameters fixed for the run. Plain data. -/

namespace Sys2Proof.Machine

/-- Driver states (R27, R251). -/
inductive Drv where
  | running | draining | halted
  deriving DecidableEq, Repr

/-- Stage labels (R201). -/
inductive Label where
  | IF | ID | EX | MEM | WB | STALL | SQUASH
  deriving DecidableEq, Repr

/-- Kinds of diagnostic that a tick can raise (R286). -/
inductive DiagKind where
  | decodeFault | memoryOutOfRange | memoryMisaligned | fetchMisaligned
  deriving DecidableEq, Repr

/-- A diagnostic record (R286): `info` is the word, the effective address or the redirect target. -/
structure Diagnostic where
  kind : DiagKind
  tick : Nat
  pc : Word
  info : Word
  deriving DecidableEq, Repr

/-- One pair of the event set of a tick (R201): instruction identity (fetch-time pc) and label. -/
abbrev Event := Word × Label

/-- One entry of the accumulated trace (R261). -/
structure TraceEntry where
  tick : Nat
  pc : Word
  label : Label
  deriving DecidableEq, Repr

/-- The IF/ID latch: exactly the three values R34 says occur. -/
inductive IfId where
  | bubble
  | squashed (pc : Word)
  | instr (pc : Word) (word : Word)
  deriving DecidableEq, Repr

/-- A valid ID/EX latch (R35); the bubble is `none` (R33). -/
structure IdEx where
  pc : Word
  d : Descriptor
  rs1val : Word
  rs2val : Word
  deriving DecidableEq, Repr

/-- A valid EX/MEM latch (R36). -/
structure ExMem where
  pc : Word
  d : Descriptor
  aluResult : Word
  storeData : Word
  deriving DecidableEq, Repr

/-- A valid MEM/WB latch (R37). -/
structure MemWb where
  pc : Word
  d : Descriptor
  aluResult : Word
  memData : Word
  deriving DecidableEq, Repr

/-- The register file (R20). -/
abbrev Regs := Vector Word 32

/-- The data memory as byte cells: addresses strictly rising, no cell holding the 0 that an unlisted
address reads as (R31, R51, R57; log entry 4). -/
abbrev Memory := List Host.Cell

/-- The state. `cfg` holds the parameters of R5 and is never written by a tick. -/
structure State where
  cfg : Params
  /-- `x[0] .. x[31]` (R20). -/
  regs : Regs
  /-- The address Fetch reads next (R23). -/
  pc : Word
  /-- R31 -/
  dmem : Memory
  ifid : IfId
  idex : Option IdEx
  exmem : Option ExMem
  memwb : Option MemWb
  /-- R27 -/
  drv : Drv
  /-- Ticks executed since reset (R28). -/
  cycle : Nat
  /-- A redirect to `HALT_TARGET` has happened (R29). -/
  haltFlag : Bool
  /-- A memory fault has happened with `PERMISSIVE = false` (R29). -/
  faultHalt : Bool
  /-- The events of all ticks, oldest first (R40, R261). -/
  trace : List TraceEntry
  /-- The diagnostics of all ticks, oldest first (R40, R260). -/
  diags : List Diagnostic
  deriving DecidableEq, Repr

/-- Reasons of ConfigurationError (R285). -/
inductive ConfigReason where
  | emptyImage | nonPositiveBudget
  deriving DecidableEq, Repr

/-- Why an operation of the host interface stops. No tick and no instruction ever ends in one of
these: the block has no trap and every error of a tick is a diagnostic in the next state (R280). -/
inductive Fault where
  /-- Raised by `run` only, before any tick, changing nothing (R255, R285). Safe: it is the spec's own
  answer. -/
  | configurationError (reason : ConfigReason)
  deriving DecidableEq, Repr

/-- Why the model gives no answer. -/
inductive Refusal where
  /-- An instruction without a meaning: no arm of `exec` uses it. Safe. -/
  | notModelled (mnemonic : String)
  /-- Raised by `construct` only: parameters outside the ranges of R5 (R285, U14). Safe. -/
  | parametersOutOfContract
  deriving DecidableEq, Repr

/-- The state after reset with the default parameters (R41, R300). The default image is empty
(log entry 2), so the state function of R252 gives HALTED (R253). -/
def State.reset : State where
  cfg := Params.default
  regs := Vector.replicate 32 0
  pc := 0
  dmem := []
  ifid := .bubble
  idex := none
  exmem := none
  memwb := none
  drv := .halted
  cycle := 0
  haltFlag := false
  faultHalt := false
  trace := []
  diags := []

end Sys2Proof.Machine
end

