-- ==== Sys2Proof/Machine/Ops.lean ====
section
/-! DEFINITION. The named operations over registers, the two memories, the diagnostics and the driver
state: everything an instruction's meaning or a pipeline stage does to the state goes through these. -/

namespace Sys2Proof.Machine

/-! ### Registers (R20 to R22) -/

/-- `x[r]`: the storage is read as it is. `x[0]` reads 0 because nothing ever writes it (R21). -/
def readReg (regs : Regs) (r : Reg) : Word := regs[r.toNat]'r.isLt

/-- `x[r] <- v`: the only write site; a write to register 0 is suppressed here (R21, R192). -/
def writeReg (regs : Regs) (r : Reg) (v : Word) : Regs :=
  if r = 0#5 then regs else regs.set r.toNat v r.isLt

/-! ### Bytes of data memory (R31, R51, R57) -/

/-- The byte at an address; an unlisted address reads 0 (R57). -/
def readByte : Memory → Nat → Byte
  | [], _ => 0#8
  | (k, b) :: rest, a => if k = a then b else readByte rest a

/-- Write one byte, keeping the canonical form: writing 0 removes the cell. -/
def writeByte : Memory → Nat → Byte → Memory
  | [], a, v => if v = 0#8 then [] else [(a, v)]
  | (k, b) :: rest, a, v =>
    if a < k then (if v = 0#8 then (k, b) :: rest else (a, v) :: (k, b) :: rest)
    else if a = k then (if v = 0#8 then rest else (a, v) :: rest)
    else (k, b) :: writeByte rest a v

/-- The canonical form: addresses strictly rising, no cell that reads as an unlisted address. -/
abbrev Memory.wf (m : Memory) : Prop :=
  m.Pairwise (fun c c' => c.1 < c'.1) ∧ ∀ c ∈ m, c.2 ≠ 0#8

/-! ### Words and accesses (R51 to R56) -/

/-- `W(A) = {A[31:2], 0b00}`: the address of the containing word (R52). -/
def containing (A : Word) : Word := A.extractLsb' 2 30 ++ 0#2

/-- `off(A) = A[1:0]` (R52). -/
def offset (A : Word) : Nat := (A.extractLsb' 0 2).toNat

/-- `DMEM[W]`, little-endian: byte `k` is bits `[8k+7:8k]` (R51). -/
def readWord (m : Memory) (W : Word) : Word :=
  readByte m (W.toNat + 3) ++ readByte m (W.toNat + 2) ++ readByte m (W.toNat + 1)
    ++ readByte m W.toNat

/-- `DMEM[W] <- v`, little-endian (R51). -/
def writeWord (m : Memory) (W v : Word) : Memory :=
  writeByte (writeByte (writeByte (writeByte m W.toNat (v.extractLsb' 0 8))
    (W.toNat + 1) (v.extractLsb' 8 8)) (W.toNat + 2) (v.extractLsb' 16 8))
    (W.toNat + 3) (v.extractLsb' 24 8)

/-- `DMEM_INIT` from the spec's form, word-aligned addresses and words (R5); a later pair wins and an
address stands for its containing word (log entry 13). -/
def Memory.ofWords (ws : List (Word × Word)) : Memory :=
  ws.foldl (fun m c => writeWord m (containing c.1) c.2) []

/-- Why a data access fails. -/
inductive AccessFault where
  | outOfRange | misaligned
  deriving DecidableEq, Repr

/-- The two tests the Memory stage makes before it touches memory, range first (R53 to R56, R193). -/
def accessFault (cfg : Params) (A : Word) (n : Size) : Option AccessFault :=
  if cfg.dmemBytes ≤ (containing A).toNat then some .outOfRange
  else if n = .half ∧ offset A = 3 then some .misaligned
  else none

/-- `MemRead(A, n)` past its tests (R53): `8n` bits of the containing word. -/
def memRead (m : Memory) (A : Word) : (n : Size) → BitVec (8 * n.bytes)
  | .word => readWord m (containing A)
  | .half => (readWord m (containing A) >>> (8 * offset A)).extractLsb' 0 16
  | .byte => (readWord m (containing A) >>> (8 * offset A)).extractLsb' 0 8

/-- `mask` of R54: the bit span of an access inside the containing word. -/
def spanMask (A : Word) (n : Size) : Word :=
  BitVec.ofNat 32 (2 ^ (8 * n.bytes) - 1) <<< (8 * offset A)

/-- `MemWrite(A, n, v)` past its tests (R54). -/
def memWrite (m : Memory) (A : Word) (n : Size) (v : Word) : Memory :=
  match n with
  | .word => writeWord m (containing A) v
  | n =>
    let mask := spanMask A n
    writeWord m (containing A)
      ((readWord m (containing A) &&& ~~~mask) ||| ((v <<< (8 * offset A)) &&& mask))

/-- Sign or zero extension of a loaded value to 32 bits (R193). -/
def extend {k : Nat} (signed : Bool) (v : BitVec k) : Word :=
  if signed then v.signExtend 32 else v.setWidth 32

/-- The value a load that does not fault brings to its register (R193). -/
def loadValue (m : Memory) (A : Word) (n : Size) (signed : Bool) : Word :=
  extend signed (memRead m A n)

/-! ### The instruction image (R30, R63) -/

/-- `Fetch(a)`: the word of the image at a fetchable address, `none` elsewhere (R63). -/
def fetch (cfg : Params) (a : Word) : Option Word :=
  if a.toNat % 4 = 0 then cfg.imem[a.toNat / 4]? else none

/-- `fetchable(a)` (R63). -/
def fetchable (cfg : Params) (a : Word) : Bool := (fetch cfg a).isSome

/-! ### Diagnostics (R286): the block's only answer to an error (R280) -/

/-- The kind of a memory fault (R193). -/
def AccessFault.kind : AccessFault → DiagKind
  | .outOfRange => .memoryOutOfRange
  | .misaligned => .memoryMisaligned

/-- `FetchMisaligned` for a redirect whose target is not a multiple of 4 (R160, R284). -/
def redirectDiags (tick : Nat) (p target : Word) : List Diagnostic :=
  if target.toNat % 4 ≠ 0 then [⟨.fetchMisaligned, tick, p, target⟩] else []

/-! ### The driver state (R252) -/

/-- IF/ID holds a fetched, not squashed instruction (R34). -/
def IfId.valid : IfId → Bool
  | .instr _ _ => true
  | .squashed _ => false
  | .bubble => false

/-- The state function of R252. -/
def drvState (s : State) : Drv :=
  if s.faultHalt then .halted
  else if !s.haltFlag && fetchable s.cfg s.pc then .running
  else if s.ifid.valid || s.idex.isSome || s.exmem.isSome || s.memwb.isSome then .draining
  else .halted

/-- Recompute `drv`, as is done at reset and at the end of every tick (R252). -/
def State.settle (s : State) : State := { s with drv := drvState s }

/-! ### The pieces of an architectural effect

`exec` applies an instruction's whole effect at once, at the instruction whose address is `s.pc`
(log entry 1). -/

/-- `x[r]` -/
def State.reg (s : State) (r : Reg) : Word := readReg s.regs r

/-- `x[r] <- v` -/
def State.setReg (s : State) (r : Reg) (v : Word) : State := { s with regs := writeReg s.regs r v }

/-- `raise` of R7 for the instruction at `s.pc`; the tick number is the next one (log entry 8). -/
def State.raise (s : State) (kind : DiagKind) (info : Word) : State :=
  { s with diags := s.diags ++ [⟨kind, s.cycle + 1, s.pc, info⟩] }

/-- Execution continues at `p + 4` (R24, modulo `2^32`). -/
def State.advance (s : State) : State := { s with pc := s.pc + 4 }.settle

/-- A computational instruction: its result to `rd`, then on to the next (R122). -/
def State.complete (s : State) (rd : Reg) (v : Word) : State := (s.setReg rd v).advance

/-- A redirect (R160, R161, R256): report a misaligned target, note the halt target, go there. -/
def State.redirect (s : State) (target : Word) : State :=
  { s with
    pc := target
    haltFlag := s.haltFlag || s.cfg.haltTarget == some target
    diags := s.diags ++ redirectDiags (s.cycle + 1) s.pc target }.settle

/-- A conditional branch (R152 to R157). -/
def State.branch (s : State) (taken : Bool) (off : Word) : State :=
  if taken then s.redirect (s.pc + off) else s.advance

/-- THE ONE OPERATION THAT TAKES A MEMORY FAULT (R282, R283): report it; strict mode then halts the
core with nothing written, permissive mode continues with `go`. -/
def State.takeFault (s : State) (f : AccessFault) (A : Word) (go : State → State) : State :=
  let s := s.raise f.kind A
  if s.cfg.permissive then go s else { s with faultHalt := true }.settle

/-- A load (R171 to R175, R180): the faulting load of permissive mode writes 0. -/
def State.load (s : State) (rd : Reg) (A : Word) (n : Size) (signed : Bool) : State :=
  match accessFault s.cfg A n with
  | none => s.complete rd (loadValue s.dmem A n signed)
  | some f => s.takeFault f A (fun s => s.complete rd 0)

/-- A store (R176 to R178, R180): the faulting store of permissive mode is dropped. -/
def State.store (s : State) (A : Word) (n : Size) (v : Word) : State :=
  match accessFault s.cfg A n with
  | none => { s with dmem := memWrite s.dmem A n v }.advance
  | some f => s.takeFault f A State.advance

/-- An unrecognized word: a diagnostic and no other effect (R281, R305). -/
def State.skip (s : State) (w : Word) : State := (s.raise .decodeFault w).advance

end Sys2Proof.Machine
end

