-- ==== Sys2Proof/Machine/Operands.lean ====
section
/-! DEFINITION. Operands. The immediates are `sext` and `upper` of Decode.lean (R73); here are the
source set of a descriptor (R105, R220), the forwarding multiplexer (R226) and the targets of control
transfers. -/

namespace Sys2Proof.Machine

/-- `r ∈ srcs(d)`: a register the instruction really reads, never register 0 (R105, R220). -/
def readsReg (d : Descriptor) (r : Reg) : Bool :=
  r != 0#5 && ((d.usesRs1 && d.rs1 == r) || (d.usesRs2 && d.rs2 == r))

/-- What the instruction in EX/MEM forwards for `r`, if anything: a load there has no data yet (R226,
R230). -/
def fwdExMem (exmem : Option ExMem) (r : Reg) : Option Word :=
  match exmem with
  | none => none
  | some e => if r ≠ 0#5 ∧ e.d.regWrite ∧ e.d.rd = r ∧ !e.d.memRead then some e.aluResult else none

/-- The value an instruction in MEM/WB commits: loaded data for a load, else the ALU result (R192). -/
def MemWb.result (m : MemWb) : Word := if m.d.memRead then m.memData else m.aluResult

/-- What the instruction in MEM/WB forwards for `r`, if anything (R226). -/
def fwdMemWb (memwb : Option MemWb) (r : Reg) : Option Word :=
  match memwb with
  | none => none
  | some m => if r ≠ 0#5 ∧ m.d.regWrite ∧ m.d.rd = r then some m.result else none

/-- The forwarding multiplexer `fwd(r, fallback)`, nearest producer first (R226, R229). -/
def fwd (exmem : Option ExMem) (memwb : Option MemWb) (r : Reg) (fallback : Word) : Word :=
  match fwdExMem exmem r with
  | some v => v
  | none => (fwdMemWb memwb r).getD fallback

/-- A JALR target: the sum with bit 0 cleared (R159). -/
def jalrTarget (base off : Word) : Word := (base + off) &&& 0xFFFFFFFE#32

end Sys2Proof.Machine
end

