-- ==== Sys2Proof/Machine/Hazard.lean ====
section
/-! DEFINITION. The hazard unit (R220 to R224): a combinational function of the descriptor in Decode and
of the start-of-tick ID/EX and EX/MEM latches. It has no state: there is no stall counter (R198). -/

namespace Sys2Proof.Machine

/-- `early(d)`: the instruction needs its operands in Decode (R220). -/
def early (d : Descriptor) : Bool := d.isBranch || d.cls == .jalr

/-- The load-use hazard (R221). -/
def loadUse (d : Descriptor) (idex : Option IdEx) : Bool :=
  match idex with
  | none => false
  | some x => x.d.memRead && readsReg d x.d.rd

/-- The early-operand hazard A: a producer in ID/EX (R222). -/
def hazA (d : Descriptor) (idex : Option IdEx) : Bool :=
  match idex with
  | none => false
  | some x => early d && x.d.regWrite && readsReg d x.d.rd

/-- The early-operand hazard B: a load in EX/MEM (R223). -/
def hazB (d : Descriptor) (exmem : Option ExMem) : Bool :=
  match exmem with
  | none => false
  | some e => early d && e.d.memRead && readsReg d e.d.rd

/-- The stall decision (R224). -/
def hazard (d : Descriptor) (idex : Option IdEx) (exmem : Option ExMem) : Bool :=
  loadUse d idex || hazA d idex || hazB d exmem

end Sys2Proof.Machine
end

