-- ==== Sys2Proof/Machine/Stages.lean ====
section
/-! DEFINITION. The five stage functions (R192 to R196). Each takes the start-of-tick values it reads and
answers the new value of what it owns, with the events and diagnostics it puts out (R201, R286). -/

namespace Sys2Proof.Machine

/-! ### Writeback (R192) -/

/-- The register file after Writeback: at most one write, suppressed for `rd = 0` by `writeReg`. -/
def writebackStage (memwb : Option MemWb) (regs : Regs) : Regs :=
  match memwb with
  | none => regs
  | some m => if m.d.regWrite then writeReg regs m.d.rd m.result else regs

/-! ### Memory (R193) -/

/-- What the Memory stage answers: the new MEM/WB, the data memory, whether `faultHalt` is set, and the
diagnostics. -/
structure MemOut where
  memwb : Option MemWb
  dmem : Memory
  fault : Bool
  diags : List Diagnostic

/-- The instruction passes on to MEM/WB. -/
def ExMem.pass (e : ExMem) (memData : Word) : MemWb := ⟨e.pc, e.d, e.aluResult, memData⟩

/-- A data access by the instruction in EX/MEM: the two tests, then the load or the store. -/
def memoryAccess (cfg : Params) (tick : Nat) (e : ExMem) (n : Size) (dmem : Memory) : MemOut :=
  match accessFault cfg e.aluResult n with
  | some f =>
    let report : List Diagnostic := [⟨f.kind, tick, e.pc, e.aluResult⟩]
    if cfg.permissive then ⟨some (e.pass 0), dmem, false, report⟩ else ⟨none, dmem, true, report⟩
  | none =>
    if e.d.memRead then ⟨some (e.pass (loadValue dmem e.aluResult n e.d.memSigned)), dmem, false, []⟩
    else ⟨some (e.pass 0), memWrite dmem e.aluResult n e.storeData, false, []⟩

/-- The Memory stage. An instruction with a `memWidth` is a load or a store (R102). -/
def memoryStage (cfg : Params) (tick : Nat) (exmem : Option ExMem) (dmem : Memory) : MemOut :=
  match exmem with
  | none => ⟨none, dmem, false, []⟩
  | some e =>
    match e.d.memWidth with
    | some n => memoryAccess cfg tick e n dmem
    | none => ⟨some (e.pass 0), dmem, false, []⟩

/-! ### Execute (R194) -/

/-- The result of an instruction at `p` with first operand `a` and forwarded second register `b`. -/
def executeResult (d : Descriptor) (p a b : Word) : Word :=
  match d.cls with
  | .op => alu d.aluOp a b
  | .opImm => alu d.aluOp a d.imm
  | .load => alu d.aluOp a d.imm
  | .store => alu d.aluOp a d.imm
  | .jal => p + 4
  | .jalr => p + 4
  | .lui => d.imm
  | .auipc => p + d.imm
  | .branch => 0

/-- The Execute stage: operands through the forwarding multiplexer when the class reads them. -/
def executeStage (idex : Option IdEx) (exmem : Option ExMem) (memwb : Option MemWb) :
    Option ExMem :=
  match idex with
  | none => none
  | some x =>
    let a := if x.d.usesRs1 then fwd exmem memwb x.d.rs1 x.rs1val else x.rs1val
    let b := if x.d.usesRs2 then fwd exmem memwb x.d.rs2 x.rs2val else x.rs2val
    some ⟨x.pc, x.d, executeResult x.d x.pc a b, if x.d.cls = .store then b else 0⟩

/-! ### Decode (R195) -/

/-- Where the instruction in Decode redirects Fetch, if it does: `a`, `b` are its forwarded operands. -/
def redirectOf (d : Descriptor) (p a b : Word) : Option Word :=
  if d.isBranch then (if taken d.funct3 a b then some (p + d.imm) else none)
  else if d.cls = .jal then some (p + d.imm)
  else if d.cls = .jalr then some (jalrTarget a d.imm)
  else none

/-- What Decode answers. -/
structure DecodeOut where
  idex : Option IdEx
  stall : Bool
  redirect : Option Word
  events : List Event
  diags : List Diagnostic

/-- The diagnostic of an instruction that leaves Decode: a misaligned redirect target (R160). -/
def issueDiags (tick : Nat) (p : Word) (redirect : Option Word) : List Diagnostic :=
  match redirect with
  | none => []
  | some target => redirectDiags tick p target

/-- A recognized instruction in Decode: it stalls, or it goes on and may redirect. -/
def issue (tick : Nat) (p : Word) (d : Descriptor) (idex : Option IdEx) (exmem : Option ExMem)
    (memwb : Option MemWb) (regs : Regs) : DecodeOut :=
  if hazard d idex exmem then ⟨none, true, none, [(p, .STALL)], []⟩
  else
    let v1 := readReg regs d.rs1
    let v2 := readReg regs d.rs2
    let redirect := redirectOf d p (fwd exmem memwb d.rs1 v1) (fwd exmem memwb d.rs2 v2)
    ⟨some ⟨p, d, v1, v2⟩, false, redirect, [(p, .ID)], issueDiags tick p redirect⟩

/-- The Decode stage; `regs` is the register file after this tick's Writeback (R202). -/
def decodeStage (tick : Nat) (ifid : IfId) (idex : Option IdEx) (exmem : Option ExMem)
    (memwb : Option MemWb) (regs : Regs) : DecodeOut :=
  match ifid with
  | .bubble => ⟨none, false, none, [], []⟩
  | .squashed p => ⟨none, false, none, [(p, .SQUASH)], []⟩
  | .instr p w =>
    match decodeDescriptor w with
    | .error _ => ⟨none, false, none, [(p, .ID)], [⟨.decodeFault, tick, p, w⟩]⟩
    | .ok d => issue tick p d idex exmem memwb regs

/-! ### Fetch (R196) -/

/-- What Fetch answers. -/
structure FetchOut where
  ifid : IfId
  pc : Word
  haltFlag : Bool
  events : List Event

/-- The word Fetch can read this tick: none when the halt flag is set or `pc` is not fetchable. -/
def canFetch (cfg : Params) (haltFlag : Bool) (pc : Word) : Option Word :=
  if haltFlag then none else fetch cfg pc

/-- The Fetch stage: stall, else redirect and squash, else fetch, else stay. -/
def fetchStage (cfg : Params) (haltFlag : Bool) (pc : Word) (ifid : IfId) (stall : Bool)
    (redirect : Option Word) : FetchOut :=
  if stall then ⟨ifid, pc, haltFlag, []⟩
  else
    match redirect, canFetch cfg haltFlag pc with
    | some target, some _ =>
      ⟨.squashed pc, target, haltFlag || cfg.haltTarget == some target, [(pc, .IF)]⟩
    | some target, none => ⟨.bubble, target, haltFlag || cfg.haltTarget == some target, []⟩
    | none, some w => ⟨.instr pc w, pc + 4, haltFlag, [(pc, .IF)]⟩
    | none, none => ⟨.bubble, pc, haltFlag, []⟩

/-! ### Labels of the three later stages (R201) -/

def writebackEvents (memwb : Option MemWb) : List Event :=
  match memwb with
  | none => []
  | some m => [(m.pc, .WB)]

def memoryEvents (exmem : Option ExMem) : List Event :=
  match exmem with
  | none => []
  | some e => [(e.pc, .MEM)]

def executeEvents (idex : Option IdEx) : List Event :=
  match idex with
  | none => []
  | some x => [(x.pc, .EX)]

end Sys2Proof.Machine
end

