-- ==== Sys2Proof/Machine/Driver.lean ====
section
/-! DEFINITION. The cycle driver and the host interface: one tick (R190), `step` (R253), `run` (R254), the
pure reads (R250, R261), construction (R300). -/

namespace Sys2Proof.Machine

/-! ### One tick (R190, R197) -/

/-- The result of one `step()`: the state after it, and the events and diagnostics of the tick (R260). -/
structure StepOut where
  next : State
  events : List Event
  diags : List Diagnostic

/-- The tick number the diagnostics of the next tick carry (R190). -/
def State.tickNo (s : State) : Nat := s.cycle + 1

/-- The register file after this tick's Writeback (R192, R202). -/
def State.regsAfterWriteback (s : State) : Regs := writebackStage s.memwb s.regs

/-- The Memory stage of this tick (R193). -/
def State.memOut (s : State) : MemOut := memoryStage s.cfg s.tickNo s.exmem s.dmem

/-- The Decode stage of this tick (R195). -/
def State.decodeOut (s : State) : DecodeOut :=
  decodeStage s.tickNo s.ifid s.idex s.exmem s.memwb s.regsAfterWriteback

/-- The Fetch stage of this tick (R196). -/
def State.fetchOut (s : State) : FetchOut :=
  fetchStage s.cfg s.haltFlag s.pc s.ifid s.decodeOut.stall s.decodeOut.redirect

/-- The event set of this tick, in evaluation order (R201). -/
def State.tickEvents (s : State) : List Event :=
  writebackEvents s.memwb ++ memoryEvents s.exmem ++ executeEvents s.idex ++ s.decodeOut.events
    ++ s.fetchOut.events

/-- The diagnostics of this tick, Memory's before Decode's (R286, R288). -/
def State.tickDiags (s : State) : List Diagnostic := s.memOut.diags ++ s.decodeOut.diags

/-- The state a tick commits: all four latches and `pc` at once, then `cycle`, then `drv` (R190). -/
def State.tickState (s : State) : State :=
  State.settle
    { cfg := s.cfg
      regs := s.regsAfterWriteback
      pc := s.fetchOut.pc
      dmem := s.memOut.dmem
      ifid := s.fetchOut.ifid
      idex := s.decodeOut.idex
      exmem := executeStage s.idex s.exmem s.memwb
      memwb := s.memOut.memwb
      drv := s.drv
      cycle := s.cycle + 1
      haltFlag := s.fetchOut.haltFlag
      faultHalt := s.faultHalt || s.memOut.fault
      trace := s.trace ++ s.tickEvents.map (fun e => ⟨s.tickNo, e.1, e.2⟩)
      diags := s.diags ++ s.tickDiags }

/-- One tick (R190). -/
def tick (s : State) : StepOut := ⟨s.tickState, s.tickEvents, s.tickDiags⟩

/-- `step()`: nothing in HALTED, else one tick (R253). -/
def driverStep (s : State) : StepOut := if s.drv = .halted then ⟨s, [], []⟩ else tick s

/-! ### Construction (R300, R285) -/

/-- The ranges of R5. An empty image is allowed: a core built with one is HALTED (R253, R255). -/
def Params.inContract (p : Params) : Bool :=
  p.imem.length ≤ 2 ^ 30 && p.dmemBytes % 4 == 0 && 4 ≤ p.dmemBytes && p.dmemBytes ≤ 2 ^ 32
    && p.regInit[0] == 0 && decide (Memory.wf p.dmemInit)
    && p.dmemInit.all (fun c => c.1 < p.dmemBytes)

/-- The reset state of a core with the given parameters (R41, R300). -/
def resetWith (p : Params) : State :=
  State.settle
    { State.reset with
      cfg := p
      regs := p.regInit.set 0 0
      dmem := p.dmemInit }

/-- Construction rejects parameters outside R5's ranges (R285). -/
def construct (p : Params) : Host.Outcome State Fault Refusal :=
  if Params.inContract p then .next (resetWith p) else .refused .parametersOutOfContract

/-! ### `run` (R254, R255) -/

/-- The result of a `run` that is not a ConfigurationError. -/
structure RunOut where
  ticks : Nat
  final : State
  diags : List Diagnostic

/-- At most `budget` steps, stopping in HALTED. -/
def runTicks : Nat → State → RunOut
  | 0, s => ⟨0, s, []⟩
  | budget + 1, s =>
    if s.drv = .halted then ⟨0, s, []⟩
    else
      let one := driverStep s
      let rest := runTicks budget one.next
      ⟨rest.ticks + 1, rest.final, one.diags ++ rest.diags⟩

/-- `run(budget)`: an empty image is reported before a non-positive budget (R285). -/
def run (budget : Int) (s : State) : Host.Outcome RunOut Fault Refusal :=
  if s.cfg.imem = [] then .fault (.configurationError .emptyImage)
  else if budget ≤ 0 then .fault (.configurationError .nonPositiveBudget)
  else .next (runTicks budget.toNat s)

/-! ### Pure reads (R250, R261) -/

/-- `register_snapshot()` -/
def registerSnapshot (s : State) : Regs := s.regs

/-- `memory_snapshot()`: the word of every word-aligned address (absent words read 0). -/
def memorySnapshot (s : State) (W : Word) : Word := readWord s.dmem (containing W)

/-- `state()` -/
def driverState (s : State) : Drv := s.drv

/-- `trace()` at one instruction identity: its (tick, label) pairs in tick order (R261). -/
def traceAt (s : State) (p : Word) : List (Nat × Label) :=
  (s.trace.filter (fun e => e.pc == p)).map (fun e => (e.tick, e.label))

/-- The identities that have appeared, in order of first appearance. -/
def traceIdentities (s : State) : List Word :=
  s.trace.foldl (fun ids e => if ids.contains e.pc then ids else ids ++ [e.pc]) []

/-- `trace()` -/
def traceSnapshot (s : State) : List (Word × List (Nat × Label)) :=
  (traceIdentities s).map (fun p => (p, traceAt s p))

/-! ### Placing one instruction (log entry 3) -/

/-- `image` with the word at index `i` replaced; words before it that the image lacks are 0. -/
def putWord : List Word → Nat → Word → List Word
  | [], 0, w => [w]
  | [], i + 1, w => 0 :: putWord [] i w
  | _ :: rest, 0, w => w :: rest
  | x :: rest, i + 1, w => x :: putWord rest i w

/-- The state in which the word at `s.pc` is `w` and has just been fetched: it stands in the image and
in IF/ID, and `pc` has moved on, so the next tick decodes and issues it. -/
def placeWord (s : State) (w : Word) : State :=
  State.settle
    { s with
      cfg := { s.cfg with imem := putWord s.cfg.imem (s.pc.toNat / 4) w }
      ifid := .instr s.pc w
      pc := s.pc + 4
      faultHalt := false }

end Sys2Proof.Machine
end

