-- ==== Sys2Proof/Machine/Control.lean ====
section
/-! DEFINITION. The architectural effects of the eight control transfers (R150 to R163). `s.pc` is the
instruction's own address `p`. A misaligned target is taken and reported (R160); a redirect to the halt
target sets `haltFlag` (R256). -/

namespace Sys2Proof.Machine

/-- R152: taken when `x[rs1] = x[rs2]`. -/
def execBeq (rs1 rs2 : Reg) (offset : BitVec 13) (s : State) : Host.Outcome State Fault Refusal :=
  .next (s.branch (isEq (s.reg rs1) (s.reg rs2)) (sext offset))

/-- R153: taken when `x[rs1] != x[rs2]`. -/
def execBne (rs1 rs2 : Reg) (offset : BitVec 13) (s : State) : Host.Outcome State Fault Refusal :=
  .next (s.branch (isNe (s.reg rs1) (s.reg rs2)) (sext offset))

/-- R154: taken when `s(x[rs1]) < s(x[rs2])`. -/
def execBlt (rs1 rs2 : Reg) (offset : BitVec 13) (s : State) : Host.Outcome State Fault Refusal :=
  .next (s.branch (isLt (s.reg rs1) (s.reg rs2)) (sext offset))

/-- R155: taken when `s(x[rs1]) >= s(x[rs2])`. -/
def execBge (rs1 rs2 : Reg) (offset : BitVec 13) (s : State) : Host.Outcome State Fault Refusal :=
  .next (s.branch (isGe (s.reg rs1) (s.reg rs2)) (sext offset))

/-- R156: taken when `u(x[rs1]) < u(x[rs2])`. -/
def execBltu (rs1 rs2 : Reg) (offset : BitVec 13) (s : State) : Host.Outcome State Fault Refusal :=
  .next (s.branch (isLtu (s.reg rs1) (s.reg rs2)) (sext offset))

/-- R157: taken when `u(x[rs1]) >= u(x[rs2])`. -/
def execBgeu (rs1 rs2 : Reg) (offset : BitVec 13) (s : State) : Host.Outcome State Fault Refusal :=
  .next (s.branch (isGeu (s.reg rs1) (s.reg rs2)) (sext offset))

/-- R158: `x[rd] <- p + 4`; `pc <- p + imm`. -/
def execJal (rd : Reg) (offset : BitVec 21) (s : State) : Host.Outcome State Fault Refusal :=
  .next ((s.setReg rd (s.pc + 4)).redirect (s.pc + sext offset))

/-- R159: the target uses the old `x[rs1]`; then `x[rd] <- p + 4`. -/
def execJalr (rd rs1 : Reg) (imm : BitVec 12) (s : State) : Host.Outcome State Fault Refusal :=
  .next ((s.setReg rd (s.pc + 4)).redirect (jalrTarget (s.reg rs1) (sext imm)))

end Sys2Proof.Machine
end

