-- ==== Sys2Proof/Machine/Integer.lean ====
section
/-! DEFINITION. The architectural effects of the 21 computational instructions (R124 to R144): what the
instruction at `s.pc` has done once it has retired. None raises a diagnostic or touches memory (R122). -/

namespace Sys2Proof.Machine

/-! ### Register-register, class OP -/

/-- R124: `x[rd] <- (A + B) mod 2^32`. -/
def execAdd (rd rs1 rs2 : Reg) (s : State) : Host.Outcome State Fault Refusal :=
  .next (s.complete rd (alu .add (s.reg rs1) (s.reg rs2)))

/-- R125: `x[rd] <- (A - B) mod 2^32`. -/
def execSub (rd rs1 rs2 : Reg) (s : State) : Host.Outcome State Fault Refusal :=
  .next (s.complete rd (alu .sub (s.reg rs1) (s.reg rs2)))

/-- R126: `x[rd] <- (A << B[4:0])[31:0]`. -/
def execSll (rd rs1 rs2 : Reg) (s : State) : Host.Outcome State Fault Refusal :=
  .next (s.complete rd (alu .sll (s.reg rs1) (s.reg rs2)))

/-- R127: `x[rd] <- (s(A) < s(B)) ? 1 : 0`. -/
def execSlt (rd rs1 rs2 : Reg) (s : State) : Host.Outcome State Fault Refusal :=
  .next (s.complete rd (alu .slt (s.reg rs1) (s.reg rs2)))

/-- R128: `x[rd] <- (u(A) < u(B)) ? 1 : 0`. -/
def execSltu (rd rs1 rs2 : Reg) (s : State) : Host.Outcome State Fault Refusal :=
  .next (s.complete rd (alu .sltu (s.reg rs1) (s.reg rs2)))

/-- R129: `x[rd] <- A XOR B`. -/
def execXor (rd rs1 rs2 : Reg) (s : State) : Host.Outcome State Fault Refusal :=
  .next (s.complete rd (alu .xor (s.reg rs1) (s.reg rs2)))

/-- R130: `x[rd] <- u(A) >> B[4:0]`. -/
def execSrl (rd rs1 rs2 : Reg) (s : State) : Host.Outcome State Fault Refusal :=
  .next (s.complete rd (alu .srl (s.reg rs1) (s.reg rs2)))

/-- R131: `x[rd] <- s(A) >> B[4:0]`. -/
def execSra (rd rs1 rs2 : Reg) (s : State) : Host.Outcome State Fault Refusal :=
  .next (s.complete rd (alu .sra (s.reg rs1) (s.reg rs2)))

/-- R132: `x[rd] <- A OR B`. -/
def execOr (rd rs1 rs2 : Reg) (s : State) : Host.Outcome State Fault Refusal :=
  .next (s.complete rd (alu .or (s.reg rs1) (s.reg rs2)))

/-- R133: `x[rd] <- A AND B`. -/
def execAnd (rd rs1 rs2 : Reg) (s : State) : Host.Outcome State Fault Refusal :=
  .next (s.complete rd (alu .and (s.reg rs1) (s.reg rs2)))

/-! ### Register-immediate, class OP-IMM -/

/-- R134: `x[rd] <- (A + imm) mod 2^32`, `imm` sign-extended. -/
def execAddi (rd rs1 : Reg) (imm : BitVec 12) (s : State) : Host.Outcome State Fault Refusal :=
  .next (s.complete rd (alu .add (s.reg rs1) (sext imm)))

/-- R135: `x[rd] <- (s(A) < s(imm)) ? 1 : 0`, `imm` sign-extended. -/
def execSlti (rd rs1 : Reg) (imm : BitVec 12) (s : State) : Host.Outcome State Fault Refusal :=
  .next (s.complete rd (alu .slt (s.reg rs1) (sext imm)))

/-- R136: `x[rd] <- (u(A) < u(imm)) ? 1 : 0`, `imm` sign-extended. -/
def execSltiu (rd rs1 : Reg) (imm : BitVec 12) (s : State) : Host.Outcome State Fault Refusal :=
  .next (s.complete rd (alu .sltu (s.reg rs1) (sext imm)))

/-- R137: `x[rd] <- A XOR imm`, `imm` sign-extended. -/
def execXori (rd rs1 : Reg) (imm : BitVec 12) (s : State) : Host.Outcome State Fault Refusal :=
  .next (s.complete rd (alu .xor (s.reg rs1) (sext imm)))

/-- R138: `x[rd] <- A OR imm`, `imm` sign-extended. -/
def execOri (rd rs1 : Reg) (imm : BitVec 12) (s : State) : Host.Outcome State Fault Refusal :=
  .next (s.complete rd (alu .or (s.reg rs1) (sext imm)))

/-- R139: `x[rd] <- A AND imm`, `imm` sign-extended. -/
def execAndi (rd rs1 : Reg) (imm : BitVec 12) (s : State) : Host.Outcome State Fault Refusal :=
  .next (s.complete rd (alu .and (s.reg rs1) (sext imm)))

/-- R140: `x[rd] <- (A << shamt)[31:0]`. -/
def execSlli (rd rs1 : Reg) (shamt : BitVec 5) (s : State) : Host.Outcome State Fault Refusal :=
  .next (s.complete rd (alu .sll (s.reg rs1) (shamt.setWidth 32)))

/-- R141: `x[rd] <- u(A) >> shamt`. -/
def execSrli (rd rs1 : Reg) (shamt : BitVec 5) (s : State) : Host.Outcome State Fault Refusal :=
  .next (s.complete rd (alu .srl (s.reg rs1) (shamt.setWidth 32)))

/-- R142: `x[rd] <- s(A) >> shamt`. -/
def execSrai (rd rs1 : Reg) (shamt : BitVec 5) (s : State) : Host.Outcome State Fault Refusal :=
  .next (s.complete rd (alu .sra (s.reg rs1) (shamt.setWidth 32)))

/-! ### Upper immediate -/

/-- R143: `x[rd] <- immU`. -/
def execLui (rd : Reg) (imm20 : BitVec 20) (s : State) : Host.Outcome State Fault Refusal :=
  .next (s.complete rd (upper imm20))

/-- R144: `x[rd] <- (p + immU) mod 2^32`, `p` the instruction's own address. -/
def execAuipc (rd : Reg) (imm20 : BitVec 20) (s : State) : Host.Outcome State Fault Refusal :=
  .next (s.complete rd (s.pc + upper imm20))

end Sys2Proof.Machine
end

