-- ==== Sys2Proof/Machine/LoadStore.lean ====
section
/-! DEFINITION. The architectural effects of the loads and stores (R170 to R180). The effective address is
`alu(ADD, x[rs1], imm)` (R170). A faulting access is `State.takeFault`. -/

namespace Sys2Proof.Machine

/-- The effective address (R170). -/
def effectiveAddress (s : State) (rs1 : Reg) (imm : BitVec 12) : Word :=
  alu .add (s.reg rs1) (sext imm)

/-- R171: `x[rd] <- sext_8(MemRead(A, 1))`. -/
def execLb (rd rs1 : Reg) (imm : BitVec 12) (s : State) : Host.Outcome State Fault Refusal :=
  .next (s.load rd (effectiveAddress s rs1 imm) .byte true)

/-- R172: `x[rd] <- sext_16(MemRead(A, 2))`. -/
def execLh (rd rs1 : Reg) (imm : BitVec 12) (s : State) : Host.Outcome State Fault Refusal :=
  .next (s.load rd (effectiveAddress s rs1 imm) .half true)

/-- R173: `x[rd] <- MemRead(A, 4)`. -/
def execLw (rd rs1 : Reg) (imm : BitVec 12) (s : State) : Host.Outcome State Fault Refusal :=
  .next (s.load rd (effectiveAddress s rs1 imm) .word true)

/-- R174: `x[rd] <- zext_8(MemRead(A, 1))`. -/
def execLbu (rd rs1 : Reg) (imm : BitVec 12) (s : State) : Host.Outcome State Fault Refusal :=
  .next (s.load rd (effectiveAddress s rs1 imm) .byte false)

/-- R175: `x[rd] <- zext_16(MemRead(A, 2))`. -/
def execLhu (rd rs1 : Reg) (imm : BitVec 12) (s : State) : Host.Outcome State Fault Refusal :=
  .next (s.load rd (effectiveAddress s rs1 imm) .half false)

/-- R176: `MemWrite(A, 1, x[rs2])`. -/
def execSb (rs2 rs1 : Reg) (imm : BitVec 12) (s : State) : Host.Outcome State Fault Refusal :=
  .next (s.store (effectiveAddress s rs1 imm) .byte (s.reg rs2))

/-- R177: `MemWrite(A, 2, x[rs2])`. -/
def execSh (rs2 rs1 : Reg) (imm : BitVec 12) (s : State) : Host.Outcome State Fault Refusal :=
  .next (s.store (effectiveAddress s rs1 imm) .half (s.reg rs2))

/-- R178: `MemWrite(A, 4, x[rs2])`. -/
def execSw (rs2 rs1 : Reg) (imm : BitVec 12) (s : State) : Host.Outcome State Fault Refusal :=
  .next (s.store (effectiveAddress s rs1 imm) .word (s.reg rs2))

end Sys2Proof.Machine
end

