-- ==== Sys2Proof/Machine/Sequential.lean ====
section
/-! DEFINITION. The sequential interpreter of R305: one instruction at a time from the image, each with
its architectural effect; an unrecognized word is a no-operation; it stops at a pc that is not
fetchable, after a redirect to the halt target, and after a strict-mode memory fault. -/

namespace Sys2Proof.Machine

/-- The interpreter has stopped (R305, R282). -/
def seqStopped (s : State) : Bool := s.faultHalt || s.haltFlag || !fetchable s.cfg s.pc

/-- The interpreter at a fetched word. -/
def seqExec (w : Word) (s : State) : Host.Outcome State Fault Refusal :=
  match decode w with
  | .ok i => exec i s
  | .error _ => .next (s.skip w)

/-- One instruction of the interpreter; nothing once it has stopped. -/
def seqStep (s : State) : Host.Outcome State Fault Refusal :=
  if s.faultHalt || s.haltFlag then .next s
  else
    match fetch s.cfg s.pc with
    | none => .next s
    | some w => seqExec w s

/-- `k` instructions of the interpreter. -/
def seqRun : Nat → State → Host.Outcome State Fault Refusal
  | 0, s => .next s
  | k + 1, s =>
    match seqStep s with
    | .next t => seqRun k t
    | .fault f => .fault f
    | .refused r => .refused r

end Sys2Proof.Machine
end

