-- ==== Sys2Proof/Machine/Step.lean ====
section
/-! DEFINITION. The step of the machine: one `step()` of the driver (R253). -/

namespace Sys2Proof.Machine

/-- One `step()`: one tick of the pipeline, or nothing in HALTED (R190, R253). It never faults and never
refuses: every error is a diagnostic in the next state (R280). -/
def step (s : State) : Host.Outcome State Fault Refusal := .next (driverStep s).next

/-- `s` with a table word placed so that the very next `step` decodes and issues it (log entry 3). -/
def State.withFetchWord (s : State) (nbits w : Nat) : State :=
  placeWord s (BitVec.ofNat 32 (w % 2 ^ nbits))

end Sys2Proof.Machine
end

