-- ==== Sys2Proof/Machine/Drain.lean ====
section
/-! DEFINITION. The architectural view of a pipeline state: what registers, memory and pc are once the
instructions in flight beyond Decode have completed, in program order, and nothing more is issued
(R233, R305). It is the model's own device for stating that a tick runs an instruction (log entry 16):
no stage reads it. -/

namespace Sys2Proof.Machine

/-- Memory and Writeback of one instruction at once; nothing after a strict-mode fault, since the
younger instructions "never execute further" (R258, R282). -/
def State.retire (s : State) (exmem : Option ExMem) : State :=
  if s.faultHalt then s
  else
    let m := memoryStage s.cfg s.tickNo exmem s.dmem
    { s with regs := writebackStage m.memwb s.regs, dmem := m.dmem, faultHalt := m.fault }

/-- The address of the next instruction to leave Decode: the one in IF/ID, else the next fetched. -/
def State.issuePc (s : State) : Word :=
  match s.ifid with
  | .instr p _ => p
  | .squashed _ => s.pc
  | .bubble => s.pc

/-- The state with MEM/WB, EX/MEM and ID/EX completed in this order and the latches empty. -/
def drain (s : State) : State :=
  let done := (State.retire { s with regs := s.regsAfterWriteback } s.exmem).retire
    (executeStage s.idex s.exmem s.memwb)
  State.settle
    { done with pc := s.issuePc, ifid := .bubble, idex := none, exmem := none, memwb := none }

end Sys2Proof.Machine
end

