-- ==== Sys2Proof/Safety.lean ====
section
/-! DEFINITION. The terms the statements use: what two states agree on, what an instruction leaves
unchanged, and the invariant that rules out the pipeline states no run reaches. -/

namespace Sys2Proof.Machine

/-! ### Frames of an instruction -/

/-- An instruction's effect touches no parameter, latch, cycle count or trace, and `drv` is again the
state function of the rest. -/
structure SamePipeline (s t : State) : Prop where
  cfg : t.cfg = s.cfg
  ifid : t.ifid = s.ifid
  idex : t.idex = s.idex
  exmem : t.exmem = s.exmem
  memwb : t.memwb = s.memwb
  cycle : t.cycle = s.cycle
  trace : t.trace = s.trace
  drv : t.drv = drvState t

/-- Every byte of data memory reads as before. -/
def SameMemory (s t : State) : Prop := ∀ a, readByte t.dmem a = readByte s.dmem a

/-- Register `rd` holds `v`, unless it is register 0; every other register is unchanged. -/
def WritesOnly (rd : Reg) (v : Word) (s t : State) : Prop :=
  ∀ r, t.reg r = if r = rd ∧ r ≠ 0#5 then v else s.reg r

/-- Every register is unchanged. -/
def SameRegs (s t : State) : Prop := ∀ r, t.reg r = s.reg r

/-- The two sticky flags are unchanged. -/
def SameFlags (s t : State) : Prop := t.haltFlag = s.haltFlag ∧ t.faultHalt = s.faultHalt

/-- `i` completes at `s`: `v` to `rd`, on to `p + 4`, and nothing else. -/
def Computes (i : Instr) (s : State) (rd : Reg) (v : Word) : Prop :=
  ∃ t, exec i s = .next t ∧ WritesOnly rd v s t ∧ t.pc = s.pc + 4 ∧ SameMemory s t ∧ SameFlags s t ∧
    t.diags = s.diags ∧ SamePipeline s t

/-- What a redirect to `target` leaves (R160, R256): the pc there, `haltFlag` set at the halt target,
one diagnostic when the target is not a multiple of 4, memory and `faultHalt` unchanged. The tick
number in that diagnostic of `exec` is the model's choice (log entry 8). -/
def RedirectsTo (target : Word) (s t : State) : Prop :=
  t.pc = target ∧
  (t.haltFlag = true ↔ s.haltFlag = true ∨ s.cfg.haltTarget = some target) ∧
  t.diags = s.diags ++
    (if target.toNat % 4 = 0 then [] else [⟨.fetchMisaligned, s.cycle + 1, s.pc, target⟩]) ∧
  t.faultHalt = s.faultHalt ∧ SameMemory s t ∧ SamePipeline s t

/-- A conditional branch at `s`: to `p + off` when `cond` holds, else on to `p + 4`; no register
changes. -/
def BranchesOn (i : Instr) (s : State) (cond : Prop) (off : Word) : Prop :=
  (cond → ∃ t, exec i s = .next t ∧ SameRegs s t ∧ RedirectsTo (s.pc + off) s t) ∧
  (¬cond → ∃ t, exec i s = .next t ∧ SameRegs s t ∧ t.pc = s.pc + 4 ∧ SameMemory s t ∧
    SameFlags s t ∧ t.diags = s.diags ∧ SamePipeline s t)

/-- A jump at `s`: the link `p + 4` to `rd`, and a redirect. -/
def JumpsTo (i : Instr) (s : State) (rd : Reg) (target : Word) : Prop :=
  ∃ t, exec i s = .next t ∧ WritesOnly rd (s.pc + 4) s t ∧ RedirectsTo target s t

/-- Byte `k` of a word, little-endian (R51). -/
def byteOf (v : Word) (k : Nat) : Byte := v.extractLsb' (8 * k) 8

/-- A store at `s` completes: the `n` bytes from address `base` on become the low bytes of `v`, every
other byte reads as before, and no register changes. -/
def StoresAt (i : Instr) (s : State) (base n : Nat) (v : Word) : Prop :=
  ∃ t, exec i s = .next t ∧
    (∀ a, readByte t.dmem a =
      if base ≤ a ∧ a < base + n then byteOf v (a - base) else readByte s.dmem a) ∧
    SameRegs s t ∧ t.pc = s.pc + 4 ∧ SameFlags s t ∧ t.diags = s.diags ∧ SamePipeline s t

/-- A strict-mode memory fault at `s` (R282): nothing is written, the fault is reported, the core is
HALTED. That pc stays, and the tick number in the report, are the model's choice (log entry 8). -/
def FaultsStrictly (i : Instr) (s : State) (kind : DiagKind) (A : Word) : Prop :=
  ∃ t, exec i s = .next t ∧ SameRegs s t ∧ SameMemory s t ∧ t.faultHalt = true ∧ t.drv = .halted ∧
    t.diags = s.diags ++ [⟨kind, s.cycle + 1, s.pc, A⟩] ∧ t.pc = s.pc ∧
    t.haltFlag = s.haltFlag ∧ SamePipeline s t

/-- A permissive-mode memory fault at `s` (R282): a load writes 0 to its `rd`, a store is dropped, the
fault is reported and execution goes on. The tick number in the report is the model's choice (log
entry 8). -/
def FaultsPermissively (i : Instr) (s : State) (rd : Option Reg) (kind : DiagKind) (A : Word) : Prop :=
  ∃ t, exec i s = .next t ∧
    (∀ r, t.reg r = if rd = some r ∧ r ≠ 0#5 then 0 else s.reg r) ∧ SameMemory s t ∧
    t.pc = s.pc + 4 ∧ t.diags = s.diags ++ [⟨kind, s.cycle + 1, s.pc, A⟩] ∧ SameFlags s t ∧
    SamePipeline s t

/-- The register an instruction writes, if its class writes one (R102). -/
def destOf : Instr → Option Reg
  | .lui rd _ => some rd
  | .auipc rd _ => some rd
  | .jal rd _ => some rd
  | .jalr rd _ _ => some rd
  | .beq _ _ _ => none
  | .bne _ _ _ => none
  | .blt _ _ _ => none
  | .bge _ _ _ => none
  | .bltu _ _ _ => none
  | .bgeu _ _ _ => none
  | .lb rd _ _ => some rd
  | .lh rd _ _ => some rd
  | .lw rd _ _ => some rd
  | .lbu rd _ _ => some rd
  | .lhu rd _ _ => some rd
  | .sb _ _ _ => none
  | .sh _ _ _ => none
  | .sw _ _ _ => none
  | .addi rd _ _ => some rd
  | .slti rd _ _ => some rd
  | .sltiu rd _ _ => some rd
  | .xori rd _ _ => some rd
  | .ori rd _ _ => some rd
  | .andi rd _ _ => some rd
  | .slli rd _ _ => some rd
  | .srli rd _ _ => some rd
  | .srai rd _ _ => some rd
  | .add rd _ _ => some rd
  | .sub rd _ _ => some rd
  | .sll rd _ _ => some rd
  | .slt rd _ _ => some rd
  | .sltu rd _ _ => some rd
  | .xor rd _ _ => some rd
  | .srl rd _ _ => some rd
  | .sra rd _ _ => some rd
  | .or rd _ _ => some rd
  | .and rd _ _ => some rd

/-! ### Architectural agreement -/

/-- Two states agree architecturally: parameters, registers, data memory and `faultHalt`, and, when no
strict-mode fault has happened, `pc` and `haltFlag` (after one, pc is Fetch's own, R282). -/
structure ArchEq (a b : State) : Prop where
  cfg : a.cfg = b.cfg
  regs : a.regs = b.regs
  dmem : a.dmem = b.dmem
  faultHalt : a.faultHalt = b.faultHalt
  pc : a.faultHalt = false → a.pc = b.pc
  haltFlag : a.faultHalt = false → a.haltFlag = b.haltFlag

/-! ### The pipeline invariant -/

/-- `d` is the descriptor of the image's word at `p` (R32, R39). -/
def FromImage (cfg : Params) (p : Word) (d : Descriptor) : Prop :=
  ∃ w, fetch cfg p = some w ∧ decodeDescriptor w = .ok d

/-- What the spec's text says of every pipeline state a run reaches. -/
structure PipeInv (s : State) : Prop where
  /-- The word in IF/ID is the image's at its pc, `pc` has moved on by 4 since, and the halt flag was
  clear when it was fetched (R23, R161, R196). -/
  ifid : ∀ p w, s.ifid = .instr p w →
    fetch s.cfg p = some w ∧ s.pc = p + 4 ∧ s.haltFlag = false
  /-- Each descriptor in flight is the decoder's output for the word at its pc (R32). -/
  idex : ∀ x, s.idex = some x → FromImage s.cfg x.pc x.d
  exmem : ∀ e, s.exmem = some e → FromImage s.cfg e.pc e.d
  memwb : ∀ m, s.memwb = some m → FromImage s.cfg m.pc m.d
  /-- ID/EX holds the register file's values of its source fields (R35). -/
  operands : ∀ x, s.idex = some x →
    x.rs1val = s.reg x.d.rs1 ∧ x.rs2val = s.reg x.d.rs2
  /-- A consumer in ID/EX never has the load it depends on in EX/MEM (R230). -/
  loadUse : ∀ x e, s.idex = some x → s.exmem = some e → e.d.memRead = true →
    readsReg x.d e.d.rd = false
  /-- After a strict-mode fault MEM/WB is a bubble (R282). -/
  faulted : s.faultHalt = true → s.memwb = none
  /-- `drv` is the state function (R252). -/
  drv : s.drv = drvState s

/-- The instruction in IF/ID leaves Decode in the next tick: the core is not HALTED, the word is
recognized, the hazard unit does not stall it (R195). -/
def Issues (s : State) (p : Word) (w : Word) (i : Instr) : Prop :=
  s.drv ≠ .halted ∧ s.ifid = .instr p w ∧ decode w = .ok i ∧
    hazard (describe i w) s.idex s.exmem = false

/-- The instruction in IF/ID stalls in the next tick (R198, R224). -/
def Stalls (s : State) : Prop := s.drv ≠ .halted ∧ s.decodeOut.stall = true

/-- A computational instruction other than a control transfer, load or store: it takes no stall and no
squash from another such instruction (R203). -/
def isComputational (i : Instr) : Bool :=
  i.cls == .op || i.cls == .opImm || i.cls == .lui || i.cls == .auipc

/-- `n` steps of the machine. -/
def steps : Nat → State → State
  | 0, s => s
  | n + 1, s => steps n (driverStep s).next

/-! ### Tick counts (R303, R304) -/

/-- What Fetch does in a tick: it reads an instruction that is kept, it is frozen by a stall, it reads
one that is squashed, or it reads nothing. -/
inductive TickKind where
  | fetched | stalled | squashed | idle
  deriving DecidableEq, Repr

/-- The kind of the next tick of a core that is not HALTED (R196). -/
def State.tickKind (s : State) : TickKind :=
  if s.decodeOut.stall then .stalled
  else
    match s.fetchOut.ifid with
    | .instr _ _ => .fetched
    | .squashed _ => .squashed
    | .bubble => .idle

/-- How many of the first `n` ticks from `s` are of kind `kind`. -/
def ticksOfKind (kind : TickKind) : Nat → State → Nat
  | 0, _ => 0
  | n + 1, s => (if s.tickKind = kind then 1 else 0) + ticksOfKind kind n (driverStep s).next

/-- The run from `s` ends by draining after exactly `n` ticks: HALTED then, not before, and not by a
strict-mode fault (R252, R257). -/
def DrainsIn (s : State) (n : Nat) : Prop :=
  (steps n s).drv = .halted ∧ (steps n s).faultHalt = false ∧ ∀ k, k < n → (steps k s).drv ≠ .halted

/-- Of the first `n` ticks from `s`, tick `last + 1` is the last in which an instruction is fetched and
not squashed. -/
def LastFetch (s : State) (n last : Nat) : Prop :=
  last < n ∧ (steps last s).tickKind = .fetched ∧
    ∀ k, k < n → last < k → (steps k s).tickKind ≠ .fetched

/-- `F + S + T + 4` of R304 for a run of `n` ticks from `s` whose last fetch that is not squashed is in
tick `last + 1`: fetches, stalls, and the squashed fetches before that one. -/
def countedTicks (s : State) (n last : Nat) : Nat :=
  ticksOfKind .fetched n s + ticksOfKind .stalled n s + ticksOfKind .squashed last s + 4

end Sys2Proof.Machine
end

