-- ==== Sys2Proof/Certificates/Slice0/Obligations.lean ====
section
/-! DEFINITION. The statements for the provers, from the numbered rules of `spec/`. `exec` is the
architectural effect of an instruction (log entry 1), `step` is one tick of the pipeline. -/

open Sys2Proof Sys2Proof.Machine

/-! ### Encoding (`30_encoding.md`, `40_decoder.md`) -/

/-- R72, R73, R75: encoding and then decoding a well-formed instruction gives it back, every operand at
every value. -/
def Obligations.DecodeOfEncodeIsIdentity : Prop :=
  ∀ i : Instr, i.wellFormed = true → decode (encode i) = .ok i

/-- R72, R73, R75: a recognized word is the encoding of the well-formed instruction it decodes to. -/
def Obligations.EncodeOfDecodeIsIdentity : Prop :=
  ∀ (w : Word) (i : Instr), decode w = .ok i → i.wellFormed = true ∧ encode i = w

/-- R75: the decoder recognizes exactly the words of the 37 rows, each as the instruction of its row,
and no word satisfies two rows. -/
def Obligations.DecoderMatchesTheOpcodeTable : Prop :=
  opcodeTable.length = 37 ∧
  opcodeTable.Pairwise (fun r r' => ∀ w : Word, ¬(w &&& r.mask = r.bits ∧ w &&& r'.mask = r'.bits)) ∧
  (∀ (w : Word) (i : Instr), decode w = .ok i →
    i.row ∈ opcodeTable ∧ w &&& i.row.mask = i.row.bits) ∧
  (∀ (w : Word) (r : Row), r ∈ opcodeTable → w &&& r.mask = r.bits →
    ∃ i, decode w = .ok i ∧ i.row = r)

/-- Words written out by the spec (`95_test_vectors.md` sections 2.1, 2.2) decode as it says. -/
def Obligations.SampleWordsDecode : Prop :=
  decode 0x123452B7#32 = .ok (.lui 5 0x12345) ∧ decode 0x00001297#32 = .ok (.auipc 5 0x1) ∧
  decode 0xFF9FF0EF#32 = .ok (.jal 1 (BitVec.ofInt 21 (-8))) ∧
  decode 0xFFC100E7#32 = .ok (.jalr 1 2 (BitVec.ofInt 12 (-4))) ∧
  decode 0x8020C063#32 = .ok (.blt 1 2 (BitVec.ofInt 13 (-4096))) ∧
  decode 0x00052283#32 = .ok (.lw 5 10 0) ∧
  decode 0xFE312E23#32 = .ok (.sw 3 2 (BitVec.ofInt 12 (-4))) ∧
  decode 0x80008193#32 = .ok (.addi 3 1 (BitVec.ofInt 12 (-2048))) ∧
  decode 0x41F0D193#32 = .ok (.srai 3 1 31) ∧ decode 0x402081B3#32 = .ok (.sub 3 1 2)

/-- Words the spec lists as unrecognized (R76, `95_test_vectors.md` section 2.3) are rejected. The spec
has one DecodeFault; the name each rejection carries, after R76's case, is the model's choice (log
entry 14). -/
def Obligations.UnrecognizedWordsAreRejected : Prop :=
  decode 0x00000000#32 = .error .unknownOpcode ∧ decode 0xFFFFFFFF#32 = .error .unknownOpcode ∧
  decode 0x0000000F#32 = .error .unknownOpcode ∧ decode 0x00000073#32 = .error .unknownOpcode ∧
  decode 0x00100073#32 = .error .unknownOpcode ∧ decode 0x02208033#32 = .error .opFunct ∧
  decode 0x40001013#32 = .error .shiftFunct7 ∧ decode 0x00003003#32 = .error .loadFunct3 ∧
  decode 0x00003023#32 = .error .storeFunct3 ∧ decode 0x00002063#32 = .error .branchFunct3 ∧
  decode 0x00001067#32 = .error .jalrFunct3

/-- R73: the value of each immediate as a signed number (U: unsigned), from the bits of the word. -/
def Obligations.ImmediatesAreAssembledFromTheWord : Prop :=
  ∀ w : Word,
    (immI w).toInt = (w.extractLsb' 20 11).toNat - 2048 * (w.extractLsb' 31 1).toNat ∧
    (immS w).toInt = (w.extractLsb' 7 5).toNat + 32 * (w.extractLsb' 25 6).toNat
      - 2048 * (w.extractLsb' 31 1).toNat ∧
    (immB w).toInt = 2 * (w.extractLsb' 8 4).toNat + 32 * (w.extractLsb' 25 6).toNat
      + 2048 * (w.extractLsb' 7 1).toNat - 4096 * (w.extractLsb' 31 1).toNat ∧
    (immU w).toNat = 4096 * (w.extractLsb' 12 20).toNat ∧
    (immJ w).toInt = 2 * (w.extractLsb' 21 10).toNat + 2048 * (w.extractLsb' 20 1).toNat
      + 4096 * (w.extractLsb' 12 8).toNat - 1048576 * (w.extractLsb' 31 1).toNat

/-- R101, R102, R105: the raw fields of a descriptor, its class from the opcode, and every control flag
from the class; `memSigned` is 0 for every class but a load (for loads, R104 below). -/
def Obligations.DescriptorFollowsTheOpcode : Prop :=
  ∀ (w : Word) (d : Descriptor), decodeDescriptor w = .ok d →
    d.rd = w.extractLsb' 7 5 ∧ d.rs1 = w.extractLsb' 15 5 ∧ d.rs2 = w.extractLsb' 20 5 ∧
    d.funct3 = w.extractLsb' 12 3 ∧ d.funct7 = w.extractLsb' 25 7 ∧
    (w.extractLsb' 0 7, d.cls) ∈
      [(0x33#7, OpClass.op), (0x13#7, .opImm), (0x03#7, .load), (0x23#7, .store), (0x63#7, .branch),
       (0x6F#7, .jal), (0x67#7, .jalr), (0x37#7, .lui), (0x17#7, .auipc)] ∧
    (d.regWrite = true ↔ d.cls ≠ .store ∧ d.cls ≠ .branch) ∧
    (d.memRead = true ↔ d.cls = .load) ∧ (d.memWrite = true ↔ d.cls = .store) ∧
    (d.isBranch = true ↔ d.cls = .branch) ∧ (d.isJump = true ↔ d.cls = .jal ∨ d.cls = .jalr) ∧
    (d.aluSrc = true ↔ d.cls ∈ [OpClass.opImm, .load, .store, .lui, .auipc]) ∧
    (d.usesRs1 = true ↔ d.cls ∉ [OpClass.lui, .auipc, .jal]) ∧
    (d.usesRs2 = true ↔ d.cls ∈ [OpClass.op, .store, .branch]) ∧
    (d.memWidth = none ↔ d.cls ≠ .load ∧ d.cls ≠ .store) ∧
    (d.cls ≠ .load → d.memSigned = false) ∧
    (d.cls ≠ .op → d.cls ≠ .opImm → d.aluOp = .add) ∧
    d.imm = (match d.cls with
      | .op => 0
      | .opImm => immI w
      | .load => immI w
      | .jalr => immI w
      | .store => immS w
      | .branch => immB w
      | .lui => immU w
      | .auipc => immU w
      | .jal => immJ w)

/-- R103: `aluOp` from `funct3` and `funct7`, and DecodeFault for every other pair. -/
def Obligations.AluOpFollowsTheFunctFields : Prop :=
  ∀ (w : Word) (op : AluOp),
    (w.extractLsb' 0 7 = 0x33#7 →
      ((∃ d, decodeDescriptor w = .ok d ∧ d.aluOp = op) ↔
        (w.extractLsb' 12 3, w.extractLsb' 25 7, op) ∈
          [(0#3, 0#7, AluOp.add), (0#3, 0x20#7, .sub), (1#3, 0#7, .sll), (2#3, 0#7, .slt),
           (3#3, 0#7, .sltu), (4#3, 0#7, .xor), (5#3, 0#7, .srl), (5#3, 0x20#7, .sra),
           (6#3, 0#7, .or), (7#3, 0#7, .and)])) ∧
    (w.extractLsb' 0 7 = 0x13#7 →
      ((∃ d, decodeDescriptor w = .ok d ∧ d.aluOp = op) ↔
        ((w.extractLsb' 12 3, op) ∈
          [(0#3, AluOp.add), (2#3, .slt), (3#3, .sltu), (4#3, .xor), (6#3, .or), (7#3, .and)] ∨
         (w.extractLsb' 12 3, w.extractLsb' 25 7, op) ∈
          [(1#3, 0#7, AluOp.sll), (5#3, 0#7, .srl), (5#3, 0x20#7, .sra)])))

/-- R104: `memWidth` and `memSigned` from `funct3`, and DecodeFault for every other `funct3`. The
names of the rejections are the model's choice (log entry 14). -/
def Obligations.AccessWidthFollowsFunct3 : Prop :=
  ∀ (w : Word) (n : Size) (signed : Bool),
    (w.extractLsb' 0 7 = 0x03#7 →
      ((∃ d, decodeDescriptor w = .ok d ∧ d.memWidth = some n ∧ d.memSigned = signed) ↔
        (w.extractLsb' 12 3, n, signed) ∈
          [(0#3, Size.byte, true), (1#3, .half, true), (2#3, .word, true), (4#3, .byte, false),
           (5#3, .half, false)])) ∧
    (w.extractLsb' 0 7 = 0x23#7 →
      ((∃ d, decodeDescriptor w = .ok d ∧ d.memWidth = some n ∧ d.memSigned = signed) ↔
        (w.extractLsb' 12 3, n, signed) ∈
          [(0#3, Size.byte, false), (1#3, .half, false), (2#3, .word, false)])) ∧
    (w.extractLsb' 0 7 = 0x03#7 → w.extractLsb' 12 3 ∈ [3#3, 6#3, 7#3] →
      decodeDescriptor w = .error .loadFunct3) ∧
    (w.extractLsb' 0 7 = 0x23#7 → w.extractLsb' 12 3 ∉ [0#3, 1#3, 2#3] →
      decodeDescriptor w = .error .storeFunct3)

/-! ### ALU and comparator (R120, R151) -/

/-- R120: each row of the ALU table, as integer arithmetic or bit by bit. -/
def Obligations.AluComputesItsTable : Prop :=
  ∀ a b : Word,
    (alu .add a b).toNat = (a.toNat + b.toNat) % 2 ^ 32 ∧
    alu .sub a b = BitVec.ofInt 32 (a.toInt - b.toInt) ∧
    (∀ k, (alu .and a b).getLsbD k = (a.getLsbD k && b.getLsbD k)) ∧
    (∀ k, (alu .or a b).getLsbD k = (a.getLsbD k || b.getLsbD k)) ∧
    (∀ k, (alu .xor a b).getLsbD k = (a.getLsbD k ^^ b.getLsbD k)) ∧
    (alu .sll a b).toNat = a.toNat * 2 ^ (b.toNat % 32) % 2 ^ 32 ∧
    (alu .srl a b).toNat = a.toNat / 2 ^ (b.toNat % 32) ∧
    (alu .sra a b).toInt = a.toInt / 2 ^ (b.toNat % 32) ∧
    alu .slt a b = (if a.toInt < b.toInt then 1 else 0) ∧
    alu .sltu a b = (if a.toNat < b.toNat then 1 else 0)

/-- R151: the comparator per `funct3`. -/
def Obligations.ComparatorDecidesPerFunct3 : Prop :=
  ∀ a b : Word,
    (taken 0#3 a b = true ↔ a = b) ∧ (taken 1#3 a b = true ↔ a ≠ b) ∧
    (taken 4#3 a b = true ↔ a.toInt < b.toInt) ∧ (taken 5#3 a b = true ↔ a.toInt ≥ b.toInt) ∧
    (taken 6#3 a b = true ↔ a.toNat < b.toNat) ∧ (taken 7#3 a b = true ↔ a.toNat ≥ b.toNat)

/-! ### Results and frames of the instructions -/

/-- R124 to R133: each register-register instruction completes in every state with its result in `rd`
(nothing for `rd = 0`) and nothing else changed but pc; and the rules' example words are these
instructions. -/
def Obligations.RegisterRegisterInstructionsComplete : Prop :=
  (∀ (s : State) (rd rs1 rs2 : Reg),
    let A := s.reg rs1
    let B := s.reg rs2
    Computes (.add rd rs1 rs2) s rd (BitVec.ofNat 32 (A.toNat + B.toNat)) ∧
    Computes (.sub rd rs1 rs2) s rd (BitVec.ofInt 32 (A.toInt - B.toInt)) ∧
    Computes (.sll rd rs1 rs2) s rd (BitVec.ofNat 32 (A.toNat * 2 ^ (B.toNat % 32))) ∧
    Computes (.slt rd rs1 rs2) s rd (if A.toInt < B.toInt then 1 else 0) ∧
    Computes (.sltu rd rs1 rs2) s rd (if A.toNat < B.toNat then 1 else 0) ∧
    Computes (.xor rd rs1 rs2) s rd (A ^^^ B) ∧
    Computes (.srl rd rs1 rs2) s rd (BitVec.ofNat 32 (A.toNat / 2 ^ (B.toNat % 32))) ∧
    Computes (.sra rd rs1 rs2) s rd (BitVec.ofInt 32 (A.toInt / 2 ^ (B.toNat % 32))) ∧
    Computes (.or rd rs1 rs2) s rd (A ||| B) ∧
    Computes (.and rd rs1 rs2) s rd (A &&& B)) ∧
  decode 0x00108133#32 = .ok (.add 2 1 1) ∧ decode 0x402081B3#32 = .ok (.sub 3 1 2) ∧
  decode 0x002091B3#32 = .ok (.sll 3 1 2) ∧ decode 0x0020A1B3#32 = .ok (.slt 3 1 2) ∧
  decode 0x0020B1B3#32 = .ok (.sltu 3 1 2) ∧ decode 0x0020C1B3#32 = .ok (.xor 3 1 2) ∧
  decode 0x0020D1B3#32 = .ok (.srl 3 1 2) ∧ decode 0x4020D1B3#32 = .ok (.sra 3 1 2) ∧
  decode 0x0020E1B3#32 = .ok (.or 3 1 2) ∧ decode 0x0020F1B3#32 = .ok (.and 3 1 2)

/-- R134 to R139: each register-immediate instruction that is not a shift, the immediate sign-extended
first; and the rules' example words. That SLTIU sign-extends before its unsigned comparison is the
spec's own inference (R136: "That the immediate is sign-extended before the unsigned comparison follows
from the decoder producing one sign-extended `imm` per word"). -/
def Obligations.RegisterImmediateInstructionsComplete : Prop :=
  (∀ (s : State) (rd rs1 : Reg) (imm : BitVec 12),
    let A := s.reg rs1
    let I : Word := BitVec.ofInt 32 imm.toInt
    Computes (.addi rd rs1 imm) s rd (BitVec.ofNat 32 (A.toNat + I.toNat)) ∧
    Computes (.slti rd rs1 imm) s rd (if A.toInt < imm.toInt then 1 else 0) ∧
    Computes (.sltiu rd rs1 imm) s rd (if A.toNat < I.toNat then 1 else 0) ∧
    Computes (.xori rd rs1 imm) s rd (A ^^^ I) ∧
    Computes (.ori rd rs1 imm) s rd (A ||| I) ∧
    Computes (.andi rd rs1 imm) s rd (A &&& I)) ∧
  decode 0x00500093#32 = .ok (.addi 1 0 5) ∧ decode 0x00000013#32 = .ok (.addi 0 0 0) ∧
  decode 0xFFF0A193#32 = .ok (.slti 3 1 0xFFF) ∧
  decode 0xFFF0B193#32 = .ok (.sltiu 3 1 0xFFF) ∧ decode 0xFFF0C193#32 = .ok (.xori 3 1 0xFFF) ∧
  decode 0x0F00E193#32 = .ok (.ori 3 1 0xF0) ∧ decode 0x0FF0F193#32 = .ok (.andi 3 1 0xFF)

/-- R140 to R142: the immediate shifts, by 0 to 31 places. -/
def Obligations.ImmediateShiftsComplete : Prop :=
  ∀ (s : State) (rd rs1 : Reg) (shamt : BitVec 5),
    let A := s.reg rs1
    Computes (.slli rd rs1 shamt) s rd (BitVec.ofNat 32 (A.toNat * 2 ^ shamt.toNat)) ∧
    Computes (.srli rd rs1 shamt) s rd (BitVec.ofNat 32 (A.toNat / 2 ^ shamt.toNat)) ∧
    Computes (.srai rd rs1 shamt) s rd (BitVec.ofInt 32 (A.toInt / 2 ^ shamt.toNat))

/-- R143, R144: LUI and AUIPC; `p` is the instruction's own address. -/
def Obligations.UpperImmediateInstructionsComplete : Prop :=
  ∀ (s : State) (rd : Reg) (imm20 : BitVec 20),
    Computes (.lui rd imm20) s rd (BitVec.ofNat 32 (4096 * imm20.toNat)) ∧
    Computes (.auipc rd imm20) s rd (BitVec.ofNat 32 (s.pc.toNat + 4096 * imm20.toNat))

/-- R152 to R157: each branch is taken exactly on its condition, to `p + imm`, and otherwise falls
through; the rules' example words are these instructions. The tick number in the FetchMisaligned of
`exec` is the model's choice (log entry 8). -/
def Obligations.BranchesComplete : Prop :=
  (∀ (s : State) (rs1 rs2 : Reg) (offset : BitVec 13),
    let A := s.reg rs1
    let B := s.reg rs2
    let I : Word := BitVec.ofInt 32 offset.toInt
    BranchesOn (.beq rs1 rs2 offset) s (A = B) I ∧
    BranchesOn (.bne rs1 rs2 offset) s (A ≠ B) I ∧
    BranchesOn (.blt rs1 rs2 offset) s (A.toInt < B.toInt) I ∧
    BranchesOn (.bge rs1 rs2 offset) s (A.toInt ≥ B.toInt) I ∧
    BranchesOn (.bltu rs1 rs2 offset) s (A.toNat < B.toNat) I ∧
    BranchesOn (.bgeu rs1 rs2 offset) s (A.toNat ≥ B.toNat) I) ∧
  decode 0x00008463#32 = .ok (.beq 1 0 8) ∧
  decode 0xFE011CE3#32 = .ok (.bne 2 0 (BitVec.ofInt 13 (-8))) ∧
  decode 0x0020C863#32 = .ok (.blt 1 2 16) ∧ decode 0x0020D863#32 = .ok (.bge 1 2 16) ∧
  decode 0x0020E863#32 = .ok (.bltu 1 2 16) ∧ decode 0x0020F863#32 = .ok (.bgeu 1 2 16)

/-- R158, R159: the jumps; the JALR target uses the old `x[rs1]` and has bit 0 cleared. The tick number
in the FetchMisaligned of `exec` is the model's choice (log entry 8). -/
def Obligations.JumpsComplete : Prop :=
  (∀ (s : State) (rd : Reg) (offset : BitVec 21),
    JumpsTo (.jal rd offset) s rd (s.pc + BitVec.ofInt 32 offset.toInt)) ∧
  (∀ (s : State) (rd rs1 : Reg) (imm : BitVec 12),
    JumpsTo (.jalr rd rs1 imm) s rd
      (BitVec.ofNat 32 (2 * ((s.reg rs1 + BitVec.ofInt 32 imm.toInt).toNat / 2))))

/-- R171 to R175 with R51 to R55: a load whose access does not fault completes with the bytes at its
address, little-endian, extended; a word load ignores the two low address bits. The address is
`x[rs1]` plus the sign-extended offset, modulo `2^32` (R170). -/
def Obligations.LoadsComplete : Prop :=
  ∀ (s : State) (rd rs1 : Reg) (imm : BitVec 12),
    let A := effectiveAddress s rs1 imm
    let a := A.toNat
    let W := a / 4 * 4
    let m := s.dmem
    A = s.reg rs1 + BitVec.ofInt 32 imm.toInt ∧
    (W < s.cfg.dmemBytes →
      Computes (.lb rd rs1 imm) s rd ((readByte m a).signExtend 32) ∧
      Computes (.lbu rd rs1 imm) s rd ((readByte m a).setWidth 32) ∧
      (a % 4 ≠ 3 →
        Computes (.lh rd rs1 imm) s rd
          ((readByte m (a + 1) ++ readByte m a : BitVec 16).signExtend 32) ∧
        Computes (.lhu rd rs1 imm) s rd
          ((readByte m (a + 1) ++ readByte m a : BitVec 16).setWidth 32)) ∧
      Computes (.lw rd rs1 imm) s rd
        (readByte m (W + 3) ++ readByte m (W + 2) ++ readByte m (W + 1) ++ readByte m W :
          BitVec 32))

/-- R176 to R178 with R51 to R55: a store whose access does not fault completes with the low bytes of
`x[rs2]` at its address and every other byte of memory as before; a word store ignores the two low
address bits. The address is `x[rs1]` plus the sign-extended offset, modulo `2^32` (R170). -/
def Obligations.StoresComplete : Prop :=
  ∀ (s : State) (rs2 rs1 : Reg) (imm : BitVec 12),
    let A := effectiveAddress s rs1 imm
    let a := A.toNat
    let W := a / 4 * 4
    A = s.reg rs1 + BitVec.ofInt 32 imm.toInt ∧
    (Memory.wf s.dmem → W < s.cfg.dmemBytes →
      StoresAt (.sb rs2 rs1 imm) s a 1 (s.reg rs2) ∧
      (a % 4 ≠ 3 → StoresAt (.sh rs2 rs1 imm) s a 2 (s.reg rs2)) ∧
      StoresAt (.sw rs2 rs1 imm) s W 4 (s.reg rs2))

/-- R55, R56: when an access faults, and how: the range of the containing word first, then the
halfword at offset 3; and the kind each is reported as (R282, R283). -/
def Obligations.AccessFaultsExactlyWhen : Prop :=
  AccessFault.kind .outOfRange = .memoryOutOfRange ∧
  AccessFault.kind .misaligned = .memoryMisaligned ∧
  ∀ (cfg : Params) (A : Word) (n : Size),
    (accessFault cfg A n = some .outOfRange ↔ cfg.dmemBytes ≤ A.toNat / 4 * 4) ∧
    (accessFault cfg A n = some .misaligned ↔
      A.toNat / 4 * 4 < cfg.dmemBytes ∧ n = .half ∧ A.toNat % 4 = 3) ∧
    (cfg.dmemBytes = 2 ^ 32 → accessFault cfg A n ≠ some .outOfRange)

/-- R180, R282, R283 in strict mode: a faulting load or store writes nothing and halts the core. That
pc stays, and the tick number in the report, are the model's choice (log entry 8). -/
def Obligations.StrictFaultsWriteNothing : Prop :=
  ∀ (s : State) (r r' : Reg) (imm : BitVec 12) (f : AccessFault), s.cfg.permissive = false →
    let A := effectiveAddress s r' imm
    (accessFault s.cfg A .byte = some f →
      FaultsStrictly (.lb r r' imm) s f.kind A ∧ FaultsStrictly (.lbu r r' imm) s f.kind A ∧
      FaultsStrictly (.sb r r' imm) s f.kind A) ∧
    (accessFault s.cfg A .half = some f →
      FaultsStrictly (.lh r r' imm) s f.kind A ∧ FaultsStrictly (.lhu r r' imm) s f.kind A ∧
      FaultsStrictly (.sh r r' imm) s f.kind A) ∧
    (accessFault s.cfg A .word = some f →
      FaultsStrictly (.lw r r' imm) s f.kind A ∧ FaultsStrictly (.sw r r' imm) s f.kind A)

/-- R180, R282, R283 in permissive mode: a faulting load writes 0, a faulting store is dropped, and
the run continues. The tick number in the report is the model's choice (log entry 8). -/
def Obligations.PermissiveFaultsContinue : Prop :=
  ∀ (s : State) (r r' : Reg) (imm : BitVec 12) (f : AccessFault), s.cfg.permissive = true →
    let A := effectiveAddress s r' imm
    (accessFault s.cfg A .byte = some f →
      FaultsPermissively (.lb r r' imm) s (some r) f.kind A ∧
      FaultsPermissively (.lbu r r' imm) s (some r) f.kind A ∧
      FaultsPermissively (.sb r r' imm) s none f.kind A) ∧
    (accessFault s.cfg A .half = some f →
      FaultsPermissively (.lh r r' imm) s (some r) f.kind A ∧
      FaultsPermissively (.lhu r r' imm) s (some r) f.kind A ∧
      FaultsPermissively (.sh r r' imm) s none f.kind A) ∧
    (accessFault s.cfg A .word = some f →
      FaultsPermissively (.lw r r' imm) s (some r) f.kind A ∧
      FaultsPermissively (.sw r r' imm) s none f.kind A)

/-- R25, R26, R31, R102 over all instructions: no instruction touches a parameter, a latch, the cycle
count or the trace; only its destination register changes; only a store changes memory; only a load or
a store can set `faultHalt`; only a control transfer can set `haltFlag`. -/
def Obligations.InstructionsTouchOnlyTheirOwnState : Prop :=
  ∀ (i : Instr) (s t : State), exec i s = .next t →
    SamePipeline s t ∧ (∀ r, destOf i ≠ some r → t.reg r = s.reg r) ∧ t.reg 0 = s.reg 0 ∧
    (i.cls ≠ .store → t.dmem = s.dmem) ∧
    (i.cls ≠ .load → i.cls ≠ .store → t.faultHalt = s.faultHalt) ∧
    (i.cls ≠ .branch → i.cls ≠ .jal → i.cls ≠ .jalr → t.haltFlag = s.haltFlag)

/-- R280: there is no trap, so every instruction and every step answers a next state. -/
def Obligations.NothingStopsTheMachine : Prop :=
  (∀ (i : Instr) (s : State), ∃ t, exec i s = .next t) ∧ (∀ s : State, ∃ t, step s = .next t)

/-! ### Data memory (R51 to R58) -/

/-- R52: every data access touches the single word at `W(A)` and no other word. -/
def Obligations.AccessesTouchOnlyTheirWord : Prop :=
  ∀ (A : Word) (n : Size),
    containing A = A &&& 0xFFFFFFFC#32 ∧ offset A = A.toNat % 4 ∧
    (∀ (m : Memory) (v B : Word), Memory.wf m → containing B ≠ containing A →
      readWord (memWrite m A n v) (containing B) = readWord m (containing B)) ∧
    (∀ m m' : Memory, readWord m (containing A) = readWord m' (containing A) →
      memRead m A n = memRead m' A n)

/-- R53, R54, R60: an access reads what was last written to its bytes: a load after a store to the
same address and width gives the low bits stored, and a load of bytes that lie apart is unchanged; `memory_snapshot` reads the
same words (R250). -/
def Obligations.LoadReadsLatestStore : Prop :=
  (∀ (s : State) (A : Word), memorySnapshot s A = memRead s.dmem A .word) ∧
  ∀ (m : Memory) (A v : Word) (n : Size), Memory.wf m → ¬(n = .half ∧ offset A = 3) →
    memRead (memWrite m A n v) A n = v.setWidth (8 * n.bytes) ∧
    (∀ B : Word, B.toNat < A.toNat / 4 * 4 ∨ A.toNat / 4 * 4 + 4 ≤ B.toNat ∨
        (n ≠ .word ∧ (B.toNat < A.toNat ∨ A.toNat + n.bytes ≤ B.toNat)) →
      memRead (memWrite m A n v) B .byte = memRead m B .byte)

/-- Log entry 4: every step and every instruction keep the canonical form of the data memory. -/
def Obligations.DataMemoryStaysCanonical : Prop :=
  (∀ s t : State, Memory.wf s.dmem → step s = .next t → Memory.wf t.dmem) ∧
  (∀ (i : Instr) (s t : State), Memory.wf s.dmem → exec i s = .next t → Memory.wf t.dmem)

/-- R56: no step ever puts a byte at or beyond `DMEM_BYTES` into the data memory. -/
def Obligations.DataMemoryStaysInRange : Prop :=
  ∀ s t : State, s.cfg.dmemBytes % 4 = 0 → (∀ c ∈ s.dmem, c.1 < s.cfg.dmemBytes) →
    step s = .next t → ∀ c ∈ t.dmem, c.1 < t.cfg.dmemBytes

/-- R31: the data memory changes in a tick only when EX/MEM holds a store whose access does not fault,
and then as `MemWrite` says. -/
def Obligations.OnlyStoresChangeDataMemory : Prop :=
  ∀ s t : State, PipeInv s → s.drv ≠ .halted → step s = .next t →
    (t.dmem = s.dmem ∧
      ∀ e n, s.exmem = some e → e.d.memWrite = true → e.d.memWidth = some n →
        accessFault s.cfg e.aluResult n ≠ none) ∨
    (∃ e n, s.exmem = some e ∧ e.d.memWrite = true ∧ e.d.memWidth = some n ∧
      accessFault s.cfg e.aluResult n = none ∧
      t.dmem = memWrite s.dmem e.aluResult n e.storeData)

/-- R62: nothing can change what `Fetch(a)` returns. -/
def Obligations.FetchNeverChanges : Prop :=
  (∀ (s t : State) (a : Word), step s = .next t → fetch t.cfg a = fetch s.cfg a) ∧
  (∀ (i : Instr) (s t : State) (a : Word), exec i s = .next t → fetch t.cfg a = fetch s.cfg a)

/-! ### Registers and pc in a tick (R21, R24, R192) -/

/-- R21: register 0 stays 0, whatever targets it: under every tick and under every instruction. -/
def Obligations.RegisterZeroStaysZero : Prop :=
  (∀ s t : State, s.reg 0 = 0 → step s = .next t → t.reg 0 = 0) ∧
  (∀ (i : Instr) (s t : State), s.reg 0 = 0 → exec i s = .next t → t.reg 0 = 0) ∧
  (∀ p : Params, (resetWith p).reg 0 = 0)

/-- R192: Writeback is the only write site: a register changes in a tick only when it is the non-zero
`rd` of a register-writing instruction in MEM/WB, and then to its result; the instruction emits `WB`,
and nothing is produced from MEM/WB: the next MEM/WB comes from EX/MEM and data memory alone, and is a
bubble when EX/MEM is one. -/
def Obligations.WritebackIsTheOnlyRegisterWrite : Prop :=
  ∀ (s t : State) (r : Reg), s.drv ≠ .halted → step s = .next t →
    t.reg r = (match s.memwb with
      | none => s.reg r
      | some m =>
        if m.d.regWrite = true ∧ m.d.rd = r ∧ r ≠ 0#5 then
          (if m.d.memRead = true then m.memData else m.aluResult)
        else s.reg r) ∧
    (∀ p, ⟨s.cycle + 1, p, .WB⟩ ∈ t.trace ↔
      ⟨s.cycle + 1, p, .WB⟩ ∈ s.trace ∨ ∃ m, s.memwb = some m ∧ m.pc = p) ∧
    t.memwb = (memoryStage s.cfg (s.cycle + 1) s.exmem s.dmem).memwb ∧
    (s.exmem = none → t.memwb = none)

/-- R24: how `pc` changes in one tick, in priority order. -/
def Obligations.PcChangesInPriorityOrder : Prop :=
  ∀ s t : State, s.drv ≠ .halted → step s = .next t →
    (s.decodeOut.stall = true → t.pc = s.pc) ∧
    (∀ target, s.decodeOut.stall = false → s.decodeOut.redirect = some target → t.pc = target) ∧
    (s.decodeOut.stall = false → s.decodeOut.redirect = none → fetchable s.cfg s.pc = true →
      s.haltFlag = false → t.pc.toNat = (s.pc.toNat + 4) % 2 ^ 32) ∧
    (s.decodeOut.stall = false → s.decodeOut.redirect = none →
      fetchable s.cfg s.pc = false ∨ s.haltFlag = true → t.pc = s.pc)

/-! ### Stall, squash, decode fault (R198, R199, R107) -/

/-- R198: a stall freezes `pc` and IF/ID and puts a bubble into ID/EX, while Writeback, Memory and
Execute proceed; the instruction emits `STALL`. -/
def Obligations.StallFreezesFetchAndInsertsBubble : Prop :=
  ∀ s t : State, Stalls s → step s = .next t →
    t.pc = s.pc ∧ t.ifid = s.ifid ∧ t.idex = none ∧ t.haltFlag = s.haltFlag ∧
    t.exmem = executeStage s.idex s.exmem s.memwb ∧ t.memwb = s.memOut.memwb ∧
    t.dmem = s.memOut.dmem ∧ t.regs = s.regsAfterWriteback ∧
    ∃ p w, s.ifid = .instr p w ∧ s.decodeOut.events = [(p, .STALL)] ∧ s.fetchOut.events = []

/-- R225: a stall lasts at most two consecutive ticks. -/
def Obligations.StallsLastAtMostTwoTicks : Prop :=
  ∀ s t u : State, Stalls s → step s = .next t → Stalls t → step t = .next u → ¬Stalls u

/-- R224: the stall decision, as a condition on the latches: a load in ID/EX for any consumer, any
producer in ID/EX or a load in EX/MEM for a branch or JALR; MEM/WB never matters. The consumer's source
set (R105, R220) is what its class reads of `rs1` and `rs2`, without register 0. -/
def Obligations.StallExactlyWhen : Prop :=
  (∀ (d : Descriptor) (r : Reg), readsReg d r = true ↔
    r ≠ 0 ∧ ((d.usesRs1 = true ∧ d.rs1 = r) ∨ (d.usesRs2 = true ∧ d.rs2 = r))) ∧
  ∀ (s : State) (p w : Word) (d : Descriptor), s.drv ≠ .halted → s.ifid = .instr p w →
    decodeDescriptor w = .ok d →
    (Stalls s ↔
      (∃ x, s.idex = some x ∧ x.d.memRead = true ∧ readsReg d x.d.rd = true) ∨
      ((d.isBranch = true ∨ d.cls = .jalr) ∧
        ((∃ x, s.idex = some x ∧ x.d.regWrite = true ∧ readsReg d x.d.rd = true) ∨
         (∃ e, s.exmem = some e ∧ e.d.memRead = true ∧ readsReg d e.d.rd = true))))

/-- R199: a redirect squashes exactly the instruction Fetch reads in that tick, which emits `IF` then
and `SQUASH`, once, in the next tick, never reaches the decoder, and never stalls.
R160, R195, R284: a target that is not a multiple of 4 is reported once, with this tick's number, the
redirecting instruction's pc and the target; any other target reports nothing. -/
def Obligations.RedirectSquashesOneFetch : Prop :=
  ∀ (s t : State) (target : Word), s.drv ≠ .halted → s.decodeOut.redirect = some target →
    step s = .next t →
    t.pc = target ∧ s.decodeOut.stall = false ∧
    (∃ p w, s.ifid = .instr p w ∧
      s.decodeOut.diags =
        (if target.toNat % 4 = 0 then [] else [⟨.fetchMisaligned, s.cycle + 1, p, target⟩])) ∧
    t.diags = s.diags ++ s.memOut.diags ++ s.decodeOut.diags ∧
    (s.haltFlag = false → fetchable s.cfg s.pc = true →
      t.ifid = .squashed s.pc ∧ s.fetchOut.events = [(s.pc, .IF)] ∧
      t.decodeOut.events = [(s.pc, .SQUASH)] ∧ t.decodeOut.idex = none ∧
      t.decodeOut.stall = false ∧ t.decodeOut.redirect = none ∧ t.decodeOut.diags = [] ∧
      ∀ p, t.fetchOut.ifid ≠ .squashed p) ∧
    (s.haltFlag = true ∨ fetchable s.cfg s.pc = false → t.ifid = .bubble ∧ s.fetchOut.events = [])

/-- R107, R281: an unrecognized word in IF/ID: a bubble into ID/EX, no stall, no redirect, one
DecodeFault with its pc, word and tick, an `ID` label, and Fetch goes on. -/
def Obligations.UnrecognizedWordBecomesBubble : Prop :=
  ∀ (s t : State) (p w : Word) (e : DecodeReject), s.drv ≠ .halted → s.ifid = .instr p w →
    decode w = .error e → step s = .next t →
    t.idex = none ∧ s.decodeOut.stall = false ∧ s.decodeOut.redirect = none ∧
    s.decodeOut.events = [(p, .ID)] ∧
    t.diags = s.diags ++ s.memOut.diags ++ [⟨.decodeFault, s.cycle + 1, p, w⟩] ∧
    t.haltFlag = s.haltFlag ∧ t.faultHalt = (s.faultHalt || s.memOut.fault) ∧
    (s.haltFlag = false → ∀ w', fetch s.cfg s.pc = some w' →
      t.ifid = .instr s.pc w' ∧ t.pc = s.pc + 4) ∧
    (s.haltFlag = true ∨ fetch s.cfg s.pc = none → t.ifid = .bubble ∧ t.pc = s.pc)

/-! ### Forwarding and hazards: operands are the program-order values (R226, R233) -/

/-- R226, R229: the multiplexer takes EX/MEM first unless a load is there, then MEM/WB, then the
captured value; register 0 is never forwarded. -/
def Obligations.ForwardingTakesTheNearestProducer : Prop :=
  ∀ (exmem : Option ExMem) (memwb : Option MemWb) (r : Reg) (v : Word),
    (∀ e, exmem = some e → r ≠ 0 → e.d.regWrite = true → e.d.rd = r → e.d.memRead = false →
      fwd exmem memwb r v = e.aluResult) ∧
    (∀ m, memwb = some m → r ≠ 0 → m.d.regWrite = true → m.d.rd = r →
      (∀ e, exmem = some e → ¬(e.d.regWrite = true ∧ e.d.rd = r ∧ e.d.memRead = false)) →
      fwd exmem memwb r v = (if m.d.memRead = true then m.memData else m.aluResult)) ∧
    ((∀ e, exmem = some e → ¬(e.d.regWrite = true ∧ e.d.rd = r ∧ e.d.memRead = false)) →
      (∀ m, memwb = some m → ¬(m.d.regWrite = true ∧ m.d.rd = r)) → fwd exmem memwb r v = v) ∧
    fwd exmem memwb 0 v = v

/-- R233 (a): the operand an instruction in Execute takes for a register it reads is that register's
value once the two older instructions in EX/MEM and MEM/WB have completed. -/
def Obligations.ExecuteOperandsAreProgramOrder : Prop :=
  ∀ (s : State) (x : IdEx), PipeInv s → s.faultHalt = false → s.idex = some x →
    let older := State.retire { s with regs := s.regsAfterWriteback } s.exmem
    (x.d.usesRs1 = true → fwd s.exmem s.memwb x.d.rs1 x.rs1val = older.reg x.d.rs1) ∧
    (x.d.usesRs2 = true → fwd s.exmem s.memwb x.d.rs2 x.rs2val = older.reg x.d.rs2)

/-- R233 (b): the operand a branch or JALR takes in Decode, when it is not stalled, is that register's
value once every older instruction in flight has completed. -/
def Obligations.DecodeOperandsAreProgramOrder : Prop :=
  ∀ (s : State) (p w : Word) (i : Instr) (r : Reg), PipeInv s → Issues s p w i →
    early (describe i w) = true → readsReg (describe i w) r = true →
    fwd s.exmem s.memwb r (readReg s.regsAfterWriteback r) = (drain s).reg r

/-! ### Memory faults in a tick (R258, R282) -/

/-- R258, R282, R283 in strict mode: the faulting instruction becomes a bubble in MEM/WB and memory is
unchanged; the older instruction's Writeback and the younger stages still happen in that tick; the
fault is reported; from then on the core is HALTED and nothing changes. -/
def Obligations.StrictMemoryFaultHaltsTheCore : Prop :=
  ∀ (s t : State) (e : ExMem) (n : Size) (f : AccessFault), s.drv ≠ .halted → s.exmem = some e →
    e.d.memWidth = some n → accessFault s.cfg e.aluResult n = some f →
    s.cfg.permissive = false → step s = .next t →
    t.memwb = none ∧ t.dmem = s.dmem ∧ t.regs = s.regsAfterWriteback ∧
    t.exmem = executeStage s.idex s.exmem s.memwb ∧ t.idex = s.decodeOut.idex ∧
    t.ifid = s.fetchOut.ifid ∧ t.faultHalt = true ∧ t.drv = .halted ∧
    t.diags = s.diags ++ [⟨f.kind, s.cycle + 1, e.pc, e.aluResult⟩] ++ s.decodeOut.diags ∧
    (e.pc, .MEM) ∈ s.tickEvents ∧ (∀ k, steps k t = t)

/-- R282, R283 in permissive mode: the faulting instruction stays valid with loaded value 0, memory is
unchanged, the fault is reported, `faultHalt` is not set. -/
def Obligations.PermissiveMemoryFaultContinues : Prop :=
  ∀ (s t : State) (e : ExMem) (n : Size) (f : AccessFault), s.drv ≠ .halted → s.exmem = some e →
    e.d.memWidth = some n → accessFault s.cfg e.aluResult n = some f →
    s.cfg.permissive = true → step s = .next t →
    t.memwb = some ⟨e.pc, e.d, e.aluResult, 0⟩ ∧ t.dmem = s.dmem ∧ t.faultHalt = s.faultHalt ∧
    t.diags = s.diags ++ [⟨f.kind, s.cycle + 1, e.pc, e.aluResult⟩] ++ s.decodeOut.diags ∧
    (e.pc, .MEM) ∈ s.tickEvents

/-! ### The driver (R252 to R261) -/

/-- R253, R259: in HALTED nothing changes, by `step` or by `run`. -/
def Obligations.HaltedStepChangesNothing : Prop :=
  ∀ s : State, s.drv = .halted →
    step s = .next s ∧ (driverStep s).events = [] ∧ (driverStep s).diags = [] ∧
    (∀ b : Int, 0 < b → s.cfg.imem ≠ [] → run b s = .next ⟨0, s, []⟩)

/-- R252: the driver state after a step, case by case: HALTED after a strict-mode fault, else RUNNING
while the halt flag is clear and `pc` is fetchable, else DRAINING while a latch is valid, else HALTED;
and the transitions a step can make. -/
def Obligations.DriverStateTransitions : Prop :=
  ∀ s t : State, PipeInv s → step s = .next t →
    let canRun := t.haltFlag = false ∧ t.pc.toNat % 4 = 0 ∧ t.pc.toNat / 4 < t.cfg.imem.length
    let inFlight := (∃ p w, t.ifid = .instr p w) ∨ t.idex ≠ none ∨ t.exmem ≠ none ∨ t.memwb ≠ none
    (t.faultHalt = true → t.drv = .halted) ∧
    (t.faultHalt = false → canRun → t.drv = .running) ∧
    (t.faultHalt = false → ¬canRun → inFlight → t.drv = .draining) ∧
    (t.faultHalt = false → ¬canRun → ¬inFlight → t.drv = .halted) ∧
    t.drv = drvState t ∧ (s.drv = .halted → t.drv = .halted) ∧
    (s.drv = .running → t.drv = .halted → t.faultHalt = true) ∧
    (s.drv = .draining → t.drv = .running → s.decodeOut.redirect ≠ none)

/-- R256: a redirect to the halt target goes there and sets `haltFlag`; while `haltFlag` is set and
Decode holds nothing, Fetch reads nothing, `pc` stays and the flag stays. Sequential flow does not set
it. -/
def Obligations.HaltTargetStopsFetching : Prop :=
  ∀ s t : State, s.drv ≠ .halted → step s = .next t →
    (∀ target, s.decodeOut.redirect = some target → s.cfg.haltTarget = some target →
      t.pc = target ∧ t.haltFlag = true ∧ ∀ p w, t.ifid ≠ .instr p w) ∧
    (s.haltFlag = true → (∀ p w, s.ifid ≠ .instr p w) →
      t.haltFlag = true ∧ t.pc = s.pc ∧ t.ifid = .bubble ∧ s.fetchOut.events = []) ∧
    (s.haltFlag = false → t.haltFlag = true →
      ∃ target, s.decodeOut.redirect = some target ∧ s.cfg.haltTarget = some target)

/-- R255, R285: `run` reports an empty image first, then a non-positive budget, before any tick; with
neither it runs, and answers the number of ticks executed and the diagnostics of those ticks, oldest
first (R254, R286). -/
def Obligations.RunReportsConfigurationErrors : Prop :=
  ∀ (b : Int) (s : State),
    (s.cfg.imem = [] → run b s = .fault (.configurationError .emptyImage)) ∧
    (s.cfg.imem ≠ [] → b ≤ 0 → run b s = .fault (.configurationError .nonPositiveBudget)) ∧
    (s.cfg.imem ≠ [] → 0 < b → ∃ o, run b s = .next o ∧ o.ticks ≤ b.toNat ∧
      o.final = steps o.ticks s ∧ o.final.cycle = s.cycle + o.ticks ∧
      o.final.diags = s.diags ++ o.diags ∧ (o.ticks < b.toNat → o.final.drv = .halted))

/-- R254: exhausting a budget is not halting: running `a` ticks and then `b` more is running `a + b`. -/
def Obligations.RunCanBeContinued : Prop :=
  ∀ (a b : Nat) (s : State),
    let first := runTicks a s
    let second := runTicks b first.final
    runTicks (a + b) s = ⟨first.ticks + second.ticks, second.final, first.diags ++ second.diags⟩

/-- R201, R286, R288: a tick emits exactly the pairs of R201's table: `WB`, `MEM`, `EX` for the valid
instructions in MEM/WB, EX/MEM, ID/EX, `STALL` or `ID` for the one in IF/ID, `SQUASH` for squashed
remains there, `IF` for the instruction Fetch reads; at most five, no pair twice. It raises at most two
diagnostics, Memory's before Decode's, each with the number of the tick: Memory's exactly when the
access in EX/MEM faults (R193), Decode's exactly when IF/ID holds an unrecognized word or Decode
redirects to a misaligned target (R195). Both lists are added at the end of the accumulated ones, and
`trace()` gives each instruction its new labels at the end (R261). -/
def Obligations.TickOutputsAreBounded : Prop :=
  ∀ s t : State, s.drv ≠ .halted → step s = .next t →
    (∀ p, (p, Label.WB) ∈ s.tickEvents ↔ ∃ m, s.memwb = some m ∧ m.pc = p) ∧
    (∀ p, (p, Label.MEM) ∈ s.tickEvents ↔ ∃ e, s.exmem = some e ∧ e.pc = p) ∧
    (∀ p, (p, Label.EX) ∈ s.tickEvents ↔ ∃ x, s.idex = some x ∧ x.pc = p) ∧
    (∀ p, (p, Label.ID) ∈ s.tickEvents ↔ s.decodeOut.stall = false ∧ ∃ w, s.ifid = .instr p w) ∧
    (∀ p, (p, Label.STALL) ∈ s.tickEvents ↔ s.decodeOut.stall = true ∧ ∃ w, s.ifid = .instr p w) ∧
    (∀ p, (p, Label.SQUASH) ∈ s.tickEvents ↔ s.ifid = .squashed p) ∧
    (∀ p, (p, Label.IF) ∈ s.tickEvents ↔ p = s.pc ∧ s.decodeOut.stall = false ∧
      s.haltFlag = false ∧ fetchable s.cfg s.pc = true) ∧
    (∀ e n f, s.exmem = some e → e.d.memWidth = some n → accessFault s.cfg e.aluResult n = some f →
      s.memOut.diags = [⟨f.kind, s.cycle + 1, e.pc, e.aluResult⟩]) ∧
    ((∀ e n f, s.exmem = some e → e.d.memWidth = some n → accessFault s.cfg e.aluResult n ≠ some f) →
      s.memOut.diags = []) ∧
    (∀ p w e, s.ifid = .instr p w → decode w = .error e →
      s.decodeOut.diags = [⟨.decodeFault, s.cycle + 1, p, w⟩]) ∧
    (∀ p w target, s.ifid = .instr p w → s.decodeOut.redirect = some target →
      target.toNat % 4 ≠ 0 → s.decodeOut.diags = [⟨.fetchMisaligned, s.cycle + 1, p, target⟩]) ∧
    ((∀ p w e, s.ifid = .instr p w → decode w ≠ .error e) →
      (∀ target, s.decodeOut.redirect = some target → target.toNat % 4 = 0) →
      s.decodeOut.diags = []) ∧
    (∀ p, traceAt t p = traceAt s p ++
      (s.tickEvents.filter (fun e => e.1 == p)).map (fun e => (s.cycle + 1, e.2))) ∧
    s.tickEvents.length ≤ 5 ∧ s.tickEvents.Nodup ∧ s.memOut.diags.length ≤ 1 ∧
    s.decodeOut.diags.length ≤ 1 ∧
    (driverStep s).events = s.tickEvents ∧
    (driverStep s).diags = s.memOut.diags ++ s.decodeOut.diags ∧
    (∀ d ∈ s.memOut.diags ++ s.decodeOut.diags, d.tick = s.cycle + 1) ∧
    t.trace = s.trace ++ s.tickEvents.map (fun e => ⟨s.cycle + 1, e.1, e.2⟩) ∧
    t.diags = s.diags ++ (s.memOut.diags ++ s.decodeOut.diags) ∧ t.cycle = s.cycle + 1

/-! ### Reset (R41, R300) -/

/-- R300: the state after reset, the driver state it has, and the first tick, which fetches
`IMEM[0]`. -/
def Obligations.ResetLeavesTheStatedValues : Prop :=
  ∀ p : Params,
    let s := resetWith p
    s.reg 0 = 0 ∧ (∀ r : Reg, r ≠ 0 → s.reg r = readReg p.regInit r) ∧ s.pc = 0 ∧
    s.dmem = p.dmemInit ∧ s.ifid = .bubble ∧ s.idex = none ∧ s.exmem = none ∧ s.memwb = none ∧
    s.cycle = 0 ∧ s.haltFlag = false ∧ s.faultHalt = false ∧ s.trace = [] ∧ s.diags = [] ∧
    s.cfg = p ∧ (s.drv = .running ↔ p.imem ≠ []) ∧ (s.drv = .halted ↔ p.imem = []) ∧
    (∀ w rest, p.imem = w :: rest → ∃ t, step s = .next t ∧ t.ifid = .instr 0 w ∧ t.pc = 4)

/-- R285: construction accepts the parameters in R5's ranges and refuses every other. That it also
accepts the empty image, where R5 has `1 <= N`, and that `DMEM_INIT` is to be in the canonical byte form
and below `DMEM_BYTES`, is the model's choice (log entries 10 and 4). What it answers is the reset state,
which satisfies the pipeline invariant, has `x[0] = 0` and a canonical data memory in range. -/
def Obligations.ConstructionEstablishesTheInvariants : Prop :=
  ∀ p : Params,
    let inRange := p.imem.length ≤ 2 ^ 30 ∧ p.dmemBytes % 4 = 0 ∧ 4 ≤ p.dmemBytes ∧
      p.dmemBytes ≤ 2 ^ 32 ∧ readReg p.regInit 0 = 0 ∧
      Memory.wf p.dmemInit ∧ ∀ c ∈ p.dmemInit, c.1 < p.dmemBytes
    (¬inRange → construct p = .refused .parametersOutOfContract) ∧
    (inRange → construct p = .next (resetWith p)) ∧
    (∀ s, construct p = .next s → PipeInv s ∧ s.reg 0 = 0 ∧ Memory.wf s.dmem ∧
      ∀ c ∈ s.dmem, c.1 < s.cfg.dmemBytes)

/-! ### The pipeline runs the program (R203, R233, R305) -/

/-- Every step keeps the pipeline invariant: what is in the latches is what the image holds at their
addresses, captured operands are the register file's, a consumer in ID/EX never has the load it depends
on in EX/MEM (R230), and `drv` is the state function. -/
def Obligations.PipelineInvariantIsKept : Prop :=
  ∀ s t : State, PipeInv s → step s = .next t → PipeInv t

/-- R195: a step at a state whose IF/ID word decodes to `i` and is not stalled puts `i` into ID/EX with
its descriptor and the register file's values, and emits `ID`. -/
def Obligations.StepIssuesTheDecodedInstruction : Prop :=
  ∀ (s : State) (p w : Word) (i : Instr), Issues s p w i →
    ∃ t, step s = .next t ∧
      t.idex = some ⟨p, describe i w, readReg s.regsAfterWriteback (w.extractLsb' 15 5),
        readReg s.regsAfterWriteback (w.extractLsb' 20 5)⟩ ∧
      (p, .ID) ∈ s.tickEvents ∧ t.cycle = s.cycle + 1

/-- A STEP RUNS THE DECODED INSTRUCTION (R233, R305): when the word in IF/ID decodes to `i` and leaves
Decode, then seen architecturally (the older instructions in flight completed, `drain`) the step is
`exec i`: same registers, data memory and `faultHalt`, and same pc and `haltFlag` unless `i` itself
faulted strictly. `i` is the image's instruction at the architectural pc. -/
def Obligations.StepRunsTheDecodedInstruction : Prop :=
  ∀ (s : State) (p w : Word) (i : Instr), PipeInv s → Issues s p w i →
    (drain s).faultHalt = false →
    (drain s).pc = p ∧ fetch (drain s).cfg p = some w ∧
    ∃ t u, step s = .next t ∧ exec i (drain s) = .next u ∧ ArchEq (drain t) u

/-- The other steps (R198, R200, R107, R282): an unrecognized word is a no-operation that moves pc on;
a stall, a bubble or a HALTED core changes nothing architectural; behind an instruction that is going
to fault strictly nothing counts. -/
def Obligations.OtherStepsRunNothing : Prop :=
  ∀ s t : State, PipeInv s → step s = .next t →
    ((drain s).faultHalt = true → ArchEq (drain t) (drain s)) ∧
    ((drain s).faultHalt = false → s.drv ≠ .halted → ∀ p w e, s.ifid = .instr p w →
      decode w = .error e → ArchEq (drain t) ((drain s).skip w)) ∧
    ((¬∃ p w i, Issues s p w i) →
      (s.drv ≠ .halted → ∀ p w e, s.ifid = .instr p w → decode w ≠ .error e) →
      ArchEq (drain t) (drain s))

/-- R305: a run from reset that reaches HALTED leaves the registers, data memory, `faultHalt` and, but
after a strict-mode fault, the pc of the sequential interpreter, which has stopped there too. For every
image, every initial state and both configurations; strict-mode faults and permissive faults
included. -/
def Obligations.HaltedRunEqualsSequentialRun : Prop :=
  ∀ (p : Params) (n : Nat), (steps n (resetWith p)).drv = .halted →
    ∃ k t, seqRun k (resetWith p) = .next t ∧ seqStopped t = true ∧
      ArchEq (steps n (resetWith p)) t

/-- R203, R257: an image of `N` computational instructions (no load, store or control transfer) halts
after exactly `N + 4` ticks, with pc past the image and no stall or squash marker. -/
def Obligations.StraightLineProgramTakesNPlusFourTicks : Prop :=
  ∀ p : Params, 1 ≤ p.imem.length → p.imem.length < 2 ^ 30 →
    (∀ w ∈ p.imem, ∃ i, decode w = .ok i ∧ isComputational i = true) →
    let s := steps (p.imem.length + 4) (resetWith p)
    s.drv = .halted ∧ s.cycle = p.imem.length + 4 ∧ s.pc.toNat = 4 * p.imem.length ∧
    (∀ k, k < p.imem.length + 4 → (steps k (resetWith p)).drv ≠ .halted) ∧
    (∀ e ∈ s.trace, e.label ≠ .STALL ∧ e.label ≠ .SQUASH) ∧ s.diags = []

/-- R63, R196: the word at an address is the image's, at a multiple of 4 inside it, and there is none
elsewhere; a tick without stall and redirect puts it and `pc` into IF/ID and moves on by 4, and when
there is none to read, or the halt flag is set, puts a bubble there and leaves `pc`. -/
def Obligations.FetchReadsTheImage : Prop :=
  (∀ (cfg : Params) (a w : Word),
    (fetch cfg a = some w ↔ a.toNat % 4 = 0 ∧ cfg.imem[a.toNat / 4]? = some w) ∧
    (fetchable cfg a = true ↔ a.toNat % 4 = 0 ∧ a.toNat / 4 < cfg.imem.length)) ∧
  ∀ s t : State, s.drv ≠ .halted → s.decodeOut.stall = false → s.decodeOut.redirect = none →
    step s = .next t →
    (∀ w, s.haltFlag = false → fetch s.cfg s.pc = some w →
      t.ifid = .instr s.pc w ∧ t.pc = s.pc + 4) ∧
    (s.haltFlag = true ∨ fetch s.cfg s.pc = none → t.ifid = .bubble ∧ t.pc = s.pc)

/-- R304, as far as R252 and R196 agree with it (log entry 21): a run from reset that drains takes
`F + S + T + 4` ticks (`countedTicks`, R304's own count) and `U` more when the last instruction fetched
and not squashed is recognized, with `U` the earlier ticks in which Fetch read nothing, each a redirect taken
while `pc` was past the image or misaligned; with `U = 0` this is R304's count. When that last word is
unrecognized the run can be shorter, never longer. -/
def Obligations.DrainedRunTakesFetchStallSquashPlusFourTicks : Prop :=
  ∀ (p : Params) (n last : Nat),
    let s := resetWith p
    let U := ticksOfKind .idle last s
    DrainsIn s n → LastFetch s n last →
      (∃ pc w, (steps (last + 1) s).ifid = .instr pc w ∧
        ((∃ i, decode w = .ok i) → n = countedTicks s n last + U) ∧
        (∀ e, decode w = .error e → last + 2 ≤ n ∧ n ≤ countedTicks s n last + U)) ∧
      (∀ k, k < last → (steps k s).tickKind = .idle →
        (steps k s).decodeOut.redirect ≠ none ∧ fetchable p (steps k s).pc = false)

/-- Log entry 3: with a table word placed at reset, the very next step issues the instruction the
decoder reads from it. -/
def Obligations.PlacedWordIsIssued : Prop :=
  ∀ (nbits w : Nat) (i : Instr), decodeTableWord nbits w = some i →
    ∃ t x, step (State.reset.withFetchWord nbits w) = .next t ∧ t.idex = some x ∧ x.pc = 0 ∧
      x.d = describe i (BitVec.ofNat 32 (w % 2 ^ nbits))
end

