-- ==== Sys2Proof/Laws/Decode.lean ====
section
/-! SUPPORT. The decoder said once: which fields of the word make each instruction, in both directions;
and the fields of an encoded word. -/

namespace Sys2Proof

/-- The fields of a word that decodes to an instruction (R71 to R75). -/
def Instr.FieldsOf (w : Word) : Instr → Prop
  | .lui rd v => opcodeOf w = 0x37#7 ∧ rd = rdOf w ∧ v = fieldU w
  | .auipc rd v => opcodeOf w = 0x17#7 ∧ rd = rdOf w ∧ v = fieldU w
  | .jal rd o => opcodeOf w = 0x6F#7 ∧ rd = rdOf w ∧ o = fieldJ w
  | .jalr rd rs1 v => opcodeOf w = 0x67#7 ∧ funct3Of w = 0#3 ∧ rd = rdOf w ∧ rs1 = rs1Of w ∧ v = fieldI w
  | .beq rs1 rs2 o => opcodeOf w = 0x63#7 ∧ funct3Of w = 0#3 ∧ rs1 = rs1Of w ∧ rs2 = rs2Of w ∧ o = fieldB w
  | .bne rs1 rs2 o => opcodeOf w = 0x63#7 ∧ funct3Of w = 1#3 ∧ rs1 = rs1Of w ∧ rs2 = rs2Of w ∧ o = fieldB w
  | .blt rs1 rs2 o => opcodeOf w = 0x63#7 ∧ funct3Of w = 4#3 ∧ rs1 = rs1Of w ∧ rs2 = rs2Of w ∧ o = fieldB w
  | .bge rs1 rs2 o => opcodeOf w = 0x63#7 ∧ funct3Of w = 5#3 ∧ rs1 = rs1Of w ∧ rs2 = rs2Of w ∧ o = fieldB w
  | .bltu rs1 rs2 o => opcodeOf w = 0x63#7 ∧ funct3Of w = 6#3 ∧ rs1 = rs1Of w ∧ rs2 = rs2Of w ∧ o = fieldB w
  | .bgeu rs1 rs2 o => opcodeOf w = 0x63#7 ∧ funct3Of w = 7#3 ∧ rs1 = rs1Of w ∧ rs2 = rs2Of w ∧ o = fieldB w
  | .lb rd rs1 v => opcodeOf w = 0x03#7 ∧ funct3Of w = 0#3 ∧ rd = rdOf w ∧ rs1 = rs1Of w ∧ v = fieldI w
  | .lh rd rs1 v => opcodeOf w = 0x03#7 ∧ funct3Of w = 1#3 ∧ rd = rdOf w ∧ rs1 = rs1Of w ∧ v = fieldI w
  | .lw rd rs1 v => opcodeOf w = 0x03#7 ∧ funct3Of w = 2#3 ∧ rd = rdOf w ∧ rs1 = rs1Of w ∧ v = fieldI w
  | .lbu rd rs1 v => opcodeOf w = 0x03#7 ∧ funct3Of w = 4#3 ∧ rd = rdOf w ∧ rs1 = rs1Of w ∧ v = fieldI w
  | .lhu rd rs1 v => opcodeOf w = 0x03#7 ∧ funct3Of w = 5#3 ∧ rd = rdOf w ∧ rs1 = rs1Of w ∧ v = fieldI w
  | .sb rs2 rs1 v => opcodeOf w = 0x23#7 ∧ funct3Of w = 0#3 ∧ rs2 = rs2Of w ∧ rs1 = rs1Of w ∧ v = fieldS w
  | .sh rs2 rs1 v => opcodeOf w = 0x23#7 ∧ funct3Of w = 1#3 ∧ rs2 = rs2Of w ∧ rs1 = rs1Of w ∧ v = fieldS w
  | .sw rs2 rs1 v => opcodeOf w = 0x23#7 ∧ funct3Of w = 2#3 ∧ rs2 = rs2Of w ∧ rs1 = rs1Of w ∧ v = fieldS w
  | .addi rd rs1 v => opcodeOf w = 0x13#7 ∧ funct3Of w = 0#3 ∧ rd = rdOf w ∧ rs1 = rs1Of w ∧ v = fieldI w
  | .slti rd rs1 v => opcodeOf w = 0x13#7 ∧ funct3Of w = 2#3 ∧ rd = rdOf w ∧ rs1 = rs1Of w ∧ v = fieldI w
  | .sltiu rd rs1 v => opcodeOf w = 0x13#7 ∧ funct3Of w = 3#3 ∧ rd = rdOf w ∧ rs1 = rs1Of w ∧ v = fieldI w
  | .xori rd rs1 v => opcodeOf w = 0x13#7 ∧ funct3Of w = 4#3 ∧ rd = rdOf w ∧ rs1 = rs1Of w ∧ v = fieldI w
  | .ori rd rs1 v => opcodeOf w = 0x13#7 ∧ funct3Of w = 6#3 ∧ rd = rdOf w ∧ rs1 = rs1Of w ∧ v = fieldI w
  | .andi rd rs1 v => opcodeOf w = 0x13#7 ∧ funct3Of w = 7#3 ∧ rd = rdOf w ∧ rs1 = rs1Of w ∧ v = fieldI w
  | .slli rd rs1 v => opcodeOf w = 0x13#7 ∧ funct3Of w = 1#3 ∧ funct7Of w = 0x0#7 ∧ rd = rdOf w ∧ rs1 = rs1Of w ∧ v = rs2Of w
  | .srli rd rs1 v => opcodeOf w = 0x13#7 ∧ funct3Of w = 5#3 ∧ funct7Of w = 0x0#7 ∧ rd = rdOf w ∧ rs1 = rs1Of w ∧ v = rs2Of w
  | .srai rd rs1 v => opcodeOf w = 0x13#7 ∧ funct3Of w = 5#3 ∧ funct7Of w = 0x20#7 ∧ rd = rdOf w ∧ rs1 = rs1Of w ∧ v = rs2Of w
  | .add rd rs1 rs2 => opcodeOf w = 0x33#7 ∧ funct3Of w = 0#3 ∧ funct7Of w = 0x0#7 ∧ rd = rdOf w ∧ rs1 = rs1Of w ∧ rs2 = rs2Of w
  | .sub rd rs1 rs2 => opcodeOf w = 0x33#7 ∧ funct3Of w = 0#3 ∧ funct7Of w = 0x20#7 ∧ rd = rdOf w ∧ rs1 = rs1Of w ∧ rs2 = rs2Of w
  | .sll rd rs1 rs2 => opcodeOf w = 0x33#7 ∧ funct3Of w = 1#3 ∧ funct7Of w = 0x0#7 ∧ rd = rdOf w ∧ rs1 = rs1Of w ∧ rs2 = rs2Of w
  | .slt rd rs1 rs2 => opcodeOf w = 0x33#7 ∧ funct3Of w = 2#3 ∧ funct7Of w = 0x0#7 ∧ rd = rdOf w ∧ rs1 = rs1Of w ∧ rs2 = rs2Of w
  | .sltu rd rs1 rs2 => opcodeOf w = 0x33#7 ∧ funct3Of w = 3#3 ∧ funct7Of w = 0x0#7 ∧ rd = rdOf w ∧ rs1 = rs1Of w ∧ rs2 = rs2Of w
  | .xor rd rs1 rs2 => opcodeOf w = 0x33#7 ∧ funct3Of w = 4#3 ∧ funct7Of w = 0x0#7 ∧ rd = rdOf w ∧ rs1 = rs1Of w ∧ rs2 = rs2Of w
  | .srl rd rs1 rs2 => opcodeOf w = 0x33#7 ∧ funct3Of w = 5#3 ∧ funct7Of w = 0x0#7 ∧ rd = rdOf w ∧ rs1 = rs1Of w ∧ rs2 = rs2Of w
  | .sra rd rs1 rs2 => opcodeOf w = 0x33#7 ∧ funct3Of w = 5#3 ∧ funct7Of w = 0x20#7 ∧ rd = rdOf w ∧ rs1 = rs1Of w ∧ rs2 = rs2Of w
  | .or rd rs1 rs2 => opcodeOf w = 0x33#7 ∧ funct3Of w = 6#3 ∧ funct7Of w = 0x0#7 ∧ rd = rdOf w ∧ rs1 = rs1Of w ∧ rs2 = rs2Of w
  | .and rd rs1 rs2 => opcodeOf w = 0x33#7 ∧ funct3Of w = 7#3 ∧ funct7Of w = 0x0#7 ∧ rd = rdOf w ∧ rs1 = rs1Of w ∧ rs2 = rs2Of w

theorem decodeOp_fields {w : Word} {i : Instr} (ho : opcodeOf w = 0x33#7) (h : decodeOp w = .ok i) :
    i.FieldsOf w := by
  unfold decodeOp at h
  repeat' split at h
  all_goals (cases h; try simp_all [Instr.FieldsOf])

theorem decodeOpImm_fields {w : Word} {i : Instr} (ho : opcodeOf w = 0x13#7)
    (h : decodeOpImm w = .ok i) : i.FieldsOf w := by
  unfold decodeOpImm at h
  repeat' split at h
  all_goals (cases h; try simp_all [Instr.FieldsOf])

theorem decodeLoad_fields {w : Word} {i : Instr} (ho : opcodeOf w = 0x03#7)
    (h : decodeLoad w = .ok i) : i.FieldsOf w := by
  unfold decodeLoad at h
  repeat' split at h
  all_goals (cases h; try simp_all [Instr.FieldsOf])

theorem decodeStore_fields {w : Word} {i : Instr} (ho : opcodeOf w = 0x23#7)
    (h : decodeStore w = .ok i) : i.FieldsOf w := by
  unfold decodeStore at h
  repeat' split at h
  all_goals (cases h; try simp_all [Instr.FieldsOf])

theorem decodeBranch_fields {w : Word} {i : Instr} (ho : opcodeOf w = 0x63#7)
    (h : decodeBranch w = .ok i) : i.FieldsOf w := by
  unfold decodeBranch at h
  repeat' split at h
  all_goals (cases h; try simp_all [Instr.FieldsOf])

/-- What a decoded word's fields are. -/
theorem decode_fields {w : Word} {i : Instr} (h : decode w = .ok i) : i.FieldsOf w := by
  unfold decode at h
  split at h
  · cases h; simp_all [Instr.FieldsOf]
  split at h
  · cases h; simp_all [Instr.FieldsOf]
  split at h
  · cases h; simp_all [Instr.FieldsOf]
  split at h
  · split at h <;> cases h; simp_all [Instr.FieldsOf]
  split at h
  · exact decodeBranch_fields ‹_› h
  split at h
  · exact decodeLoad_fields ‹_› h
  split at h
  · exact decodeStore_fields ‹_› h
  split at h
  · exact decodeOpImm_fields ‹_› h
  split at h
  · exact decodeOp_fields ‹_› h
  · cases h

/-- A word with an instruction's fields decodes to it. -/
theorem decode_of_fields {w : Word} {i : Instr} (h : i.FieldsOf w) : decode w = .ok i := by
  cases i <;> simp only [Instr.FieldsOf] at h <;>
    simp [decode, decodeBranch, decodeLoad, decodeStore, decodeOpImm, decodeOp, h]

theorem decode_eq_ok_iff {w : Word} {i : Instr} : decode w = .ok i ↔ i.FieldsOf w :=
  ⟨decode_fields, decode_of_fields⟩

/-- The descriptor decoder answers the description of the decoded instruction. -/
theorem decodeDescriptor_eq_ok_iff {w : Word} {d : Descriptor} :
    decodeDescriptor w = .ok d ↔ ∃ i, decode w = .ok i ∧ describe i w = d := by
  unfold decodeDescriptor
  split <;> rename_i heq <;> simp [heq]

theorem decodeDescriptor_ok {w : Word} {i : Instr} (h : decode w = .ok i) :
    decodeDescriptor w = .ok (describe i w) := decodeDescriptor_eq_ok_iff.mpr ⟨i, h, rfl⟩

end Sys2Proof
end

