-- ==== Sys2Proof/Laws/State.lean ====
section
/-! SUPPORT. One lemma per field and update of the state, so that no proof unfolds a record update. -/

namespace Sys2Proof.Machine

variable (s : State)

/-! ### `State.settle` -/

@[simp] theorem State.settle_cfg : (s.settle).cfg = s.cfg := rfl
@[simp] theorem State.settle_regs : (s.settle).regs = s.regs := rfl
@[simp] theorem State.settle_pc : (s.settle).pc = s.pc := rfl
@[simp] theorem State.settle_dmem : (s.settle).dmem = s.dmem := rfl
@[simp] theorem State.settle_ifid : (s.settle).ifid = s.ifid := rfl
@[simp] theorem State.settle_idex : (s.settle).idex = s.idex := rfl
@[simp] theorem State.settle_exmem : (s.settle).exmem = s.exmem := rfl
@[simp] theorem State.settle_memwb : (s.settle).memwb = s.memwb := rfl
@[simp] theorem State.settle_cycle : (s.settle).cycle = s.cycle := rfl
@[simp] theorem State.settle_haltFlag : (s.settle).haltFlag = s.haltFlag := rfl
@[simp] theorem State.settle_faultHalt : (s.settle).faultHalt = s.faultHalt := rfl
@[simp] theorem State.settle_trace : (s.settle).trace = s.trace := rfl
@[simp] theorem State.settle_diags : (s.settle).diags = s.diags := rfl
@[simp] theorem State.settle_drv : (s.settle).drv = drvState (s.settle) := rfl

/-! ### `State.setReg` -/

@[simp] theorem State.setReg_cfg (r : Reg) (v : Word) : (s.setReg r v).cfg = s.cfg := rfl
@[simp] theorem State.setReg_regs (r : Reg) (v : Word) : (s.setReg r v).regs = writeReg s.regs r v := rfl
@[simp] theorem State.setReg_pc (r : Reg) (v : Word) : (s.setReg r v).pc = s.pc := rfl
@[simp] theorem State.setReg_dmem (r : Reg) (v : Word) : (s.setReg r v).dmem = s.dmem := rfl
@[simp] theorem State.setReg_ifid (r : Reg) (v : Word) : (s.setReg r v).ifid = s.ifid := rfl
@[simp] theorem State.setReg_idex (r : Reg) (v : Word) : (s.setReg r v).idex = s.idex := rfl
@[simp] theorem State.setReg_exmem (r : Reg) (v : Word) : (s.setReg r v).exmem = s.exmem := rfl
@[simp] theorem State.setReg_memwb (r : Reg) (v : Word) : (s.setReg r v).memwb = s.memwb := rfl
@[simp] theorem State.setReg_cycle (r : Reg) (v : Word) : (s.setReg r v).cycle = s.cycle := rfl
@[simp] theorem State.setReg_haltFlag (r : Reg) (v : Word) : (s.setReg r v).haltFlag = s.haltFlag := rfl
@[simp] theorem State.setReg_faultHalt (r : Reg) (v : Word) : (s.setReg r v).faultHalt = s.faultHalt := rfl
@[simp] theorem State.setReg_trace (r : Reg) (v : Word) : (s.setReg r v).trace = s.trace := rfl
@[simp] theorem State.setReg_diags (r : Reg) (v : Word) : (s.setReg r v).diags = s.diags := rfl
@[simp] theorem State.setReg_drv (r : Reg) (v : Word) : (s.setReg r v).drv = s.drv := rfl

/-! ### `State.raise` -/

@[simp] theorem State.raise_cfg (k : DiagKind) (v : Word) : (s.raise k v).cfg = s.cfg := rfl
@[simp] theorem State.raise_regs (k : DiagKind) (v : Word) : (s.raise k v).regs = s.regs := rfl
@[simp] theorem State.raise_pc (k : DiagKind) (v : Word) : (s.raise k v).pc = s.pc := rfl
@[simp] theorem State.raise_dmem (k : DiagKind) (v : Word) : (s.raise k v).dmem = s.dmem := rfl
@[simp] theorem State.raise_ifid (k : DiagKind) (v : Word) : (s.raise k v).ifid = s.ifid := rfl
@[simp] theorem State.raise_idex (k : DiagKind) (v : Word) : (s.raise k v).idex = s.idex := rfl
@[simp] theorem State.raise_exmem (k : DiagKind) (v : Word) : (s.raise k v).exmem = s.exmem := rfl
@[simp] theorem State.raise_memwb (k : DiagKind) (v : Word) : (s.raise k v).memwb = s.memwb := rfl
@[simp] theorem State.raise_cycle (k : DiagKind) (v : Word) : (s.raise k v).cycle = s.cycle := rfl
@[simp] theorem State.raise_haltFlag (k : DiagKind) (v : Word) : (s.raise k v).haltFlag = s.haltFlag := rfl
@[simp] theorem State.raise_faultHalt (k : DiagKind) (v : Word) : (s.raise k v).faultHalt = s.faultHalt := rfl
@[simp] theorem State.raise_trace (k : DiagKind) (v : Word) : (s.raise k v).trace = s.trace := rfl
@[simp] theorem State.raise_diags (k : DiagKind) (v : Word) : (s.raise k v).diags = s.diags ++ [⟨k, s.cycle + 1, s.pc, v⟩] := rfl
@[simp] theorem State.raise_drv (k : DiagKind) (v : Word) : (s.raise k v).drv = s.drv := rfl

/-! ### `State.advance` -/

@[simp] theorem State.advance_cfg : (s.advance).cfg = s.cfg := rfl
@[simp] theorem State.advance_regs : (s.advance).regs = s.regs := rfl
@[simp] theorem State.advance_pc : (s.advance).pc = s.pc + 4 := rfl
@[simp] theorem State.advance_dmem : (s.advance).dmem = s.dmem := rfl
@[simp] theorem State.advance_ifid : (s.advance).ifid = s.ifid := rfl
@[simp] theorem State.advance_idex : (s.advance).idex = s.idex := rfl
@[simp] theorem State.advance_exmem : (s.advance).exmem = s.exmem := rfl
@[simp] theorem State.advance_memwb : (s.advance).memwb = s.memwb := rfl
@[simp] theorem State.advance_cycle : (s.advance).cycle = s.cycle := rfl
@[simp] theorem State.advance_haltFlag : (s.advance).haltFlag = s.haltFlag := rfl
@[simp] theorem State.advance_faultHalt : (s.advance).faultHalt = s.faultHalt := rfl
@[simp] theorem State.advance_trace : (s.advance).trace = s.trace := rfl
@[simp] theorem State.advance_diags : (s.advance).diags = s.diags := rfl
@[simp] theorem State.advance_drv : (s.advance).drv = drvState (s.advance) := rfl

/-! ### `State.complete` -/

@[simp] theorem State.complete_cfg (r : Reg) (v : Word) : (s.complete r v).cfg = s.cfg := rfl
@[simp] theorem State.complete_regs (r : Reg) (v : Word) : (s.complete r v).regs = writeReg s.regs r v := rfl
@[simp] theorem State.complete_pc (r : Reg) (v : Word) : (s.complete r v).pc = s.pc + 4 := rfl
@[simp] theorem State.complete_dmem (r : Reg) (v : Word) : (s.complete r v).dmem = s.dmem := rfl
@[simp] theorem State.complete_ifid (r : Reg) (v : Word) : (s.complete r v).ifid = s.ifid := rfl
@[simp] theorem State.complete_idex (r : Reg) (v : Word) : (s.complete r v).idex = s.idex := rfl
@[simp] theorem State.complete_exmem (r : Reg) (v : Word) : (s.complete r v).exmem = s.exmem := rfl
@[simp] theorem State.complete_memwb (r : Reg) (v : Word) : (s.complete r v).memwb = s.memwb := rfl
@[simp] theorem State.complete_cycle (r : Reg) (v : Word) : (s.complete r v).cycle = s.cycle := rfl
@[simp] theorem State.complete_haltFlag (r : Reg) (v : Word) : (s.complete r v).haltFlag = s.haltFlag := rfl
@[simp] theorem State.complete_faultHalt (r : Reg) (v : Word) : (s.complete r v).faultHalt = s.faultHalt := rfl
@[simp] theorem State.complete_trace (r : Reg) (v : Word) : (s.complete r v).trace = s.trace := rfl
@[simp] theorem State.complete_diags (r : Reg) (v : Word) : (s.complete r v).diags = s.diags := rfl
@[simp] theorem State.complete_drv (r : Reg) (v : Word) : (s.complete r v).drv = drvState (s.complete r v) := rfl

/-! ### `State.redirect` -/

@[simp] theorem State.redirect_cfg (v : Word) : (s.redirect v).cfg = s.cfg := rfl
@[simp] theorem State.redirect_regs (v : Word) : (s.redirect v).regs = s.regs := rfl
@[simp] theorem State.redirect_pc (v : Word) : (s.redirect v).pc = v := rfl
@[simp] theorem State.redirect_dmem (v : Word) : (s.redirect v).dmem = s.dmem := rfl
@[simp] theorem State.redirect_ifid (v : Word) : (s.redirect v).ifid = s.ifid := rfl
@[simp] theorem State.redirect_idex (v : Word) : (s.redirect v).idex = s.idex := rfl
@[simp] theorem State.redirect_exmem (v : Word) : (s.redirect v).exmem = s.exmem := rfl
@[simp] theorem State.redirect_memwb (v : Word) : (s.redirect v).memwb = s.memwb := rfl
@[simp] theorem State.redirect_cycle (v : Word) : (s.redirect v).cycle = s.cycle := rfl
@[simp] theorem State.redirect_haltFlag (v : Word) : (s.redirect v).haltFlag = (s.haltFlag || s.cfg.haltTarget == some v) := rfl
@[simp] theorem State.redirect_faultHalt (v : Word) : (s.redirect v).faultHalt = s.faultHalt := rfl
@[simp] theorem State.redirect_trace (v : Word) : (s.redirect v).trace = s.trace := rfl
@[simp] theorem State.redirect_diags (v : Word) : (s.redirect v).diags = s.diags ++ redirectDiags (s.cycle + 1) s.pc v := rfl
@[simp] theorem State.redirect_drv (v : Word) : (s.redirect v).drv = drvState (s.redirect v) := rfl

/-! ### One tick -/

@[simp] theorem State.tickState_cfg : s.tickState.cfg = s.cfg := rfl
@[simp] theorem State.tickState_regs : s.tickState.regs = s.regsAfterWriteback := rfl
@[simp] theorem State.tickState_pc : s.tickState.pc = s.fetchOut.pc := rfl
@[simp] theorem State.tickState_dmem : s.tickState.dmem = s.memOut.dmem := rfl
@[simp] theorem State.tickState_ifid : s.tickState.ifid = s.fetchOut.ifid := rfl
@[simp] theorem State.tickState_idex : s.tickState.idex = s.decodeOut.idex := rfl
@[simp] theorem State.tickState_exmem : s.tickState.exmem = executeStage s.idex s.exmem s.memwb := rfl
@[simp] theorem State.tickState_memwb : s.tickState.memwb = s.memOut.memwb := rfl
@[simp] theorem State.tickState_cycle : s.tickState.cycle = s.cycle + 1 := rfl
@[simp] theorem State.tickState_haltFlag : s.tickState.haltFlag = s.fetchOut.haltFlag := rfl
@[simp] theorem State.tickState_faultHalt : s.tickState.faultHalt = (s.faultHalt || s.memOut.fault) := rfl
@[simp] theorem State.tickState_trace : s.tickState.trace = s.trace ++ s.tickEvents.map (fun e => ⟨s.tickNo, e.1, e.2⟩) := rfl
@[simp] theorem State.tickState_diags : s.tickState.diags = s.diags ++ s.tickDiags := rfl
@[simp] theorem State.tickState_drv : s.tickState.drv = drvState s.tickState := rfl

/-! ### Construction -/

@[simp] theorem resetWith_cfg (p : Params) : (resetWith p).cfg = p := rfl
@[simp] theorem resetWith_regs (p : Params) : (resetWith p).regs = p.regInit.set 0 0 := rfl
@[simp] theorem resetWith_pc (p : Params) : (resetWith p).pc = 0 := rfl
@[simp] theorem resetWith_dmem (p : Params) : (resetWith p).dmem = p.dmemInit := rfl
@[simp] theorem resetWith_ifid (p : Params) : (resetWith p).ifid = .bubble := rfl
@[simp] theorem resetWith_idex (p : Params) : (resetWith p).idex = none := rfl
@[simp] theorem resetWith_exmem (p : Params) : (resetWith p).exmem = none := rfl
@[simp] theorem resetWith_memwb (p : Params) : (resetWith p).memwb = none := rfl
@[simp] theorem resetWith_cycle (p : Params) : (resetWith p).cycle = 0 := rfl
@[simp] theorem resetWith_haltFlag (p : Params) : (resetWith p).haltFlag = false := rfl
@[simp] theorem resetWith_faultHalt (p : Params) : (resetWith p).faultHalt = false := rfl
@[simp] theorem resetWith_trace (p : Params) : (resetWith p).trace = [] := rfl
@[simp] theorem resetWith_diags (p : Params) : (resetWith p).diags = [] := rfl
@[simp] theorem resetWith_drv (p : Params) : (resetWith p).drv = drvState (resetWith p) := rfl

/-- The host's reset state is construction with the default parameters. -/
theorem reset_eq_resetWith_default : State.reset = resetWith Params.default := by decide

/-! ### The driver -/

theorem driverStep_halted {s : State} (h : s.drv = .halted) : driverStep s = ⟨s, [], []⟩ := by
  simp [driverStep, h]

theorem driverStep_tick {s : State} (h : s.drv ≠ .halted) : driverStep s = tick s := by
  simp [driverStep, h]

/-- `step` answers the next state of the driver's step. -/
theorem step_eq_next : step s = .next (driverStep s).next := rfl

theorem drvState_eq_halted_of_faultHalt {s : State} (h : s.faultHalt = true) :
    drvState s = .halted := by
  simp [drvState, h]

end Sys2Proof.Machine
end

