-- ==== Sys2Proof/Laws/Memory.lean ====
section
/-! SUPPORT. The laws of registers and of data memory: read after write, and the canonical form. -/

namespace Sys2Proof.Machine

/-! ### Registers -/

theorem readReg_writeReg (regs : Regs) (r r' : Reg) (v : Word) :
    readReg (writeReg regs r v) r' = if r' = r ∧ r' ≠ 0#5 then v else readReg regs r' := by
  unfold writeReg readReg
  by_cases h0 : r = 0#5
  · simp only [h0, ↓reduceIte]; split <;> simp_all
  · rw [if_neg h0, Vector.getElem_set]
    by_cases h : r' = r
    · subst h; simp [h0]
    · have : r.toNat ≠ r'.toNat := fun e => h (BitVec.eq_of_toNat_eq e.symm)
      simp [this, h]

/-- Two register files that read alike are equal. -/
theorem regs_ext {a b : Regs} (h : ∀ r, readReg a r = readReg b r) : a = b := by
  apply Vector.ext
  intro i hi
  have := h (BitVec.ofNat 5 i)
  simpa [readReg, BitVec.toNat_ofNat, Nat.mod_eq_of_lt hi] using this

theorem State.reg_setReg (s : State) (rd r : Reg) (v : Word) :
    (s.setReg rd v).reg r = if r = rd ∧ r ≠ 0#5 then v else s.reg r :=
  readReg_writeReg _ _ _ _

/-! ### Bytes -/

theorem readByte_eq_zero_of_lt {m : Memory} {a : Nat} (h : ∀ c ∈ m, a < c.1) :
    readByte m a = 0#8 := by
  induction m with
  | nil => rfl
  | cons c rest ih =>
    obtain ⟨k, b⟩ := c
    have hk : a < k := h (k, b) (by simp)
    simp only [readByte, if_neg (show ¬k = a by omega)]
    exact ih (fun c hc => h c (by simp [hc]))

theorem writeByte_keys {m : Memory} {a : Nat} {v : Byte} {c : Host.Cell}
    (h : c ∈ writeByte m a v) : c ∈ m ∨ c = (a, v) := by
  induction m with
  | nil => simp only [writeByte] at h; split at h <;> simp_all
  | cons d rest ih =>
    obtain ⟨k, b⟩ := d
    simp only [writeByte] at h
    split at h
    · split at h <;> simp_all [or_comm, or_left_comm]
    · split at h
      · split at h <;> simp_all [or_comm, or_left_comm]; tauto
      · rcases List.mem_cons.mp h with h | h
        · exact Or.inl (by simp [h])
        · rcases ih h with h | h
          · exact Or.inl (by simp [h])
          · exact Or.inr h

theorem writeByte_wf {m : Memory} (h : Memory.wf m) (a : Nat) (v : Byte) :
    Memory.wf (writeByte m a v) := by
  induction m with
  | nil => simp only [writeByte]; split <;> simp_all [Memory.wf]
  | cons d rest ih =>
    obtain ⟨k, b⟩ := d
    obtain ⟨hs, hn⟩ := h
    rw [List.pairwise_cons] at hs
    have hrest : Memory.wf rest := ⟨hs.2, fun c hc => hn c (by simp [hc])⟩
    have hb : b ≠ 0#8 := hn (k, b) (by simp)
    simp only [writeByte]
    split
    · rename_i hlt
      split
      · exact ⟨List.pairwise_cons.mpr hs, hn⟩
      · rename_i hv
        refine ⟨List.pairwise_cons.mpr ⟨?_, List.pairwise_cons.mpr hs⟩, ?_⟩
        · intro c hc
          rcases List.mem_cons.mp hc with rfl | hc
          · exact hlt
          · exact lt_trans hlt (hs.1 c hc)
        · intro c hc
          rcases List.mem_cons.mp hc with rfl | hc
          · exact hv
          · exact hn c hc
    · split
      · rename_i heq
        split
        · exact hrest
        · rename_i hv
          refine ⟨List.pairwise_cons.mpr ⟨?_, hs.2⟩, ?_⟩
          · intro c hc; have := hs.1 c hc; simp only at this ⊢; omega
          · intro c hc
            rcases List.mem_cons.mp hc with rfl | hc
            · exact hv
            · exact hrest.2 c hc
      · rename_i h1 h2
        have hw := ih hrest
        refine ⟨List.pairwise_cons.mpr ⟨?_, hw.1⟩, ?_⟩
        · intro c hc
          rcases writeByte_keys hc with hc | rfl
          · exact hs.1 c hc
          · simp only; omega
        · intro c hc
          rcases List.mem_cons.mp hc with rfl | hc
          · exact hb
          · exact hw.2 c hc

/-- Read after write: the written byte there, every other byte as before. -/
theorem readByte_writeByte {m : Memory} (h : Memory.wf m) (a a' : Nat) (v : Byte) :
    readByte (writeByte m a v) a' = if a' = a then v else readByte m a' := by
  induction m with
  | nil =>
    simp only [writeByte]
    by_cases hv : v = 0#8
    · simp [hv, readByte]
    · by_cases e : a' = a
      · simp [hv, readByte, e]
      · simp [hv, readByte, e, Ne.symm e]
  | cons d rest ih =>
    obtain ⟨k, b⟩ := d
    obtain ⟨hs, hn⟩ := h
    rw [List.pairwise_cons] at hs
    have hrest : Memory.wf rest := ⟨hs.2, fun c hc => hn c (by simp [hc])⟩
    simp only [writeByte]
    split
    · rename_i hlt
      have hz : readByte ((k, b) :: rest) a = 0#8 := by
        apply readByte_eq_zero_of_lt
        intro c hc
        rcases List.mem_cons.mp hc with rfl | hc
        · exact hlt
        · exact lt_trans hlt (hs.1 c hc)
      by_cases e : a' = a
      · subst e; split
        · simp_all
        · simp [readByte]
      · split
        · rfl
        · simp [readByte, Ne.symm e]
    · split
      · rename_i heq
        subst heq
        have hz : readByte rest a = 0#8 := readByte_eq_zero_of_lt (fun c hc => hs.1 c hc)
        by_cases e : a' = a
        · subst e; split <;> simp_all [readByte]
        · split <;> simp [readByte, Ne.symm e]
      · rename_i h1 h2
        by_cases e : k = a'
        · subst e; simp [readByte, Ne.symm h2]
        · simp [readByte, e, ih hrest]

/-! ### Words -/

theorem writeWord_wf {m : Memory} (h : Memory.wf m) (W v : Word) : Memory.wf (writeWord m W v) :=
  writeByte_wf (writeByte_wf (writeByte_wf (writeByte_wf h _ _) _ _) _ _) _ _

theorem readByte_writeWord {m : Memory} (h : Memory.wf m) (W v : Word) (a : Nat) :
    readByte (writeWord m W v) a =
      if W.toNat ≤ a ∧ a < W.toNat + 4 then byteOf v (a - W.toNat) else readByte m a := by
  have h1 := writeByte_wf h W.toNat (v.extractLsb' 0 8)
  have h2 := writeByte_wf h1 (W.toNat + 1) (v.extractLsb' 8 8)
  have h3 := writeByte_wf h2 (W.toNat + 2) (v.extractLsb' 16 8)
  unfold writeWord
  rw [readByte_writeByte h3, readByte_writeByte h2, readByte_writeByte h1, readByte_writeByte h]
  by_cases hin : W.toNat ≤ a ∧ a < W.toNat + 4
  · obtain ⟨k, hk⟩ : ∃ k, a = W.toNat + k := ⟨a - W.toNat, by omega⟩
    have hk4 : k < 4 := by omega
    subst hk
    rw [if_pos hin, Nat.add_sub_cancel_left]
    interval_cases k <;> simp [byteOf]
  · rw [if_neg hin, if_neg (by omega), if_neg (by omega), if_neg (by omega), if_neg (by omega)]

theorem toNat_containing (A : Word) : (containing A).toNat = A.toNat / 4 * 4 := by
  simp only [containing, BitVec.toNat_append, BitVec.extractLsb'_toNat, BitVec.toNat_ofNat]
  have := A.isLt
  simp [Nat.shiftLeft_eq, Nat.shiftRight_eq_div_pow]
  omega

theorem offset_eq (A : Word) : offset A = A.toNat % 4 := by
  simp [offset, BitVec.extractLsb'_toNat]

theorem offset_lt (A : Word) : offset A < 4 := by rw [offset_eq]; omega

theorem containing_add_offset (A : Word) : (containing A).toNat + offset A = A.toNat := by
  rw [toNat_containing, offset_eq]; omega

theorem byteOf_readWord (m : Memory) (W : Word) {k : Nat} (h : k < 4) :
    byteOf (readWord m W) k = readByte m (W.toNat + k) := by
  unfold byteOf readWord
  apply BitVec.eq_of_getLsbD_eq
  intro i hi
  simp only [BitVec.getLsbD_extractLsb', BitVec.getLsbD_append, hi, decide_true, Bool.true_and]
  interval_cases k
  · rw [if_pos (by omega)]; congr 1; omega
  · rw [if_neg (by omega), if_pos (by omega)]; congr 1; omega
  · rw [if_neg (by omega), if_neg (by omega), if_pos (by omega)]; congr 1; omega
  · rw [if_neg (by omega), if_neg (by omega), if_neg (by omega)]; congr 1; omega

/-- Two words whose four bytes agree are equal. -/
theorem word_ext_bytes {v w : Word} (h : ∀ k < 4, byteOf v k = byteOf w k) : v = w := by
  apply BitVec.eq_of_getLsbD_eq
  intro i hi
  have := congrArg (fun b : Byte => b.getLsbD (i % 8)) (h (i / 8) (by omega))
  simpa [byteOf, Nat.mod_lt, show 8 * (i / 8) + i % 8 = i by omega] using this

/-- A written word reads back, and another word is untouched. -/
theorem readWord_writeWord {m : Memory} (h : Memory.wf m) (A A' v : Word) :
    readWord (writeWord m (containing A) v) (containing A') =
      if containing A' = containing A then v else readWord m (containing A') := by
  apply word_ext_bytes
  intro k hk
  rw [byteOf_readWord _ _ hk, readByte_writeWord h]
  have e := toNat_containing A
  have e' := toNat_containing A'
  by_cases hAA : containing A' = containing A
  · rw [if_pos hAA, hAA, if_pos (by omega), Nat.add_sub_cancel_left]
  · have hne : (containing A').toNat ≠ (containing A).toNat := fun hh => hAA (BitVec.eq_of_toNat_eq hh)
    rw [if_neg hAA, if_neg (by omega), byteOf_readWord _ _ hk]

/-! ### Accesses -/

theorem memWrite_wf {m : Memory} (h : Memory.wf m) (A : Word) (n : Size) (v : Word) :
    Memory.wf (memWrite m A n v) := by
  unfold memWrite
  split <;> exact writeWord_wf h _ _

/-- The address of the first byte an access touches: a word access ignores the two low address bits
(R55). -/
def accessBase (A : Word) : Size → Nat
  | .word => (containing A).toNat
  | .half => A.toNat
  | .byte => A.toNat

theorem byteOf_getLsbD (v : Word) (k i : Nat) :
    (byteOf v k).getLsbD i = (decide (i < 8) && v.getLsbD (8 * k + i)) := by
  simp [byteOf, BitVec.getLsbD_extractLsb']

theorem spanMask_getLsbD (A : Word) (n : Size) (j : Nat) :
    (spanMask A n).getLsbD j =
      decide (j < 32 ∧ 8 * offset A ≤ j ∧ j < 8 * offset A + 8 * n.bytes) := by
  simp only [spanMask, BitVec.getLsbD_shiftLeft, BitVec.getLsbD_ofNat, Nat.testBit_two_pow_sub_one]
  rw [Bool.eq_iff_iff]
  simp only [Bool.and_eq_true, Bool.not_eq_true', decide_eq_true_eq, decide_eq_false_iff_not]
  omega

/-- The merged word of a sub-word store, byte by byte (R54). -/
theorem byteOf_merge (w v A : Word) (n : Size) {k : Nat} (hk : k < 4) :
    byteOf ((w &&& ~~~spanMask A n) ||| ((v <<< (8 * offset A)) &&& spanMask A n)) k =
      if offset A ≤ k ∧ k < offset A + n.bytes then byteOf v (k - offset A) else byteOf w k := by
  apply BitVec.eq_of_getLsbD_eq
  intro i hi
  simp only [byteOf_getLsbD, BitVec.getLsbD_or, BitVec.getLsbD_and, BitVec.getLsbD_not,
    spanMask_getLsbD, BitVec.getLsbD_shiftLeft]
  by_cases h : offset A ≤ k ∧ k < offset A + n.bytes
  · rw [if_pos h, byteOf_getLsbD]
    have h1 : 8 * k + i < 32 := by omega
    have h2 : 8 * offset A ≤ 8 * k + i := by omega
    have h3 : 8 * k + i < 8 * offset A + 8 * n.bytes := by omega
    have h4 : ¬ 8 * k + i < 8 * offset A := by omega
    simp [h1, h2, h3, h4, hi, show 8 * k + i - 8 * offset A = 8 * (k - offset A) + i by omega]
  · rw [if_neg h, byteOf_getLsbD]
    have h3 : ¬ (8 * offset A ≤ 8 * k + i ∧ 8 * k + i < 8 * offset A + 8 * n.bytes) := by omega
    simp [h3, hi, show 8 * k + i < 32 by omega]

/-- What a store leaves at every byte: the span holds the low bytes of the value, everything else is
as before (R51, R54). The halfword at offset 3 is excluded: it is a fault (R55). -/
theorem readByte_memWrite {m : Memory} (h : Memory.wf m) (A : Word) (n : Size) (v : Word)
    (hn : ¬(n = .half ∧ offset A = 3)) (a : Nat) :
    readByte (memWrite m A n v) a =
      if accessBase A n ≤ a ∧ a < accessBase A n + n.bytes then byteOf v (a - accessBase A n)
      else readByte m a := by
  have hc := containing_add_offset A
  have ho := offset_lt A
  have key : n ≠ .word → accessBase A n = (containing A).toNat + offset A ∧
      offset A + n.bytes ≤ 4 ∧
      memWrite m A n v = writeWord m (containing A) ((readWord m (containing A) &&& ~~~spanMask A n)
        ||| ((v <<< (8 * offset A)) &&& spanMask A n)) := by
    intro hw
    cases n with
    | word => exact absurd rfl hw
    | half =>
      have : offset A ≠ 3 := fun e => hn ⟨rfl, e⟩
      exact ⟨hc.symm, by simp only [Size.bytes]; omega, rfl⟩
    | byte => exact ⟨hc.symm, by simp only [Size.bytes]; omega, rfl⟩
  by_cases hw : n = .word
  · subst hw
    simp only [memWrite, accessBase, Size.bytes]
    exact readByte_writeWord h _ _ _
  · obtain ⟨hb, hle, hm⟩ := key hw
    rw [hm, readByte_writeWord h, hb]
    by_cases hin : (containing A).toNat ≤ a ∧ a < (containing A).toNat + 4
    · rw [if_pos hin, byteOf_merge _ _ _ _ (by omega), byteOf_readWord _ _ (by omega)]
      by_cases hs : offset A ≤ a - (containing A).toNat ∧
          a - (containing A).toNat < offset A + n.bytes
      · rw [if_pos hs, if_pos (by omega)]; congr 1; omega
      · rw [if_neg hs, if_neg (by omega)]; congr 1; omega
    · rw [if_neg hin, if_neg (by omega)]

theorem memRead_word_eq (m : Memory) (A : Word) :
    memRead m A .word = readWord m (containing A) := rfl

/-- A byte load reads the byte at its address (R51, R53). -/
theorem memRead_byte_eq (m : Memory) (A : Word) : memRead m A .byte = readByte m A.toNat := by
  have h := byteOf_readWord m (containing A) (offset_lt A)
  rw [containing_add_offset] at h
  rw [← h]
  change (readWord m (containing A) >>> (8 * offset A)).extractLsb' 0 8 = _
  apply BitVec.eq_of_getLsbD_eq
  intro i hi
  simp [byteOf_getLsbD]

/-- A halfword load reads the two bytes at its address, the lower one first (R51, R53). -/
theorem memRead_half_eq (m : Memory) (A : Word) (h3 : offset A ≠ 3) :
    memRead m A .half = (readByte m (A.toNat + 1) ++ readByte m A.toNat : BitVec 16) := by
  have ho := offset_lt A
  have h0 := byteOf_readWord m (containing A) ho
  have h1 := byteOf_readWord m (containing A) (k := offset A + 1) (by omega)
  rw [← Nat.add_assoc, containing_add_offset] at h1
  rw [containing_add_offset] at h0
  rw [← h0, ← h1]
  change (readWord m (containing A) >>> (8 * offset A)).extractLsb' 0 16 = _
  apply BitVec.eq_of_getLsbD_eq
  intro i hi
  simp only [BitVec.getLsbD_append, BitVec.getLsbD_extractLsb', byteOf_getLsbD,
    BitVec.getLsbD_ushiftRight]
  by_cases h8 : i < 8
  · simp [h8, hi]
  · simp [h8, hi, show i - 8 < 8 by omega,
      show 8 * offset A + i = 8 * (offset A + 1) + (i - 8) by omega]

end Sys2Proof.Machine
end

