-- ==== Sys2Proof/Laws/Stages.lean ====
section
/-! SUPPORT. What each stage can answer, said once; what a forwarded operand is; and what the hazard
unit's silence means. -/

namespace Sys2Proof.Machine

/-! ### Writeback -/

/-- A register after the Writeback of `memwb`. -/
theorem readReg_writebackStage (memwb : Option MemWb) (regs : Regs) (r : Reg) :
    readReg (writebackStage memwb regs) r = (fwdMemWb memwb r).getD (readReg regs r) := by
  cases memwb with
  | none => rfl
  | some m =>
    by_cases hw : m.d.regWrite = true
    · simp only [writebackStage, fwdMemWb, hw, if_true, readReg_writeReg, true_and]
      by_cases h : r = m.d.rd ∧ r ≠ 0#5
      · rw [if_pos h, if_pos ⟨h.2, h.1.symm⟩]; rfl
      · rw [if_neg h, if_neg (fun h' => h ⟨h'.2.symm, h'.1⟩)]; rfl
    · simp [writebackStage, fwdMemWb, hw]

/-! ### Memory -/

/-- An instruction that neither reads nor writes memory passes through. -/
theorem memoryStage_pass {cfg : Params} {k : Nat} {e : ExMem} {m : Memory}
    (h : e.d.memWidth = none) : memoryStage cfg k (some e) m = ⟨some (e.pass 0), m, false, []⟩ := by
  simp [memoryStage, h]

theorem memoryStage_access {cfg : Params} {k : Nat} {e : ExMem} {m : Memory} {n : Size}
    (h : e.d.memWidth = some n) : memoryStage cfg k (some e) m = memoryAccess cfg k e n m := by
  simp [memoryStage, h]

/-- The Memory stage's latch, memory and fault do not depend on the tick number. -/
theorem memoryStage_tick (cfg : Params) (k k' : Nat) (exmem : Option ExMem) (m : Memory) :
    (memoryStage cfg k exmem m).memwb = (memoryStage cfg k' exmem m).memwb ∧
    (memoryStage cfg k exmem m).dmem = (memoryStage cfg k' exmem m).dmem ∧
    (memoryStage cfg k exmem m).fault = (memoryStage cfg k' exmem m).fault := by
  unfold memoryStage memoryAccess
  split
  · exact ⟨rfl, rfl, rfl⟩
  · split
    · split
      · split <;> exact ⟨rfl, rfl, rfl⟩
      · split <;> exact ⟨rfl, rfl, rfl⟩
    · exact ⟨rfl, rfl, rfl⟩

/-- What the Memory stage can answer for the instruction in EX/MEM: a strict-mode fault, or the same
instruction with its ALU result. -/
theorem memoryStage_cases (cfg : Params) (k : Nat) (e : ExMem) (m : Memory) :
    ((memoryStage cfg k (some e) m).fault = true ∧ (memoryStage cfg k (some e) m).memwb = none ∧
      (memoryStage cfg k (some e) m).dmem = m) ∨
    ((memoryStage cfg k (some e) m).fault = false ∧
      ∃ v, (memoryStage cfg k (some e) m).memwb = some (e.pass v)) := by
  unfold memoryStage memoryAccess
  split
  · simp_all
  · rename_i e' he
    cases he
    split
    · split
      · split
        · exact .inr ⟨rfl, _, rfl⟩
        · exact .inl ⟨rfl, rfl, rfl⟩
      · split <;> exact .inr ⟨rfl, _, rfl⟩
    · exact .inr ⟨rfl, _, rfl⟩

theorem memoryStage_none (cfg : Params) (k : Nat) (m : Memory) :
    memoryStage cfg k none m = ⟨none, m, false, []⟩ := rfl

/-- A MEM/WB latch the Memory stage answers holds the instruction that was in EX/MEM. -/
theorem memoryStage_memwb {cfg : Params} {k : Nat} {x : Option ExMem} {m : Memory} {w : MemWb}
    (h : (memoryStage cfg k x m).memwb = some w) : ∃ e v, x = some e ∧ w = e.pass v := by
  cases x with
  | none => simp [memoryStage] at h
  | some e =>
    rcases memoryStage_cases cfg k e m with ⟨-, hn, -⟩ | ⟨-, v, hv⟩
    · rw [hn] at h; cases h
    · rw [hv] at h; cases h; exact ⟨e, v, rfl, rfl⟩

/-! ### Forwarding: EX/MEM's contribution is what its Writeback will write -/

/-- A descriptor the decoder answers: an instruction with a data access loads or writes no register
(R102). -/
def Descriptor.Coherent (d : Descriptor) : Prop :=
  d.memWidth ≠ none → d.memRead = true ∨ d.regWrite = false

theorem describe_coherent (i : Instr) (w : Word) : Descriptor.Coherent (describe i w) := by
  cases i <;> simp [Descriptor.Coherent, describe, Instr.cls, Instr.memWidth, OpClass.regWrite]

theorem FromImage.coherent {cfg : Params} {p : Word} {d : Descriptor} (h : FromImage cfg p d) :
    Descriptor.Coherent d := by
  obtain ⟨w, -, hd⟩ := h
  obtain ⟨i, -, rfl⟩ := decodeDescriptor_eq_ok_iff.mp hd
  exact describe_coherent i w

/-- Unless a load that writes `r` is in EX/MEM, what EX/MEM forwards for `r` is what MEM/WB will forward
for it after the Memory stage, fault or no fault. -/
theorem fwdExMem_eq_fwdMemWb {cfg : Params} {k : Nat} {x : Option ExMem} {m : Memory} {r : Reg}
    (hc : ∀ e, x = some e → Descriptor.Coherent e.d)
    (hl : ∀ e, x = some e → r ≠ 0#5 → e.d.memRead = true → e.d.regWrite = true → e.d.rd ≠ r) :
    fwdExMem x r = fwdMemWb (memoryStage cfg k x m).memwb r := by
  cases x with
  | none => rfl
  | some e =>
    have hl := hl e rfl
    have hskip : r ≠ 0#5 → e.d.memRead = true → ¬(e.d.regWrite = true ∧ e.d.rd = r) :=
      fun h0 hm ⟨hw, hr⟩ => hl h0 hm hw hr
    rcases memoryStage_cases cfg k e m with ⟨hf, hn, -⟩ | ⟨-, v, hv⟩
    · have hwidth : e.d.memWidth ≠ none := fun h => by
        rw [memoryStage_pass h] at hf; cases hf
      rw [hn]
      simp only [fwdExMem, fwdMemWb]
      rw [if_neg]
      rintro ⟨h0, hw, hr, hm⟩
      rcases hc e rfl hwidth with h | h <;> simp_all
    · rw [hv]
      simp only [fwdExMem, fwdMemWb, ExMem.pass, MemWb.result]
      by_cases h0 : r = 0#5
      · simp [h0]
      · by_cases hm : e.d.memRead = true
        · have := hskip h0 hm
          simp [hm, this]
        · simp [hm]

/-- The multiplexer reads the register as it will be once EX/MEM and MEM/WB have been written, when no
load to it is in EX/MEM. `v` may be the value before or after MEM/WB's write. -/
theorem fwd_eq_readReg {cfg : Params} {k : Nat} {x : Option ExMem} {w : Option MemWb} {m : Memory}
    {regs : Regs} {r : Reg} {v : Word} (hc : ∀ e, x = some e → Descriptor.Coherent e.d)
    (hl : ∀ e, x = some e → r ≠ 0#5 → e.d.memRead = true → e.d.regWrite = true → e.d.rd ≠ r)
    (hv : (fwdMemWb w r).getD v = readReg (writebackStage w regs) r) :
    fwd x w r v = readReg (writebackStage (memoryStage cfg k x m).memwb (writebackStage w regs)) r := by
  rw [readReg_writebackStage, ← fwdExMem_eq_fwdMemWb hc hl]
  unfold fwd
  split
  · rename_i h; rw [h]; rfl
  · rename_i h; rw [h]; exact hv

theorem getD_fwdMemWb_readReg (w : Option MemWb) (regs : Regs) (r : Reg) :
    (fwdMemWb w r).getD (readReg regs r) = readReg (writebackStage w regs) r :=
  (readReg_writebackStage w regs r).symm

/-- The captured value may also be the one after the write. -/
theorem getD_fwdMemWb_readReg_after (w : Option MemWb) (regs : Regs) (r : Reg) :
    (fwdMemWb w r).getD (readReg (writebackStage w regs) r) = readReg (writebackStage w regs) r := by
  rw [readReg_writebackStage]
  cases fwdMemWb w r <;> rfl

/-- The Writeback of an instruction that does not write `r` leaves `r`. -/
theorem readReg_writebackStage_of_not_writes {w : Option MemWb} {regs : Regs} {r : Reg}
    (h : ∀ m, w = some m → r ≠ 0#5 → m.d.regWrite = true → m.d.rd ≠ r) :
    readReg (writebackStage w regs) r = readReg regs r := by
  rw [readReg_writebackStage]
  cases w with
  | none => rfl
  | some m =>
    have := h m rfl
    simp only [fwdMemWb]
    rw [if_neg (fun ⟨h0, h1, h2⟩ => this h0 h1 h2)]
    rfl

/-! ### Execute -/

theorem executeStage_some (x : IdEx) (exmem : Option ExMem) (memwb : Option MemWb) :
    ∃ e, executeStage (some x) exmem memwb = some e ∧ e.pc = x.pc ∧ e.d = x.d := ⟨_, rfl, rfl, rfl⟩

theorem executeStage_eq_some {idex : Option IdEx} {exmem : Option ExMem} {memwb : Option MemWb}
    {e : ExMem} (h : executeStage idex exmem memwb = some e) :
    ∃ x, idex = some x ∧ e.pc = x.pc ∧ e.d = x.d := by
  cases idex with
  | none => cases h
  | some x => cases h; exact ⟨x, rfl, rfl, rfl⟩

/-! ### Hazards -/

theorem hazard_eq_false {d : Descriptor} {idex : Option IdEx} {exmem : Option ExMem}
    (h : hazard d idex exmem = false) :
    (∀ x, idex = some x → x.d.memRead = true → readsReg d x.d.rd = false) ∧
    (early d = true → ∀ x, idex = some x → x.d.regWrite = true → readsReg d x.d.rd = false) ∧
    (early d = true → ∀ e, exmem = some e → e.d.memRead = true → readsReg d e.d.rd = false) := by
  simp only [hazard, Bool.or_eq_false_iff] at h
  obtain ⟨⟨h1, h2⟩, h3⟩ := h
  refine ⟨?_, ?_, ?_⟩
  · rintro x rfl hm; simpa [loadUse, hm] using h1
  · rintro he x rfl hw; simpa [hazA, he, hw] using h2
  · rintro he e rfl hm; simpa [hazB, he, hm] using h3

theorem readsReg_eq_true {d : Descriptor} {r : Reg} :
    readsReg d r = true ↔
      r ≠ 0#5 ∧ ((d.usesRs1 = true ∧ d.rs1 = r) ∨ (d.usesRs2 = true ∧ d.rs2 = r)) := by
  simp [readsReg]

/-! ### Decode and Fetch -/

/-- What puts an instruction into ID/EX. -/
theorem decodeStage_idex {k : Nat} {ifid : IfId} {idex : Option IdEx} {exmem : Option ExMem}
    {memwb : Option MemWb} {regs : Regs} {x : IdEx}
    (h : (decodeStage k ifid idex exmem memwb regs).idex = some x) :
    ∃ p w d, ifid = .instr p w ∧ decodeDescriptor w = .ok d ∧ hazard d idex exmem = false ∧
      x = ⟨p, d, readReg regs d.rs1, readReg regs d.rs2⟩ := by
  unfold decodeStage at h
  split at h
  · cases h
  · cases h
  · split at h
    · cases h
    · rename_i p w _ d hd
      unfold issue at h
      split at h
      · cases h
      · rename_i hz
        cases h
        exact ⟨p, w, d, rfl, hd, by simpa using hz, rfl⟩

/-- Decode at an instruction that does not stall. -/
theorem decodeStage_issue {k : Nat} {p w : Word} {d : Descriptor} {idex : Option IdEx}
    {exmem : Option ExMem} {memwb : Option MemWb} {regs : Regs} (hd : decodeDescriptor w = .ok d)
    (hz : hazard d idex exmem = false) :
    let red := redirectOf d p (fwd exmem memwb d.rs1 (readReg regs d.rs1))
      (fwd exmem memwb d.rs2 (readReg regs d.rs2))
    decodeStage k (.instr p w) idex exmem memwb regs =
      ⟨some ⟨p, d, readReg regs d.rs1, readReg regs d.rs2⟩, false, red, [(p, .ID)],
        issueDiags k p red⟩ := by
  simp [decodeStage, hd, issue, hz]

/-- Decode at an instruction that stalls. -/
theorem decodeStage_stall {k : Nat} {p w : Word} {d : Descriptor} {idex : Option IdEx}
    {exmem : Option ExMem} {memwb : Option MemWb} {regs : Regs} (hd : decodeDescriptor w = .ok d)
    (hz : hazard d idex exmem = true) :
    decodeStage k (.instr p w) idex exmem memwb regs = ⟨none, true, none, [(p, .STALL)], []⟩ := by
  simp [decodeStage, hd, issue, hz]

/-- Decode at an unrecognized word. -/
theorem decodeStage_reject {k : Nat} {p w : Word} {e : DecodeReject} {idex : Option IdEx}
    {exmem : Option ExMem} {memwb : Option MemWb} {regs : Regs} (hd : decode w = .error e) :
    decodeStage k (.instr p w) idex exmem memwb regs =
      ⟨none, false, none, [(p, .ID)], [⟨.decodeFault, k, p, w⟩]⟩ := by
  simp [decodeStage, decodeDescriptor, hd]

/-- What Decode can answer, whole. -/
theorem decodeStage_cases (k : Nat) (ifid : IfId) (idex : Option IdEx) (exmem : Option ExMem)
    (memwb : Option MemWb) (regs : Regs) :
    (ifid = .bubble ∧ decodeStage k ifid idex exmem memwb regs = ⟨none, false, none, [], []⟩) ∨
    (∃ p, ifid = .squashed p ∧
      decodeStage k ifid idex exmem memwb regs = ⟨none, false, none, [(p, .SQUASH)], []⟩) ∨
    (∃ p w e, ifid = .instr p w ∧ decode w = .error e ∧
      decodeStage k ifid idex exmem memwb regs =
        ⟨none, false, none, [(p, .ID)], [⟨.decodeFault, k, p, w⟩]⟩) ∨
    (∃ p w i, ifid = .instr p w ∧ decode w = .ok i ∧ hazard (describe i w) idex exmem = true ∧
      decodeStage k ifid idex exmem memwb regs = ⟨none, true, none, [(p, .STALL)], []⟩) ∨
    (∃ p w i, ifid = .instr p w ∧ decode w = .ok i ∧ hazard (describe i w) idex exmem = false ∧
      decodeStage k ifid idex exmem memwb regs = issue k p (describe i w) idex exmem memwb regs) := by
  cases ifid with
  | bubble => exact .inl ⟨rfl, rfl⟩
  | squashed p => exact .inr (.inl ⟨p, rfl, rfl⟩)
  | instr p w =>
    cases hd : decode w with
    | error e => exact .inr (.inr (.inl ⟨p, w, e, rfl, hd, decodeStage_reject hd⟩))
    | ok i =>
      have hd' := decodeDescriptor_ok hd
      cases hz : hazard (describe i w) idex exmem with
      | true => exact .inr (.inr (.inr (.inl ⟨p, w, i, rfl, hd, hz, decodeStage_stall hd' hz⟩)))
      | false =>
        refine .inr (.inr (.inr (.inr ⟨p, w, i, rfl, hd, hz, ?_⟩)))
        simp [decodeStage, hd']

/-- What Fetch can answer, whole. -/
theorem fetchStage_cases (cfg : Params) (hf : Bool) (pc : Word) (ifid : IfId) (stall : Bool)
    (redirect : Option Word) :
    (stall = true ∧ fetchStage cfg hf pc ifid stall redirect = ⟨ifid, pc, hf, []⟩) ∨
    (stall = false ∧ ∃ target, redirect = some target ∧
      fetchStage cfg hf pc ifid stall redirect =
        (if (canFetch cfg hf pc).isSome then
          ⟨.squashed pc, target, hf || cfg.haltTarget == some target, [(pc, .IF)]⟩
        else ⟨.bubble, target, hf || cfg.haltTarget == some target, []⟩)) ∨
    (stall = false ∧ redirect = none ∧ ∃ w, canFetch cfg hf pc = some w ∧
      fetchStage cfg hf pc ifid stall redirect = ⟨.instr pc w, pc + 4, hf, [(pc, .IF)]⟩) ∨
    (stall = false ∧ redirect = none ∧ canFetch cfg hf pc = none ∧
      fetchStage cfg hf pc ifid stall redirect = ⟨.bubble, pc, hf, []⟩) := by
  cases stall with
  | true => exact .inl ⟨rfl, rfl⟩
  | false =>
    cases redirect with
    | some target =>
      refine .inr (.inl ⟨rfl, target, rfl, ?_⟩)
      cases h : canFetch cfg hf pc <;> simp [fetchStage, h]
    | none =>
      cases h : canFetch cfg hf pc with
      | some w => exact .inr (.inr (.inl ⟨rfl, rfl, w, rfl, by simp [fetchStage, h]⟩))
      | none => exact .inr (.inr (.inr ⟨rfl, rfl, rfl, by simp [fetchStage, h]⟩))

theorem canFetch_eq_some {cfg : Params} {hf : Bool} {pc w : Word} :
    canFetch cfg hf pc = some w ↔ hf = false ∧ fetch cfg pc = some w := by
  cases hf <;> simp [canFetch]

theorem canFetch_eq_none {cfg : Params} {hf : Bool} {pc : Word} :
    canFetch cfg hf pc = none ↔ hf = true ∨ fetch cfg pc = none := by
  cases hf <;> simp [canFetch]

/-- What puts a fetched word into IF/ID: a stall that keeps it, or a fetch. -/
theorem fetchStage_instr {cfg : Params} {hf : Bool} {pc : Word} {ifid : IfId} {stall : Bool}
    {redirect : Option Word} {p w : Word}
    (h : (fetchStage cfg hf pc ifid stall redirect).ifid = .instr p w) :
    (stall = true ∧ ifid = .instr p w) ∨
    (stall = false ∧ redirect = none ∧ p = pc ∧ hf = false ∧ fetch cfg pc = some w) := by
  rcases fetchStage_cases cfg hf pc ifid stall redirect with
    ⟨hs, e⟩ | ⟨hs, t, hr, e⟩ | ⟨hs, hr, w', hc, e⟩ | ⟨hs, hr, hc, e⟩ <;> rw [e] at h
  · exact .inl ⟨hs, h⟩
  · split at h <;> cases h
  · cases h; exact .inr ⟨hs, hr, rfl, canFetch_eq_some.mp hc⟩
  · cases h

end Sys2Proof.Machine
end

