-- ==== Sys2Proof/Laws/Drain.lean ====
section
/-! SUPPORT. The architectural view `drain` said once: when nothing faults it is three Writebacks and two
Memory stages, and the view after a tick is the view before it with one more instruction. -/

namespace Sys2Proof.Machine

/-! ### `retire` -/

theorem State.retire_of_faultHalt {s : State} (h : s.faultHalt = true) (x : Option ExMem) :
    s.retire x = s := by simp [State.retire, h]

theorem State.retire_of_not_faultHalt {s : State} (h : s.faultHalt = false) (x : Option ExMem) :
    s.retire x = { s with
      regs := writebackStage (memoryStage s.cfg s.tickNo x s.dmem).memwb s.regs
      dmem := (memoryStage s.cfg s.tickNo x s.dmem).dmem
      faultHalt := (memoryStage s.cfg s.tickNo x s.dmem).fault } := by simp [State.retire, h]

@[simp] theorem State.retire_cfg (s : State) (x : Option ExMem) : (s.retire x).cfg = s.cfg := by
  unfold State.retire; split <;> rfl
@[simp] theorem State.retire_haltFlag (s : State) (x : Option ExMem) :
    (s.retire x).haltFlag = s.haltFlag := by unfold State.retire; split <;> rfl
@[simp] theorem State.retire_cycle (s : State) (x : Option ExMem) :
    (s.retire x).cycle = s.cycle := by unfold State.retire; split <;> rfl

theorem State.retire_none (s : State) : s.retire none = s := by
  unfold State.retire
  split
  · rfl
  · rename_i h
    have h' : s.faultHalt = false := by simpa using h
    have : (memoryStage s.cfg s.tickNo none s.dmem).fault = s.faultHalt := by rw [h']; rfl
    simp only [memoryStage_none, writebackStage, ← h']

/-- Only the five architectural fields a retirement reads matter to it, not the tick number. -/
theorem State.retire_congr {s t : State} (hc : s.cfg = t.cfg) (hr : s.regs = t.regs)
    (hd : s.dmem = t.dmem) (hf : s.faultHalt = t.faultHalt) (x : Option ExMem) :
    (s.retire x).regs = (t.retire x).regs ∧ (s.retire x).dmem = (t.retire x).dmem ∧
    (s.retire x).faultHalt = (t.retire x).faultHalt := by
  unfold State.retire
  rw [hf]
  split
  · exact ⟨hr, hd, hf⟩
  · obtain ⟨h1, h2, h3⟩ := memoryStage_tick t.cfg s.tickNo t.tickNo x t.dmem
    simp only [hc, hr, hd, h1, h2, h3, and_self]

/-! ### `drain` -/

@[simp] theorem drain_cfg (s : State) : (drain s).cfg = s.cfg := by simp [drain]
@[simp] theorem drain_pc (s : State) : (drain s).pc = s.issuePc := rfl
@[simp] theorem drain_haltFlag (s : State) : (drain s).haltFlag = s.haltFlag := by simp [drain]
@[simp] theorem drain_ifid (s : State) : (drain s).ifid = .bubble := rfl
@[simp] theorem drain_idex (s : State) : (drain s).idex = none := rfl
@[simp] theorem drain_exmem (s : State) : (drain s).exmem = none := rfl
@[simp] theorem drain_memwb (s : State) : (drain s).memwb = none := rfl
@[simp] theorem drain_cycle (s : State) : (drain s).cycle = s.cycle := by simp [drain]

/-- The state with MEM/WB and EX/MEM completed. -/
def State.older (s : State) : State :=
  State.retire { s with regs := s.regsAfterWriteback } s.exmem

/-- With MEM/WB empty there is nothing to write back. -/
theorem State.older_of_memwb_none {s : State} (h : s.memwb = none) : s.older = s.retire s.exmem := by
  cases s
  simp only at h
  subst h
  rfl

theorem drain_regs (s : State) :
    (drain s).regs = (s.older.retire (executeStage s.idex s.exmem s.memwb)).regs := rfl
theorem drain_dmem (s : State) :
    (drain s).dmem = (s.older.retire (executeStage s.idex s.exmem s.memwb)).dmem := rfl
theorem drain_faultHalt (s : State) :
    (drain s).faultHalt = (s.older.retire (executeStage s.idex s.exmem s.memwb)).faultHalt := rfl

theorem State.older_of_not_faultHalt {s : State} (h : s.faultHalt = false) :
    s.older.regs = writebackStage s.memOut.memwb s.regsAfterWriteback ∧
    s.older.dmem = s.memOut.dmem ∧ s.older.faultHalt = s.memOut.fault := by
  unfold State.older
  rw [State.retire_of_not_faultHalt (by exact h)]
  exact ⟨rfl, rfl, rfl⟩

/-- A strict-mode fault that is already pending is seen in the view. -/
theorem drain_faultHalt_of_faultHalt {s : State} (h : s.faultHalt = true) :
    (drain s).faultHalt = true := by
  have : s.older.faultHalt = true := by
    unfold State.older; rw [State.retire_of_faultHalt (by exact h)]; exact h
  rw [drain_faultHalt, State.retire_of_faultHalt this, this]

/-- What a view without a fault says of the state. -/
theorem drain_not_faultHalt {s : State} (h : (drain s).faultHalt = false) :
    s.faultHalt = false ∧ s.memOut.fault = false ∧
    (memoryStage s.cfg s.tickNo (executeStage s.idex s.exmem s.memwb) s.memOut.dmem).fault
      = false := by
  have h1 : s.faultHalt = false := by
    by_contra hc
    rw [drain_faultHalt_of_faultHalt (by simpa using hc)] at h
    cases h
  obtain ⟨hr, hd, hf⟩ := State.older_of_not_faultHalt h1
  rw [drain_faultHalt] at h
  have h2 : s.older.faultHalt = false := by
    by_contra hc
    have hc' : s.older.faultHalt = true := by simpa using hc
    rw [State.retire_of_faultHalt hc', hc'] at h
    cases h
  rw [State.retire_of_not_faultHalt h2] at h
  refine ⟨h1, by rw [← hf]; exact h2, ?_⟩
  have hco : s.older.cfg = s.cfg := by simp [State.older]
  have hto : s.older.tickNo = s.tickNo := by simp [State.older, State.tickNo]
  rw [hco, hto, hd] at h
  exact h

/-- The view without a fault, field by field. -/
theorem drain_of_not_faultHalt {s : State} (h : (drain s).faultHalt = false) :
    let m := memoryStage s.cfg s.tickNo (executeStage s.idex s.exmem s.memwb) s.memOut.dmem
    (drain s).regs = writebackStage m.memwb (writebackStage s.memOut.memwb s.regsAfterWriteback) ∧
    (drain s).dmem = m.dmem := by
  obtain ⟨h1, h2, -⟩ := drain_not_faultHalt h
  obtain ⟨hr, hd, hf⟩ := State.older_of_not_faultHalt h1
  have hco : s.older.cfg = s.cfg := by simp [State.older]
  have hto : s.older.tickNo = s.tickNo := by simp [State.older, State.tickNo]
  rw [drain_regs, drain_dmem, State.retire_of_not_faultHalt (by rw [hf, h2])]
  simp only [hco, hto, hr, hd, and_self]

/-- After a tick, the instructions that were in EX/MEM and ID/EX are the two older ones. -/
theorem older_tickState {s : State} (hf : s.faultHalt = false) :
    s.tickState.older.regs =
        (s.older.retire (executeStage s.idex s.exmem s.memwb)).regs ∧
    s.tickState.older.dmem =
        (s.older.retire (executeStage s.idex s.exmem s.memwb)).dmem ∧
    s.tickState.older.faultHalt =
        (s.older.retire (executeStage s.idex s.exmem s.memwb)).faultHalt := by
  obtain ⟨hr, hd, hf'⟩ := State.older_of_not_faultHalt hf
  rw [show s.tickState.older = State.retire { s.tickState with
    regs := s.tickState.regsAfterWriteback } (executeStage s.idex s.exmem s.memwb) from rfl]
  apply State.retire_congr
  · simp [State.older]
  · rw [hr]; rfl
  · rw [hd]; rfl
  · rw [hf']; simp [hf]

/-- The view after a tick: the view before it, then the instruction Decode has put into ID/EX. -/
theorem drain_tickState {s : State} (hf : s.faultHalt = false) (u : State)
    (hc : u.cfg = s.cfg) (hr : u.regs = (drain s).regs) (hd : u.dmem = (drain s).dmem)
    (hu : u.faultHalt = (drain s).faultHalt) :
    let e := executeStage s.decodeOut.idex (executeStage s.idex s.exmem s.memwb) s.memOut.memwb
    (drain s.tickState).regs = (u.retire e).regs ∧ (drain s.tickState).dmem = (u.retire e).dmem ∧
    (drain s.tickState).faultHalt = (u.retire e).faultHalt := by
  obtain ⟨h1, h2, h3⟩ := older_tickState hf
  intro e
  apply State.retire_congr (s := s.tickState.older) (t := u) (x := e)
  · simp [State.older, hc]
  · rw [h1, hr, drain_regs]
  · rw [h2, hd, drain_dmem]
  · rw [h3, hu, drain_faultHalt]

end Sys2Proof.Machine
end

