-- ==== Sys2Proof/Laws/Encode.lean ====
section
/-! SUPPORT. The fields of an encoded word, format by format (R72), and what the masks of R75 test. -/

namespace Sys2Proof

/-! ### The formats -/

section
variable (op f7 : BitVec 7) (f3 : BitVec 3) (rd rs1 rs2 : Reg)

theorem encR_fields : opcodeOf (encR f7 f3 rd rs1 rs2) = 0x33#7 ∧
    funct3Of (encR f7 f3 rd rs1 rs2) = f3 ∧ funct7Of (encR f7 f3 rd rs1 rs2) = f7 ∧
    rd = rdOf (encR f7 f3 rd rs1 rs2) ∧ rs1 = rs1Of (encR f7 f3 rd rs1 rs2) ∧
    rs2 = rs2Of (encR f7 f3 rd rs1 rs2) := by
  refine ⟨?_, ?_, ?_, ?_, ?_, ?_⟩
  all_goals
    apply BitVec.eq_of_getLsbD_eq
    intro i hi
    simp only [opcodeOf, funct3Of, funct7Of, rdOf, rs1Of, rs2Of, encR, BitVec.getLsbD_extractLsb',
      BitVec.getLsbD_append, hi, decide_true, Bool.true_and]
    repeat first
      | rw [if_pos (by omega)]
      | rw [if_neg (by omega)]
    congr 1
    omega

theorem encI_fields (imm : BitVec 12) : opcodeOf (encI op f3 rd rs1 imm) = op ∧
    funct3Of (encI op f3 rd rs1 imm) = f3 ∧ rd = rdOf (encI op f3 rd rs1 imm) ∧
    rs1 = rs1Of (encI op f3 rd rs1 imm) ∧ imm = fieldI (encI op f3 rd rs1 imm) := by
  refine ⟨?_, ?_, ?_, ?_, ?_⟩
  all_goals
    apply BitVec.eq_of_getLsbD_eq
    intro i hi
    simp only [opcodeOf, funct3Of, rdOf, rs1Of, fieldI, encI, BitVec.getLsbD_extractLsb',
      BitVec.getLsbD_append, hi, decide_true, Bool.true_and]
    repeat first
      | rw [if_pos (by omega)]
      | rw [if_neg (by omega)]
    congr 1
    omega

theorem encShift_fields (shamt : BitVec 5) : opcodeOf (encShift f7 f3 rd rs1 shamt) = 0x13#7 ∧
    funct3Of (encShift f7 f3 rd rs1 shamt) = f3 ∧ funct7Of (encShift f7 f3 rd rs1 shamt) = f7 ∧
    rd = rdOf (encShift f7 f3 rd rs1 shamt) ∧ rs1 = rs1Of (encShift f7 f3 rd rs1 shamt) ∧
    shamt = rs2Of (encShift f7 f3 rd rs1 shamt) := by
  refine ⟨?_, ?_, ?_, ?_, ?_, ?_⟩
  all_goals
    apply BitVec.eq_of_getLsbD_eq
    intro i hi
    simp only [opcodeOf, funct3Of, funct7Of, rdOf, rs1Of, rs2Of, encShift,
      BitVec.getLsbD_extractLsb', BitVec.getLsbD_append, hi, decide_true, Bool.true_and]
    repeat first
      | rw [if_pos (by omega)]
      | rw [if_neg (by omega)]
    congr 1
    omega

theorem encS_fields (imm : BitVec 12) : opcodeOf (encS f3 rs1 rs2 imm) = 0x23#7 ∧
    funct3Of (encS f3 rs1 rs2 imm) = f3 ∧ rs2 = rs2Of (encS f3 rs1 rs2 imm) ∧
    rs1 = rs1Of (encS f3 rs1 rs2 imm) ∧ imm = fieldS (encS f3 rs1 rs2 imm) := by
  refine ⟨?_, ?_, ?_, ?_, ?_⟩
  all_goals
    apply BitVec.eq_of_getLsbD_eq
    intro i hi
    interval_cases i <;>
      simp only [opcodeOf, funct3Of, rs1Of, rs2Of, fieldS, encS, BitVec.getLsbD_extractLsb',
        BitVec.getLsbD_append] <;> simp

theorem encB_fields (o : BitVec 13) (ho : evenOffset o = true) :
    opcodeOf (encB f3 rs1 rs2 o) = 0x63#7 ∧ funct3Of (encB f3 rs1 rs2 o) = f3 ∧
    rs1 = rs1Of (encB f3 rs1 rs2 o) ∧ rs2 = rs2Of (encB f3 rs1 rs2 o) ∧
    o = fieldB (encB f3 rs1 rs2 o) := by
  simp only [evenOffset, Bool.not_eq_true'] at ho
  refine ⟨?_, ?_, ?_, ?_, ?_⟩
  all_goals
    apply BitVec.eq_of_getLsbD_eq
    intro i hi
    interval_cases i <;>
      simp only [opcodeOf, funct3Of, rs1Of, rs2Of, fieldB, encB, BitVec.getLsbD_extractLsb',
        BitVec.getLsbD_append, ho] <;> simp

theorem encU_fields (v : BitVec 20) : opcodeOf (encU op rd v) = op ∧
    rd = rdOf (encU op rd v) ∧ v = fieldU (encU op rd v) := by
  refine ⟨?_, ?_, ?_⟩
  all_goals
    apply BitVec.eq_of_getLsbD_eq
    intro i hi
    simp only [opcodeOf, rdOf, fieldU, encU, BitVec.getLsbD_extractLsb', BitVec.getLsbD_append, hi,
      decide_true, Bool.true_and]
    repeat first
      | rw [if_pos (by omega)]
      | rw [if_neg (by omega)]
    congr 1
    omega

theorem encJ_fields (o : BitVec 21) (ho : evenOffset o = true) :
    opcodeOf (encJ rd o) = 0x6F#7 ∧ rd = rdOf (encJ rd o) ∧ o = fieldJ (encJ rd o) := by
  simp only [evenOffset, Bool.not_eq_true'] at ho
  refine ⟨?_, ?_, ?_⟩
  all_goals
    apply BitVec.eq_of_getLsbD_eq
    intro i hi
    interval_cases i <;>
      simp only [opcodeOf, rdOf, fieldJ, encJ, BitVec.getLsbD_extractLsb', BitVec.getLsbD_append,
        ho] <;> simp

end

/-! ### Masks (R74, R75) -/

/-- A word with the low 7 bits `op` and nothing else. -/
theorem and_mask_opcode (w : Word) (op : BitVec 7) :
    w &&& 0x0000007F#32 = op.setWidth 32 ↔ opcodeOf w = op := by
  constructor
  · intro h
    apply BitVec.eq_of_getLsbD_eq
    intro i hi
    have hb := congrArg (fun v : Word => v.getLsbD i) h
    interval_cases i <;> simpa [opcodeOf] using hb
  · rintro rfl
    apply BitVec.eq_of_getLsbD_eq
    intro i hi
    interval_cases i <;> simp [opcodeOf]

/-- The mask of the rows with a `funct3`. -/
theorem and_mask_funct3 (w : Word) (op : BitVec 7) (f3 : BitVec 3) :
    w &&& 0x0000707F#32 = (0#17 ++ f3 ++ 0#5 ++ op : BitVec 32) ↔
      opcodeOf w = op ∧ funct3Of w = f3 := by
  constructor
  · intro h
    constructor
    all_goals
      apply BitVec.eq_of_getLsbD_eq
      intro i hi
    · have hb := congrArg (fun v : Word => v.getLsbD i) h
      simp only [BitVec.getLsbD_append] at hb
      interval_cases i <;> simpa [opcodeOf] using hb
    · have hb := congrArg (fun v : Word => v.getLsbD (12 + i)) h
      simp only [BitVec.getLsbD_append] at hb
      interval_cases i <;> simpa [funct3Of] using hb
  · rintro ⟨rfl, rfl⟩
    apply BitVec.eq_of_getLsbD_eq
    intro i hi
    simp only [BitVec.getLsbD_append]
    interval_cases i <;> simp [opcodeOf, funct3Of]

/-- The mask of the rows with a `funct3` and a `funct7`. -/
theorem and_mask_funct7 (w : Word) (op : BitVec 7) (f3 : BitVec 3) (f7 : BitVec 7) :
    w &&& 0xFE00707F#32 = (f7 ++ 0#10 ++ f3 ++ 0#5 ++ op : BitVec 32) ↔
      opcodeOf w = op ∧ funct3Of w = f3 ∧ funct7Of w = f7 := by
  constructor
  · intro h
    refine ⟨?_, ?_, ?_⟩
    all_goals
      apply BitVec.eq_of_getLsbD_eq
      intro i hi
    · have hb := congrArg (fun v : Word => v.getLsbD i) h
      simp only [BitVec.getLsbD_append] at hb
      interval_cases i <;> simpa [opcodeOf] using hb
    · have hb := congrArg (fun v : Word => v.getLsbD (12 + i)) h
      simp only [BitVec.getLsbD_append] at hb
      interval_cases i <;> simpa [funct3Of] using hb
    · have hb := congrArg (fun v : Word => v.getLsbD (25 + i)) h
      simp only [BitVec.getLsbD_append] at hb
      interval_cases i <;> simpa [funct7Of] using hb
  · rintro ⟨rfl, rfl, rfl⟩
    apply BitVec.eq_of_getLsbD_eq
    intro i hi
    simp only [BitVec.getLsbD_append]
    interval_cases i <;> simp [opcodeOf, funct3Of, funct7Of]

end Sys2Proof
end

