-- ==== Sys2Proof/Laws/Exec.lean ====
section
/-! SUPPORT. Everything the shared operations of an instruction's effect can do, said once each, and
which of them each instruction is. -/

namespace Sys2Proof.Machine

/-! ### Values -/

theorem shamtOf_eq (b : Word) : shamtOf b = b.toNat % 32 := by
  simp [shamtOf, BitVec.extractLsb'_toNat]

theorem sext_eq {n : Nat} (v : BitVec n) (h : n ≤ 32) : sext v = BitVec.ofInt 32 v.toInt := by
  apply BitVec.eq_of_toInt_eq
  rw [show v.toInt = (sext v).toInt from (BitVec.toInt_signExtend_of_le h).symm, BitVec.ofInt_toInt]

theorem upper_eq (v : BitVec 20) : upper v = BitVec.ofNat 32 (4096 * v.toNat) := by
  apply BitVec.eq_of_toNat_eq
  simp only [upper, BitVec.toNat_append, BitVec.toNat_ofNat, Nat.shiftLeft_eq]
  simp
  omega

theorem word_eq_ofNat {x : Word} {n : Nat} (h : x.toNat = n % 2 ^ 32) : x = BitVec.ofNat 32 n := by
  apply BitVec.eq_of_toNat_eq
  simpa using h

theorem word_eq_ofInt {x : Word} {n : Int} (h : x.toInt = n) : x = BitVec.ofInt 32 n := by
  subst h; simp

/-! ### The operations -/

/-- `complete` writes one register and moves on. -/
theorem computes_of_complete {i : Instr} {s : State} {rd : Reg} {v : Word}
    (h : exec i s = .next (s.complete rd v)) : Computes i s rd v :=
  ⟨_, h, fun r => State.reg_setReg s rd r v, rfl, fun _ => rfl, ⟨rfl, rfl⟩, rfl,
    ⟨rfl, rfl, rfl, rfl, rfl, rfl, rfl, rfl⟩⟩

/-- `redirect` goes to its target. -/
theorem redirectsTo_redirect (s : State) (target : Word) :
    RedirectsTo target s (s.redirect target) := by
  refine ⟨rfl, by simp, ?_, rfl, fun _ => rfl, ⟨rfl, rfl, rfl, rfl, rfl, rfl, rfl, rfl⟩⟩
  simp only [State.redirect_diags, redirectDiags, ne_eq]
  congr 1
  split <;> simp_all

/-- `branch` redirects or moves on. -/
theorem branchesOn_of_branch {i : Instr} {s : State} {c : Bool} {p : Prop} {o : Word}
    (h : exec i s = .next (s.branch c o)) (hc : c = true ↔ p) : BranchesOn i s p o := by
  cases c with
  | true => exact ⟨fun _ => ⟨_, h, fun _ => rfl, redirectsTo_redirect s _⟩,
      fun h' => absurd (hc.mp rfl) h'⟩
  | false => exact ⟨fun h' => (by simp at hc; exact absurd h' hc), fun _ => ⟨_, h, fun _ => rfl, rfl,
      fun _ => rfl, ⟨rfl, rfl⟩, rfl, ⟨rfl, rfl, rfl, rfl, rfl, rfl, rfl, rfl⟩⟩⟩

/-- A jump links and redirects. -/
theorem jumpsTo_of_redirect {i : Instr} {s : State} {rd : Reg} {target : Word}
    (h : exec i s = .next ((s.setReg rd (s.pc + 4)).redirect target)) : JumpsTo i s rd target := by
  obtain ⟨h1, h2, h3, h4, h5, -⟩ := redirectsTo_redirect (s.setReg rd (s.pc + 4)) target
  exact ⟨_, h, fun r => State.reg_setReg s rd r _, h1, h2, h3, h4, h5,
    ⟨rfl, rfl, rfl, rfl, rfl, rfl, rfl, rfl⟩⟩

/-- An access inside the memory does not fault, but for the halfword at offset 3. -/
theorem accessFault_eq_none {cfg : Params} {A : Word} {n : Size}
    (h : A.toNat / 4 * 4 < cfg.dmemBytes) (h3 : n = .half → A.toNat % 4 ≠ 3) :
    accessFault cfg A n = none := by
  unfold accessFault
  rw [toNat_containing, if_neg (by omega), if_neg (by rw [offset_eq]; tauto)]

/-- `load` without a fault writes the loaded value. -/
theorem State.load_of_noFault {s : State} {rd : Reg} {A : Word} {n : Size} {signed : Bool}
    (h : accessFault s.cfg A n = none) :
    s.load rd A n signed = s.complete rd (loadValue s.dmem A n signed) := by
  rw [State.load, h]

theorem State.load_of_fault {s : State} {rd : Reg} {A : Word} {n : Size} {signed : Bool}
    {f : AccessFault} (h : accessFault s.cfg A n = some f) :
    s.load rd A n signed = s.takeFault f A (fun s => s.complete rd 0) := by
  rw [State.load, h]

/-- `store` without a fault writes memory and moves on. -/
theorem State.store_of_noFault {s : State} {A v : Word} {n : Size}
    (h : accessFault s.cfg A n = none) :
    s.store A n v = State.advance { s with dmem := memWrite s.dmem A n v } := by
  rw [State.store, h]

theorem State.store_of_fault {s : State} {A v : Word} {n : Size} {f : AccessFault}
    (h : accessFault s.cfg A n = some f) : s.store A n v = s.takeFault f A State.advance := by
  rw [State.store, h]

/-- A store that does not fault, byte by byte. -/
theorem storesAt_of_store {i : Instr} {s : State} {A v : Word} {n : Size}
    (h : exec i s = .next (s.store A n v)) (hf : accessFault s.cfg A n = none)
    (hwf : Memory.wf s.dmem) (h3 : ¬(n = .half ∧ offset A = 3)) :
    StoresAt i s (accessBase A n) n.bytes v := by
  rw [State.store_of_noFault hf] at h
  refine ⟨_, h, fun a => ?_, fun _ => rfl, rfl, ⟨rfl, rfl⟩, rfl,
    ⟨rfl, rfl, rfl, rfl, rfl, rfl, rfl, rfl⟩⟩
  rw [State.advance_dmem]
  exact readByte_memWrite hwf A n v h3 a

/-- Taking a memory fault in strict mode. -/
theorem State.takeFault_strict {s : State} {f : AccessFault} {A : Word} {go : State → State}
    (hp : s.cfg.permissive = false) :
    s.takeFault f A go = State.settle { s.raise f.kind A with faultHalt := true } := by
  simp [State.takeFault, hp]

/-- Taking a memory fault in permissive mode. -/
theorem State.takeFault_permissive {s : State} {f : AccessFault} {A : Word} {go : State → State}
    (hp : s.cfg.permissive = true) : s.takeFault f A go = go (s.raise f.kind A) := by
  simp [State.takeFault, hp]

/-- What a load leaves of `haltFlag` and the parameters, and where it goes unless it faults strictly. -/
theorem State.load_control (s : State) (rd : Reg) (A : Word) (n : Size) (signed : Bool) :
    (s.load rd A n signed).haltFlag = s.haltFlag ∧ (s.load rd A n signed).cfg = s.cfg ∧
    ((s.load rd A n signed).faultHalt = false → (s.load rd A n signed).pc = s.pc + 4) := by
  simp only [State.load, State.takeFault]
  cases accessFault s.cfg A n with
  | none => simp
  | some f => cases hp : s.cfg.permissive <;> simp [hp]

theorem State.store_control (s : State) (A : Word) (n : Size) (v : Word) :
    (s.store A n v).haltFlag = s.haltFlag ∧ (s.store A n v).cfg = s.cfg ∧
    ((s.store A n v).faultHalt = false → (s.store A n v).pc = s.pc + 4) := by
  simp only [State.store, State.takeFault]
  cases accessFault s.cfg A n with
  | none => simp
  | some f => cases hp : s.cfg.permissive <;> simp [hp]

/-! ### The five shapes of an effect -/

/-- Every instruction is one of the five operations. -/
theorem exec_cases (i : Instr) (s : State) :
    (∃ rd v, exec i s = .next (s.complete rd v)) ∨
    (∃ c o, exec i s = .next (s.branch c o)) ∨
    (∃ rd v target, exec i s = .next ((s.setReg rd v).redirect target)) ∨
    (∃ rd A n signed, exec i s = .next (s.load rd A n signed)) ∨
    (∃ A n v, exec i s = .next (s.store A n v)) := by
  cases i
  case beq | bne | blt | bge | bltu | bgeu => exact .inr (.inl ⟨_, _, rfl⟩)
  case jal | jalr => exact .inr (.inr (.inl ⟨_, _, _, rfl⟩))
  case lb | lh | lw | lbu | lhu => exact .inr (.inr (.inr (.inl ⟨_, _, _, _, rfl⟩)))
  case sb | sh | sw => exact .inr (.inr (.inr (.inr ⟨_, _, _, rfl⟩)))
  all_goals exact .inl ⟨_, _, rfl⟩

/-- An effect reads of the state only what `ArchEq` compares, as long as no strict fault is pending. -/
theorem exec_congr {u v : State} (h : ArchEq u v) (hf : u.faultHalt = false) (i : Instr) :
    ∃ u' v', exec i u = .next u' ∧ exec i v = .next v' ∧ ArchEq u' v' := by
  have hfv : v.faultHalt = false := h.faultHalt ▸ hf
  have hreg : ∀ r, u.reg r = v.reg r := fun r => by simp [State.reg, h.regs]
  have hpc := h.pc hf
  have hh := h.haltFlag hf
  have hc := h.cfg
  have hr := h.regs
  have hd := h.dmem
  have complete : ∀ rd x, ArchEq (u.complete rd x) (v.complete rd x) := fun rd x =>
    ⟨hc, by simp [hr], hd, by simp [hf, hfv], fun _ => by simp [hpc], fun _ => by simp [hh]⟩
  have redirect : ∀ x, ArchEq (u.redirect x) (v.redirect x) := fun x =>
    ⟨hc, by simp [hr], hd, by simp [hf, hfv], fun _ => by simp, fun _ => by simp [hh, hc]⟩
  have jump : ∀ rd x y, ArchEq ((u.setReg rd x).redirect y) ((v.setReg rd x).redirect y) :=
    fun rd x y =>
    ⟨hc, by simp [hr], hd, by simp [hf, hfv], fun _ => by simp, fun _ => by simp [hh, hc]⟩
  have advance : ArchEq u.advance v.advance :=
    ⟨hc, by simp [hr], hd, by simp [hf, hfv], fun _ => by simp [hpc], fun _ => by simp [hh]⟩
  have branch : ∀ c o, ArchEq (u.branch c o) (v.branch c o) := by
    intro c o
    cases c
    · exact advance
    · rw [State.branch, State.branch, if_pos rfl, if_pos rfl, hpc]; exact redirect _
  have load : ∀ rd A n sg, ArchEq (u.load rd A n sg) (v.load rd A n sg) := by
    intro rd A n sg
    simp only [State.load, State.takeFault, ← hc, ← hd]
    cases accessFault u.cfg A n with
    | none => exact complete _ _
    | some f =>
      cases hp : u.cfg.permissive <;> simp [hp, ← hc] <;> constructor <;>
        simp [hc, hr, hd, hf, hfv, hpc, hh]
  have store : ∀ A n x, ArchEq (u.store A n x) (v.store A n x) := by
    intro A n x
    simp only [State.store, State.takeFault, ← hc, ← hd]
    cases accessFault u.cfg A n with
    | none => constructor <;> simp [hc, hr, hd, hf, hfv, hpc, hh]
    | some f =>
      cases hp : u.cfg.permissive <;> simp [hp, ← hc] <;> constructor <;>
        simp [hc, hr, hd, hf, hfv, hpc, hh]
  cases i <;> refine ⟨_, _, rfl, rfl, ?_⟩ <;> (try simp only [effectiveAddress, hreg, hpc])
  case beq | bne | blt | bge | bltu | bgeu => exact branch _ _
  case jal | jalr => exact jump _ _ _
  case lb | lh | lw | lbu | lhu => exact load _ _ _ _
  case sb | sh | sw => exact store _ _ _
  all_goals exact complete _ _

theorem skip_congr {u v : State} (h : ArchEq u v) (hf : u.faultHalt = false) (w : Word) :
    ArchEq (u.skip w) (v.skip w) :=
  ⟨h.cfg, by simp [State.skip, h.regs], by simp [State.skip, h.dmem],
    by simp [State.skip, h.faultHalt], fun _ => by simp [State.skip, h.pc hf],
    fun _ => by simp [State.skip, h.haltFlag hf]⟩

theorem ArchEq.refl (a : State) : ArchEq a a := ⟨rfl, rfl, rfl, rfl, fun _ => rfl, fun _ => rfl⟩

theorem ArchEq.trans {a b c : State} (h : ArchEq a b) (h' : ArchEq b c) : ArchEq a c :=
  ⟨h.cfg.trans h'.cfg, h.regs.trans h'.regs, h.dmem.trans h'.dmem, h.faultHalt.trans h'.faultHalt,
   fun hf => (h.pc hf).trans (h'.pc (h.faultHalt ▸ hf)),
   fun hf => (h.haltFlag hf).trans (h'.haltFlag (h.faultHalt ▸ hf))⟩

end Sys2Proof.Machine
end

