-- ==== Sys2Proof/Laws/PerInstr.lean ====
section
/-! SUPPORT. Per instruction: a word that has the instruction's fields carries the match bits of its row
under the row's mask (R74, R75). -/

namespace Sys2Proof.Laws.RowBits

/-- Every word with the fields of `i` matches the row of `i`. -/
def Statement (i : Instr) : Prop := ∀ w, i.FieldsOf w → w &&& i.row.mask = i.row.bits

theorem lui (rd : Reg) (v : BitVec 20) : Statement (.lui rd v) := fun w h => (and_mask_opcode w _).mpr h.1
theorem auipc (rd : Reg) (v : BitVec 20) : Statement (.auipc rd v) := fun w h => (and_mask_opcode w _).mpr h.1
theorem jal (rd : Reg) (o : BitVec 21) : Statement (.jal rd o) := fun w h => (and_mask_opcode w _).mpr h.1
theorem jalr (rd rs1 : Reg) (v : BitVec 12) : Statement (.jalr rd rs1 v) := fun w h => (and_mask_funct3 w _ _).mpr ⟨h.1, h.2.1⟩
theorem beq (rs1 rs2 : Reg) (o : BitVec 13) : Statement (.beq rs1 rs2 o) := fun w h => (and_mask_funct3 w _ _).mpr ⟨h.1, h.2.1⟩
theorem bne (rs1 rs2 : Reg) (o : BitVec 13) : Statement (.bne rs1 rs2 o) := fun w h => (and_mask_funct3 w _ _).mpr ⟨h.1, h.2.1⟩
theorem blt (rs1 rs2 : Reg) (o : BitVec 13) : Statement (.blt rs1 rs2 o) := fun w h => (and_mask_funct3 w _ _).mpr ⟨h.1, h.2.1⟩
theorem bge (rs1 rs2 : Reg) (o : BitVec 13) : Statement (.bge rs1 rs2 o) := fun w h => (and_mask_funct3 w _ _).mpr ⟨h.1, h.2.1⟩
theorem bltu (rs1 rs2 : Reg) (o : BitVec 13) : Statement (.bltu rs1 rs2 o) := fun w h => (and_mask_funct3 w _ _).mpr ⟨h.1, h.2.1⟩
theorem bgeu (rs1 rs2 : Reg) (o : BitVec 13) : Statement (.bgeu rs1 rs2 o) := fun w h => (and_mask_funct3 w _ _).mpr ⟨h.1, h.2.1⟩
theorem lb (rd rs1 : Reg) (v : BitVec 12) : Statement (.lb rd rs1 v) := fun w h => (and_mask_funct3 w _ _).mpr ⟨h.1, h.2.1⟩
theorem lh (rd rs1 : Reg) (v : BitVec 12) : Statement (.lh rd rs1 v) := fun w h => (and_mask_funct3 w _ _).mpr ⟨h.1, h.2.1⟩
theorem lw (rd rs1 : Reg) (v : BitVec 12) : Statement (.lw rd rs1 v) := fun w h => (and_mask_funct3 w _ _).mpr ⟨h.1, h.2.1⟩
theorem lbu (rd rs1 : Reg) (v : BitVec 12) : Statement (.lbu rd rs1 v) := fun w h => (and_mask_funct3 w _ _).mpr ⟨h.1, h.2.1⟩
theorem lhu (rd rs1 : Reg) (v : BitVec 12) : Statement (.lhu rd rs1 v) := fun w h => (and_mask_funct3 w _ _).mpr ⟨h.1, h.2.1⟩
theorem sb (rs2 rs1 : Reg) (v : BitVec 12) : Statement (.sb rs2 rs1 v) := fun w h => (and_mask_funct3 w _ _).mpr ⟨h.1, h.2.1⟩
theorem sh (rs2 rs1 : Reg) (v : BitVec 12) : Statement (.sh rs2 rs1 v) := fun w h => (and_mask_funct3 w _ _).mpr ⟨h.1, h.2.1⟩
theorem sw (rs2 rs1 : Reg) (v : BitVec 12) : Statement (.sw rs2 rs1 v) := fun w h => (and_mask_funct3 w _ _).mpr ⟨h.1, h.2.1⟩
theorem addi (rd rs1 : Reg) (v : BitVec 12) : Statement (.addi rd rs1 v) := fun w h => (and_mask_funct3 w _ _).mpr ⟨h.1, h.2.1⟩
theorem slti (rd rs1 : Reg) (v : BitVec 12) : Statement (.slti rd rs1 v) := fun w h => (and_mask_funct3 w _ _).mpr ⟨h.1, h.2.1⟩
theorem sltiu (rd rs1 : Reg) (v : BitVec 12) : Statement (.sltiu rd rs1 v) := fun w h => (and_mask_funct3 w _ _).mpr ⟨h.1, h.2.1⟩
theorem xori (rd rs1 : Reg) (v : BitVec 12) : Statement (.xori rd rs1 v) := fun w h => (and_mask_funct3 w _ _).mpr ⟨h.1, h.2.1⟩
theorem ori (rd rs1 : Reg) (v : BitVec 12) : Statement (.ori rd rs1 v) := fun w h => (and_mask_funct3 w _ _).mpr ⟨h.1, h.2.1⟩
theorem andi (rd rs1 : Reg) (v : BitVec 12) : Statement (.andi rd rs1 v) := fun w h => (and_mask_funct3 w _ _).mpr ⟨h.1, h.2.1⟩
theorem slli (rd rs1 : Reg) (v : BitVec 5) : Statement (.slli rd rs1 v) := fun w h => (and_mask_funct7 w _ _ _).mpr ⟨h.1, h.2.1, h.2.2.1⟩
theorem srli (rd rs1 : Reg) (v : BitVec 5) : Statement (.srli rd rs1 v) := fun w h => (and_mask_funct7 w _ _ _).mpr ⟨h.1, h.2.1, h.2.2.1⟩
theorem srai (rd rs1 : Reg) (v : BitVec 5) : Statement (.srai rd rs1 v) := fun w h => (and_mask_funct7 w _ _ _).mpr ⟨h.1, h.2.1, h.2.2.1⟩
theorem add (rd rs1 rs2 : Reg) : Statement (.add rd rs1 rs2) := fun w h => (and_mask_funct7 w _ _ _).mpr ⟨h.1, h.2.1, h.2.2.1⟩
theorem sub (rd rs1 rs2 : Reg) : Statement (.sub rd rs1 rs2) := fun w h => (and_mask_funct7 w _ _ _).mpr ⟨h.1, h.2.1, h.2.2.1⟩
theorem sll (rd rs1 rs2 : Reg) : Statement (.sll rd rs1 rs2) := fun w h => (and_mask_funct7 w _ _ _).mpr ⟨h.1, h.2.1, h.2.2.1⟩
theorem slt (rd rs1 rs2 : Reg) : Statement (.slt rd rs1 rs2) := fun w h => (and_mask_funct7 w _ _ _).mpr ⟨h.1, h.2.1, h.2.2.1⟩
theorem sltu (rd rs1 rs2 : Reg) : Statement (.sltu rd rs1 rs2) := fun w h => (and_mask_funct7 w _ _ _).mpr ⟨h.1, h.2.1, h.2.2.1⟩
theorem xor (rd rs1 rs2 : Reg) : Statement (.xor rd rs1 rs2) := fun w h => (and_mask_funct7 w _ _ _).mpr ⟨h.1, h.2.1, h.2.2.1⟩
theorem srl (rd rs1 rs2 : Reg) : Statement (.srl rd rs1 rs2) := fun w h => (and_mask_funct7 w _ _ _).mpr ⟨h.1, h.2.1, h.2.2.1⟩
theorem sra (rd rs1 rs2 : Reg) : Statement (.sra rd rs1 rs2) := fun w h => (and_mask_funct7 w _ _ _).mpr ⟨h.1, h.2.1, h.2.2.1⟩
theorem or (rd rs1 rs2 : Reg) : Statement (.or rd rs1 rs2) := fun w h => (and_mask_funct7 w _ _ _).mpr ⟨h.1, h.2.1, h.2.2.1⟩
theorem and (rd rs1 rs2 : Reg) : Statement (.and rd rs1 rs2) := fun w h => (and_mask_funct7 w _ _ _).mpr ⟨h.1, h.2.1, h.2.2.1⟩

end Sys2Proof.Laws.RowBits
end

