-- ==== Sys2Proof/Laws/Pipeline.lean ====
section
/-! SUPPORT. What one step of the machine can do, said once, and the parts of the correspondence between
a tick and an instruction's effect. -/

namespace Sys2Proof.Machine

/-! ### A step -/

/-- A step is nothing in HALTED, else one tick. -/
theorem step_cases {s t : State} (h : step s = .next t) :
    (s.drv = .halted ∧ t = s) ∨ (s.drv ≠ .halted ∧ t = s.tickState) := by
  simp only [step_eq_next, Host.Outcome.next.injEq] at h
  by_cases hd : s.drv = .halted
  · rw [driverStep_halted hd] at h; exact .inl ⟨hd, h.symm⟩
  · rw [driverStep_tick hd] at h; exact .inr ⟨hd, h.symm⟩

theorem steps_succ (n : Nat) (s : State) : steps (n + 1) s = (driverStep (steps n s)).next := by
  induction n generalizing s with
  | zero => rfl
  | succ n ih => exact ih _

theorem steps_halted {s : State} (h : s.drv = .halted) (k : Nat) : steps k s = s := by
  induction k with
  | zero => rfl
  | succ k ih => rw [steps, driverStep_halted h]; exact ih

theorem PipeInv.not_faultHalt {s : State} (hi : PipeInv s) (h : s.drv ≠ .halted) :
    s.faultHalt = false := by
  by_contra hc
  exact h (by rw [hi.drv]; exact drvState_eq_halted_of_faultHalt (by simpa using hc))

/-! ### Decode and Fetch of the tick -/

/-- A redirecting instruction does not stall. -/
theorem stall_eq_false_of_redirect {s : State} {target : Word}
    (h : s.decodeOut.redirect = some target) : s.decodeOut.stall = false := by
  rcases decodeStage_cases s.tickNo s.ifid s.idex s.exmem s.memwb s.regsAfterWriteback with
    ⟨-, e⟩ | ⟨p, -, e⟩ | ⟨p, w, e', -, -, e⟩ | ⟨p, w, i, -, -, -, e⟩ | ⟨p, w, i, -, -, hz, e⟩
  all_goals rw [State.decodeOut, e] at h ⊢
  · cases h
  · simp [issue, hz]

/-- What a stall is. -/
theorem stalls_iff {s : State} : Stalls s ↔ s.drv ≠ .halted ∧ ∃ p w i, s.ifid = .instr p w ∧
    decode w = .ok i ∧ hazard (describe i w) s.idex s.exmem = true ∧
    s.decodeOut = ⟨none, true, none, [(p, .STALL)], []⟩ := by
  unfold Stalls
  refine and_congr_right fun _ => ⟨fun hs => ?_, fun ⟨p, w, i, _, _, _, h⟩ => by rw [h]⟩
  rcases decodeStage_cases s.tickNo s.ifid s.idex s.exmem s.memwb s.regsAfterWriteback with
    ⟨-, e⟩ | ⟨p, -, e⟩ | ⟨p, w, e', -, -, e⟩ | ⟨p, w, i, h, hd, hz, e⟩ | ⟨p, w, i, -, -, hz, e⟩
  · rw [State.decodeOut, e] at hs; cases hs
  · rw [State.decodeOut, e] at hs; cases hs
  · rw [State.decodeOut, e] at hs; cases hs
  · exact ⟨p, w, i, h, hd, hz, e⟩
  · rw [State.decodeOut, e, issue, if_neg (by simp [hz])] at hs; cases hs

/-- What each kind of tick means for Decode and Fetch, whole. -/
theorem tickKind_cases (s : State) :
    (s.tickKind = .stalled ∧ s.decodeOut.stall = true ∧
      s.fetchOut = ⟨s.ifid, s.pc, s.haltFlag, []⟩) ∨
    (s.decodeOut.stall = false ∧ ∃ target, s.decodeOut.redirect = some target ∧
      s.fetchOut.pc = target ∧
      ((s.tickKind = .squashed ∧ s.fetchOut.ifid = .squashed s.pc) ∨
       (s.tickKind = .idle ∧ s.fetchOut.ifid = .bubble ∧
        canFetch s.cfg s.haltFlag s.pc = none))) ∨
    (s.tickKind = .fetched ∧ s.decodeOut.stall = false ∧ s.decodeOut.redirect = none ∧
      ∃ w, canFetch s.cfg s.haltFlag s.pc = some w ∧
        s.fetchOut = ⟨.instr s.pc w, s.pc + 4, s.haltFlag, [(s.pc, .IF)]⟩) ∨
    (s.tickKind = .idle ∧ s.decodeOut.stall = false ∧ s.decodeOut.redirect = none ∧
      canFetch s.cfg s.haltFlag s.pc = none ∧ s.fetchOut = ⟨.bubble, s.pc, s.haltFlag, []⟩) := by
  rcases fetchStage_cases s.cfg s.haltFlag s.pc s.ifid s.decodeOut.stall s.decodeOut.redirect with
    ⟨hs, e⟩ | ⟨hs, target, hr, e⟩ | ⟨hs, hr, w, hc, e⟩ | ⟨hs, hr, hc, e⟩
  all_goals change s.fetchOut = _ at e
  · exact .inl ⟨by simp [State.tickKind, hs], hs, e⟩
  · refine .inr (.inl ⟨hs, target, hr, ?_⟩)
    rcases Option.eq_none_or_eq_some (canFetch s.cfg s.haltFlag s.pc) with hc | ⟨w, hc⟩
    all_goals simp [State.tickKind, hs, e, hc]
  · exact .inr (.inr (.inl ⟨by simp [State.tickKind, hs, e], hs, hr, w, hc, e⟩))
  · exact .inr (.inr (.inr ⟨by simp [State.tickKind, hs, e], hs, hr, hc, e⟩))

/-- Each tick is of one kind. -/
theorem ticksOfKind_total (n : Nat) (s : State) :
    ticksOfKind .fetched n s + ticksOfKind .stalled n s + ticksOfKind .squashed n s +
      ticksOfKind .idle n s = n := by
  induction n generalizing s with
  | zero => rfl
  | succ n ih =>
    have := ih (driverStep s).next
    simp only [ticksOfKind]
    cases s.tickKind <;> simp <;> omega

theorem ticksOfKind_add (kind : TickKind) (m n : Nat) (s : State) :
    ticksOfKind kind (m + n) s = ticksOfKind kind m s + ticksOfKind kind n (steps m s) := by
  induction m generalizing s with
  | zero => simp [ticksOfKind, steps]
  | succ m ih => rw [Nat.succ_add, ticksOfKind, ih, ticksOfKind, steps]; omega

theorem steps_add (m n : Nat) (s : State) : steps (m + n) s = steps n (steps m s) := by
  induction m generalizing s with
  | zero => rw [Nat.zero_add]; rfl
  | succ m ih => rw [Nat.succ_add, steps, ih, steps]

/-- The data memory after the Memory stage: as before, or one store that does not fault. -/
theorem memOut_dmem (s : State) : s.memOut.dmem = s.dmem ∨ ∃ e n, s.exmem = some e ∧
    accessFault s.cfg e.aluResult n = none ∧
    s.memOut.dmem = memWrite s.dmem e.aluResult n e.storeData := by
  cases he : s.exmem with
  | none => exact .inl (by simp [State.memOut, he, memoryStage])
  | some e =>
    cases hn : e.d.memWidth with
    | none => exact .inl (by simp [State.memOut, he, memoryStage, hn])
    | some n =>
      rw [State.memOut, he, memoryStage_access hn, memoryAccess]
      cases hf : accessFault s.cfg e.aluResult n with
      | some f => exact .inl (by simp only; split <;> rfl)
      | none =>
        simp only
        split
        · exact .inl rfl
        · exact .inr ⟨e, n, rfl, hf, rfl⟩

/-! ### The architectural pc across a tick -/

theorem issuePc_instr {s : State} {p w : Word} (h : s.ifid = .instr p w) : s.issuePc = p := by
  simp [State.issuePc, h]

/-- An instruction that leaves Decode is followed by its redirect target, or by `p + 4`. -/
theorem issuePc_tickState {s : State} {p : Word} (hs : s.decodeOut.stall = false)
    (hp : s.pc = p + 4) :
    s.tickState.issuePc = s.decodeOut.redirect.getD (p + 4) ∧
    s.tickState.haltFlag = (match s.decodeOut.redirect with
      | none => s.haltFlag
      | some target => s.haltFlag || s.cfg.haltTarget == some target) := by
  unfold State.issuePc
  simp only [State.tickState_ifid, State.tickState_pc, State.tickState_haltFlag, State.fetchOut]
  rcases fetchStage_cases s.cfg s.haltFlag s.pc s.ifid s.decodeOut.stall s.decodeOut.redirect with
    ⟨h, e⟩ | ⟨h, t, hr, e⟩ | ⟨h, hr, w', hc, e⟩ | ⟨h, hr, hc, e⟩
  · rw [hs] at h; cases h
  · rw [e, hr]; cases (canFetch s.cfg s.haltFlag s.pc).isSome <;> simp
  · rw [e, hr]; simp [hp]
  · rw [e, hr]; simp [hp]

/-- A tick in which no instruction leaves Decode keeps the architectural pc. -/
theorem issuePc_tickState_keep {s : State} (hr : s.decodeOut.redirect = none)
    (hv : s.ifid.valid = false ∨ s.decodeOut.stall = true) :
    s.tickState.issuePc = s.issuePc ∧ s.tickState.haltFlag = s.haltFlag := by
  unfold State.issuePc
  simp only [State.tickState_ifid, State.tickState_pc, State.tickState_haltFlag, State.fetchOut]
  rcases fetchStage_cases s.cfg s.haltFlag s.pc s.ifid s.decodeOut.stall s.decodeOut.redirect with
    ⟨h, e⟩ | ⟨h, t, hr', e⟩ | ⟨h, hr', w', hc, e⟩ | ⟨h, hr', hc, e⟩
  · rw [e]; exact ⟨rfl, rfl⟩
  · rw [hr] at hr'; cases hr'
  · rcases hv with hv | hv
    · rw [e]; revert hv; cases s.ifid <;> simp [IfId.valid]
    · rw [hv] at h; cases h
  · rcases hv with hv | hv
    · rw [e]; revert hv; cases s.ifid <;> simp [IfId.valid]
    · rw [hv] at h; cases h

/-- A tick that puts a bubble into ID/EX keeps the architectural registers and memory. -/
theorem drain_tickState_bubble {s : State} (h0 : s.faultHalt = false)
    (hd : s.decodeOut.idex = none) :
    (drain s.tickState).regs = (drain s).regs ∧ (drain s.tickState).dmem = (drain s).dmem ∧
    (drain s.tickState).faultHalt = (drain s).faultHalt := by
  obtain ⟨t1, t2, t3⟩ := drain_tickState h0 (drain s) (drain_cfg s) rfl rfl rfl
  simp only [hd, executeStage, State.retire_none] at t1 t2 t3
  exact ⟨t1, t2, t3⟩

/-! ### Operands -/

theorem exmem_coherent {s : State} (hi : PipeInv s) :
    ∀ e, s.exmem = some e → Descriptor.Coherent e.d := fun e he => (hi.exmem e he).coherent

theorem executeStage_coherent {s : State} (hi : PipeInv s) :
    ∀ e, executeStage s.idex s.exmem s.memwb = some e → Descriptor.Coherent e.d := by
  intro e he
  obtain ⟨x, hx, -, hd⟩ := executeStage_eq_some he
  rw [hd]
  exact (hi.idex x hx).coherent

theorem older_reg {s : State} (hf : s.faultHalt = false) (r : Reg) :
    s.older.reg r = readReg (writebackStage s.memOut.memwb s.regsAfterWriteback) r := by
  rw [State.reg, (State.older_of_not_faultHalt hf).1]

/-- The operand that the instruction now in Decode will take in Execute, in the next tick. -/
theorem nextExecuteOperand {s : State} (hi : PipeInv s) (hf : (drain s).faultHalt = false)
    {d : Descriptor} {r : Reg} (hz : hazard d s.idex s.exmem = false)
    (hr : r ≠ 0#5 → readsReg d r = true) :
    fwd (executeStage s.idex s.exmem s.memwb) s.memOut.memwb r (readReg s.regsAfterWriteback r)
      = (drain s).reg r := by
  obtain ⟨hregs, -⟩ := drain_of_not_faultHalt hf
  rw [State.reg, hregs]
  refine fwd_eq_readReg (m := s.memOut.dmem) (executeStage_coherent hi) ?_
    (getD_fwdMemWb_readReg _ _ _)
  intro e he h0 hm hw hrd
  obtain ⟨x, hx, -, hd⟩ := executeStage_eq_some he
  have := (hazard_eq_false hz).1 x hx (by rw [← hd]; exact hm)
  rw [← hd, hrd, hr h0] at this
  cases this

theorem readsReg_rs1 {d : Descriptor} (h : d.usesRs1 = true) :
    d.rs1 ≠ 0#5 → readsReg d d.rs1 = true := fun h0 => readsReg_eq_true.mpr ⟨h0, .inl ⟨h, rfl⟩⟩

theorem readsReg_rs2 {d : Descriptor} (h : d.usesRs2 = true) :
    d.rs2 ≠ 0#5 → readsReg d d.rs2 = true := fun h0 => readsReg_eq_true.mpr ⟨h0, .inr ⟨h, rfl⟩⟩

/-! ### Retiring one executed instruction is its effect -/

theorem retire_pass {u : State} (hf : u.faultHalt = false) {e : ExMem} (h : e.d.memWidth = none)
    (hm : e.d.memRead = false) :
    (u.retire (some e)).regs =
        (if e.d.regWrite then writeReg u.regs e.d.rd e.aluResult else u.regs) ∧
    (u.retire (some e)).dmem = u.dmem ∧ (u.retire (some e)).faultHalt = false := by
  rw [State.retire_of_not_faultHalt hf, memoryStage_pass h]
  simp [writebackStage, ExMem.pass, MemWb.result, hm]

theorem retire_load {u : State} (hf : u.faultHalt = false) {e : ExMem} {n : Size}
    (h : e.d.memWidth = some n) (hm : e.d.memRead = true) (hw : e.d.regWrite = true) :
    (u.retire (some e)).regs = (u.load e.d.rd e.aluResult n e.d.memSigned).regs ∧
    (u.retire (some e)).dmem = (u.load e.d.rd e.aluResult n e.d.memSigned).dmem ∧
    (u.retire (some e)).faultHalt = (u.load e.d.rd e.aluResult n e.d.memSigned).faultHalt := by
  rw [State.retire_of_not_faultHalt hf, memoryStage_access h]
  simp only [memoryAccess, State.load, State.takeFault]
  cases accessFault u.cfg e.aluResult n with
  | none => simp [hm, writebackStage, ExMem.pass, MemWb.result, hw, hf]
  | some f =>
    cases hp : u.cfg.permissive <;>
      simp [hm, hp, writebackStage, ExMem.pass, MemWb.result, hw, hf]

theorem retire_store {u : State} (hf : u.faultHalt = false) {e : ExMem} {n : Size}
    (h : e.d.memWidth = some n) (hm : e.d.memRead = false) (hw : e.d.regWrite = false) :
    (u.retire (some e)).regs = (u.store e.aluResult n e.storeData).regs ∧
    (u.retire (some e)).dmem = (u.store e.aluResult n e.storeData).dmem ∧
    (u.retire (some e)).faultHalt = (u.store e.aluResult n e.storeData).faultHalt := by
  rw [State.retire_of_not_faultHalt hf, memoryStage_access h]
  simp only [memoryAccess, State.store, State.takeFault]
  cases accessFault u.cfg e.aluResult n with
  | none => simp [hm, writebackStage, ExMem.pass, hw, hf]
  | some f => cases hp : u.cfg.permissive <;> simp [hp, writebackStage, ExMem.pass, hw, hf]

/-- What Execute makes of the instruction `d` at `p` with operands `a` and `b`. -/
def executed (d : Descriptor) (p a b : Word) : ExMem :=
  ⟨p, d, executeResult d p a b, if d.cls = .store then b else 0⟩

/-- Retiring the executed `i` in `u` and redirecting by its early operands is `exec i u`. -/
def RetiresAsExec (i : Instr) (w : Word) (u : State) (a b a' b' : Word) : Prop :=
  ∃ v, exec i u = .next v ∧ v.cfg = u.cfg ∧
    (u.retire (some (executed (describe i w) u.pc a b))).regs = v.regs ∧
    (u.retire (some (executed (describe i w) u.pc a b))).dmem = v.dmem ∧
    (u.retire (some (executed (describe i w) u.pc a b))).faultHalt = v.faultHalt ∧
    (v.faultHalt = false →
      v.pc = (redirectOf (describe i w) u.pc a' b').getD (u.pc + 4) ∧
      v.haltFlag = (match redirectOf (describe i w) u.pc a' b' with
        | none => u.haltFlag
        | some target => u.haltFlag || u.cfg.haltTarget == some target))

section
variable {i : Instr} {w : Word} {u : State} {a b a' b' : Word}

theorem retiresAsExec_complete {val : Word} (hf : u.faultHalt = false)
    (hx : exec i u = .next (u.complete (rdOf w) val)) (hw : i.memWidth = none)
    (hr : i.cls.regWrite = true) (hm : (i.cls == .load) = false)
    (hred : redirectOf (describe i w) u.pc a' b' = none)
    (hv : executeResult (describe i w) u.pc a b = val) : RetiresAsExec i w u a b a' b' := by
  obtain ⟨r1, r2, r3⟩ := retire_pass hf (e := executed (describe i w) u.pc a b) hw hm
  rw [if_pos (show (executed (describe i w) u.pc a b).d.regWrite = true from hr)] at r1
  refine ⟨_, hx, rfl, ?_, r2, by rw [r3]; exact hf.symm, fun _ => ?_⟩
  · rw [r1, ← hv]; rfl
  · rw [hred]; exact ⟨rfl, rfl⟩

theorem retiresAsExec_branch {c : Bool} {off : Word} (hf : u.faultHalt = false)
    (hx : exec i u = .next (u.branch c off)) (hw : i.memWidth = none)
    (hr : i.cls.regWrite = false) (hm : (i.cls == .load) = false)
    (hred : redirectOf (describe i w) u.pc a' b' = if c then some (u.pc + off) else none) :
    RetiresAsExec i w u a b a' b' := by
  obtain ⟨r1, r2, r3⟩ := retire_pass hf (e := executed (describe i w) u.pc a b) hw hm
  rw [show (executed (describe i w) u.pc a b).d.regWrite = false from hr,
    if_neg (by simp)] at r1
  cases c <;> exact ⟨_, hx, rfl, r1, r2, by rw [r3]; exact hf.symm,
    fun _ => by rw [hred]; exact ⟨rfl, rfl⟩⟩

theorem retiresAsExec_jump {target : Word} (hf : u.faultHalt = false)
    (hx : exec i u = .next ((u.setReg (rdOf w) (u.pc + 4)).redirect target))
    (hw : i.memWidth = none) (hr : i.cls.regWrite = true) (hm : (i.cls == .load) = false)
    (hred : redirectOf (describe i w) u.pc a' b' = some target)
    (hv : executeResult (describe i w) u.pc a b = u.pc + 4) :
    RetiresAsExec i w u a b a' b' := by
  obtain ⟨r1, r2, r3⟩ := retire_pass hf (e := executed (describe i w) u.pc a b) hw hm
  rw [if_pos (show (executed (describe i w) u.pc a b).d.regWrite = true from hr)] at r1
  refine ⟨_, hx, rfl, ?_, r2, by rw [r3]; exact hf.symm, fun _ => ?_⟩
  · rw [r1]; simp only [executed, hv]; rfl
  · rw [hred]; exact ⟨rfl, rfl⟩

theorem retiresAsExec_load {A : Word} {n : Size} {signed : Bool} (hf : u.faultHalt = false)
    (hx : exec i u = .next (u.load (rdOf w) A n signed)) (hw : i.memWidth = some n)
    (hs : i.memSigned = signed) (hc : i.cls = .load)
    (hv : executeResult (describe i w) u.pc a b = A) : RetiresAsExec i w u a b a' b' := by
  have hm : (executed (describe i w) u.pc a b).d.memRead = true := by
    simp [executed, describe, hc]
  have hr : (executed (describe i w) u.pc a b).d.regWrite = true := by
    simp [executed, describe, hc, OpClass.regWrite]
  obtain ⟨r1, r2, r3⟩ := retire_load hf (e := executed (describe i w) u.pc a b) hw hm hr
  obtain ⟨f1, f2, f3⟩ := State.load_control u (rdOf w) A n signed
  subst hv hs
  have hred : redirectOf (describe i w) u.pc a' b' = none := by simp [redirectOf, describe, hc]
  exact ⟨_, hx, f2, r1, r2, r3, fun h => by rw [hred]; exact ⟨f3 h, f1⟩⟩

theorem retiresAsExec_store {A v : Word} {n : Size} (hf : u.faultHalt = false)
    (hx : exec i u = .next (u.store A n v)) (hw : i.memWidth = some n) (hc : i.cls = .store)
    (hv : executeResult (describe i w) u.pc a b = A) (hb : b = v) :
    RetiresAsExec i w u a b a' b' := by
  have hm : (executed (describe i w) u.pc a b).d.memRead = false := by
    simp [executed, describe, hc]
  have hr : (executed (describe i w) u.pc a b).d.regWrite = false := by
    simp [executed, describe, hc, OpClass.regWrite]
  obtain ⟨r1, r2, r3⟩ := retire_store hf (e := executed (describe i w) u.pc a b) hw hm hr
  obtain ⟨f1, f2, f3⟩ := State.store_control u A n v
  have hsd : (executed (describe i w) u.pc a b).storeData = v := by
    simp [executed, describe, hc, hb]
  rw [hsd] at r1 r2 r3
  subst hv
  have hred : redirectOf (describe i w) u.pc a' b' = none := by simp [redirectOf, describe, hc]
  exact ⟨_, hx, f2, r1, r2, r3, fun h => by rw [hred]; exact ⟨f3 h, f1⟩⟩

end

/-- The shift amount of an immediate shift: the low five bits of its I immediate are its `rs2` field. -/
theorem shamtOf_immI (w : Word) : shamtOf (immI w) = shamtOf ((rs2Of w).setWidth 32) := by
  simp only [shamtOf, immI, sext, fieldI, rs2Of]
  congr 1
  apply BitVec.eq_of_getLsbD_eq
  intro i hi
  interval_cases i <;> simp [BitVec.getElem_signExtend]

/-- Execute and Decode compute, from the word and program-order operands, what the instruction's rule
says. -/
theorem retiresAsExec {w : Word} {i : Instr} (hd : decode w = .ok i) {u : State}
    (hf : u.faultHalt = false) {a b a' b' : Word}
    (ha : i.cls.usesRs1 = true → a = u.reg (rs1Of w))
    (hb : i.cls.usesRs2 = true → b = u.reg (rs2Of w))
    (ha' : early (describe i w) = true → i.cls.usesRs1 = true → a' = u.reg (rs1Of w))
    (hb' : early (describe i w) = true → i.cls.usesRs2 = true → b' = u.reg (rs2Of w)) :
    RetiresAsExec i w u a b a' b' := by
  have hF := decode_fields hd
  cases i
  case lui => obtain ⟨-, rfl, rfl⟩ := hF; exact retiresAsExec_complete hf rfl rfl rfl rfl rfl rfl
  case auipc => obtain ⟨-, rfl, rfl⟩ := hF; exact retiresAsExec_complete hf rfl rfl rfl rfl rfl rfl
  case jal => obtain ⟨-, rfl, rfl⟩ := hF; exact retiresAsExec_jump hf rfl rfl rfl rfl rfl rfl
  case jalr =>
    obtain ⟨-, -, rfl, rfl, rfl⟩ := hF
    obtain rfl := ha' rfl rfl
    exact retiresAsExec_jump hf rfl rfl rfl rfl rfl rfl
  case slli =>
    obtain ⟨-, -, -, rfl, rfl, rfl⟩ := hF
    obtain rfl := ha rfl
    exact retiresAsExec_complete hf rfl rfl rfl rfl rfl
      (congrArg (u.reg (rs1Of w) <<< ·) (shamtOf_immI w))
  case srli =>
    obtain ⟨-, -, -, rfl, rfl, rfl⟩ := hF
    obtain rfl := ha rfl
    exact retiresAsExec_complete hf rfl rfl rfl rfl rfl
      (congrArg (u.reg (rs1Of w) >>> ·) (shamtOf_immI w))
  case srai =>
    obtain ⟨-, -, -, rfl, rfl, rfl⟩ := hF
    obtain rfl := ha rfl
    exact retiresAsExec_complete hf rfl rfl rfl rfl rfl
      (congrArg ((u.reg (rs1Of w)).sshiftRight ·) (shamtOf_immI w))
  case beq | bne | blt | bge | bltu | bgeu =>
    obtain ⟨-, hf3, rfl, rfl, rfl⟩ := hF
    obtain rfl := ha' rfl rfl
    obtain rfl := hb' rfl rfl
    exact retiresAsExec_branch hf rfl rfl rfl rfl
      (by simp [redirectOf, describe, Instr.cls, taken, hf3]; rfl)
  case lb | lh | lw | lbu | lhu =>
    obtain ⟨-, -, rfl, rfl, rfl⟩ := hF
    obtain rfl := ha rfl
    exact retiresAsExec_load hf rfl rfl rfl rfl rfl
  case sb | sh | sw =>
    obtain ⟨-, -, rfl, rfl, rfl⟩ := hF
    obtain rfl := ha rfl
    obtain rfl := hb rfl
    exact retiresAsExec_store hf rfl rfl rfl rfl rfl
  case addi | slti | sltiu | xori | ori | andi =>
    obtain ⟨-, -, rfl, rfl, rfl⟩ := hF
    obtain rfl := ha rfl
    exact retiresAsExec_complete hf rfl rfl rfl rfl rfl rfl
  case add | sub | sll | slt | sltu | xor | srl | sra | or | and =>
    obtain ⟨-, -, -, rfl, rfl, rfl⟩ := hF
    obtain rfl := ha rfl
    obtain rfl := hb rfl
    exact retiresAsExec_complete hf rfl rfl rfl rfl rfl rfl

/-! ### The sequential interpreter -/

theorem seqRun_succ_last {k : Nat} {s t u : State} (h : seqRun k s = .next t)
    (h' : seqStep t = .next u) : seqRun (k + 1) s = .next u := by
  induction k generalizing s with
  | zero => simp only [seqRun] at h; cases h; simp [seqRun, h']
  | succ k ih =>
    rw [seqRun] at h ⊢
    cases hs : seqStep s with
    | next r => rw [hs] at h; simp only at h; exact ih h
    | fault f => rw [hs] at h; cases h
    | refused r => rw [hs] at h; cases h

end Sys2Proof.Machine
end

