-- ==== Sys2Proof/Tests/Slice0.lean ====
section
/-! SUPPORT. The model's own tests: well-formedness, the words of `95_test_vectors.md`, one small step per
point, and for each statement with hypotheses a concrete state that meets them. Expected values are the
spec's (the section is named), never the model's. -/

open Sys2Proof Sys2Proof.Machine

/-! ### Helpers -/

/-- Reset with the image `is` and `x1`, `x2` given. -/
def Test.at (imem : List Word) (x1 x2 : Word) : State :=
  resetWith { Params.default with
    imem := imem, regInit := ((Vector.replicate 32 0).set 1 x1).set 2 x2 }

/-- A field of the next state an outcome answers, if it answers one. -/
def Test.after {α : Type} (o : Host.Outcome State Fault Refusal) (f : State → α) : Option α :=
  match o with
  | .next t => some (f t)
  | .fault _ => none
  | .refused _ => none

/-- `x3` after the instruction `i` with `x1 = a`, `x2 = b`. -/
def Test.x3 (i : Instr) (a b : Word) : Option Word :=
  Test.after (exec i (Test.at [] a b)) (fun t => t.reg 3)

/-- `n` bits from an integer, for signed operands. -/
def Test.int (n : Nat) (v : Int) : BitVec n := BitVec.ofInt n v

/-! ### WellFormed: one ill-formed term per check (R73: immB and immJ are even) -/

theorem test_wellFormed_jal_odd : Instr.wellFormed (.jal 1 5) = false := by decide
theorem test_wellFormed_beq_odd : Instr.wellFormed (.beq 1 2 3) = false := by decide
theorem test_wellFormed_bne_odd : Instr.wellFormed (.bne 1 2 (Test.int 13 (-1))) = false := by decide
theorem test_wellFormed_blt_odd : Instr.wellFormed (.blt 1 2 1) = false := by decide
theorem test_wellFormed_bge_odd : Instr.wellFormed (.bge 1 2 4095) = false := by decide
theorem test_wellFormed_bltu_odd : Instr.wellFormed (.bltu 1 2 7) = false := by decide
theorem test_wellFormed_bgeu_odd : Instr.wellFormed (.bgeu 1 2 9) = false := by decide
theorem test_wellFormed_even : Instr.wellFormed (.bgeu 1 2 (Test.int 13 (-4096))) = true ∧
    Instr.wellFormed (.jal 0 1048574) = true := by decide

/-! ### Decoding: every row's word (section 2.2) and the immediates' corners (section 2.1) -/

theorem test_decode_upper :
    decode 0x123452B7#32 = .ok (.lui 5 0x12345) ∧
    decode 0xFFFFF2B7#32 = .ok (.lui 5 0xFFFFF) ∧
    decode 0x00001297#32 = .ok (.auipc 5 0x1) := by decide

theorem test_decode_jumps :
    decode 0x00C000EF#32 = .ok (.jal 1 12) ∧
    decode 0xFF9FF0EF#32 = .ok (.jal 1 (Test.int 21 (-8))) ∧
    decode 0x001000EF#32 = .ok (.jal 1 2048) ∧
    decode 0x8000006F#32 = .ok (.jal 0 (Test.int 21 (-1048576))) ∧
    decode 0x7FFFF06F#32 = .ok (.jal 0 1048574) ∧
    decode 0x00008067#32 = .ok (.jalr 0 1 0) ∧
    decode 0xFFC100E7#32 = .ok (.jalr 1 2 (Test.int 12 (-4))) ∧
    decode 0x7FF28067#32 = .ok (.jalr 0 5 2047) := by decide

theorem test_decode_branches :
    decode 0x00208863#32 = .ok (.beq 1 2 16) ∧
    decode 0xFE208EE3#32 = .ok (.beq 1 2 (Test.int 13 (-4))) ∧
    decode 0x00209863#32 = .ok (.bne 1 2 16) ∧
    decode 0x0020C863#32 = .ok (.blt 1 2 16) ∧
    decode 0x8020C063#32 = .ok (.blt 1 2 (Test.int 13 (-4096))) ∧
    decode 0x0020D863#32 = .ok (.bge 1 2 16) ∧
    decode 0x7E20DFE3#32 = .ok (.bge 1 2 4094) ∧
    decode 0x0020E863#32 = .ok (.bltu 1 2 16) ∧
    decode 0x0020F863#32 = .ok (.bgeu 1 2 16) := by decide

theorem test_decode_loads :
    decode 0x01000303#32 = .ok (.lb 6 0 16) ∧
    decode 0x01201403#32 = .ok (.lh 8 0 18) ∧
    decode 0xFFE11403#32 = .ok (.lh 8 2 (Test.int 12 (-2))) ∧
    decode 0x00052283#32 = .ok (.lw 5 10 0) ∧
    decode 0x80012083#32 = .ok (.lw 1 2 (Test.int 12 (-2048))) ∧
    decode 0x01304383#32 = .ok (.lbu 7 0 19) ∧
    decode 0x01005483#32 = .ok (.lhu 9 0 16) := by decide

theorem test_decode_stores :
    decode 0x00250023#32 = .ok (.sb 2 10 0) ∧
    decode 0x00A01B23#32 = .ok (.sh 10 0 22) ∧
    decode 0x00502823#32 = .ok (.sw 5 0 16) ∧
    decode 0xFE312E23#32 = .ok (.sw 3 2 (Test.int 12 (-4))) ∧
    decode 0x7E112FA3#32 = .ok (.sw 1 2 2047) := by decide

theorem test_decode_immediates :
    decode 0x00500093#32 = .ok (.addi 1 0 5) ∧
    decode 0x80008193#32 = .ok (.addi 3 1 (Test.int 12 (-2048))) ∧
    decode 0xFFF0A193#32 = .ok (.slti 3 1 (Test.int 12 (-1))) ∧
    decode 0x0010B193#32 = .ok (.sltiu 3 1 1) ∧
    decode 0xFFF0C193#32 = .ok (.xori 3 1 (Test.int 12 (-1))) ∧
    decode 0x7FF0E193#32 = .ok (.ori 3 1 2047) ∧
    decode 0x0F00F193#32 = .ok (.andi 3 1 240) := by decide

theorem test_decode_immediate_shifts :
    decode 0x01009193#32 = .ok (.slli 3 1 16) ∧
    decode 0x01F09193#32 = .ok (.slli 3 1 31) ∧
    decode 0x0040D193#32 = .ok (.srli 3 1 4) ∧
    decode 0x4040D193#32 = .ok (.srai 3 1 4) ∧
    decode 0x41F0D193#32 = .ok (.srai 3 1 31) := by decide

theorem test_decode_registers :
    decode 0x002081B3#32 = .ok (.add 3 1 2) ∧
    decode 0x402081B3#32 = .ok (.sub 3 1 2) ∧
    decode 0x002091B3#32 = .ok (.sll 3 1 2) ∧
    decode 0x0020A1B3#32 = .ok (.slt 3 1 2) ∧
    decode 0x0020B1B3#32 = .ok (.sltu 3 1 2) ∧
    decode 0x0020C1B3#32 = .ok (.xor 3 1 2) ∧
    decode 0x0020D1B3#32 = .ok (.srl 3 1 2) ∧
    decode 0x4020D1B3#32 = .ok (.sra 3 1 2) ∧
    decode 0x0020E1B3#32 = .ok (.or 3 1 2) ∧
    decode 0x0020F1B3#32 = .ok (.and 3 1 2) := by decide

/-- Section 2.3. -/
theorem test_decode_rejects :
    decode 0x00000000#32 = .error .unknownOpcode ∧
    decode 0xFFFFFFFF#32 = .error .unknownOpcode ∧
    decode 0x0000000F#32 = .error .unknownOpcode ∧
    decode 0x0000100F#32 = .error .unknownOpcode ∧
    decode 0x00000073#32 = .error .unknownOpcode ∧
    decode 0x00100073#32 = .error .unknownOpcode ∧
    decode 0x00001073#32 = .error .unknownOpcode ∧
    decode 0x0000001B#32 = .error .unknownOpcode ∧
    decode 0x0000003B#32 = .error .unknownOpcode ∧
    decode 0x00000011#32 = .error .unknownOpcode ∧
    decode 0x02208033#32 = .error .opFunct ∧
    decode 0x40001033#32 = .error .opFunct ∧
    decode 0x20005033#32 = .error .opFunct ∧
    decode 0x40001013#32 = .error .shiftFunct7 ∧
    decode 0x02101093#32 = .error .shiftFunct7 ∧
    decode 0x02005013#32 = .error .shiftFunct7 ∧
    decode 0x00003003#32 = .error .loadFunct3 ∧
    decode 0x00006003#32 = .error .loadFunct3 ∧
    decode 0x00003023#32 = .error .storeFunct3 ∧
    decode 0x00002063#32 = .error .branchFunct3 ∧
    decode 0x00003063#32 = .error .branchFunct3 ∧
    decode 0x00001067#32 = .error .jalrFunct3 := by decide

/-- The encoder, against words the spec writes out (section 2.1). -/
theorem test_encode :
    encode (.sw 3 2 (Test.int 12 (-4))) = 0xFE312E23#32 ∧
    encode (.bge 1 2 4094) = 0x7E20DFE3#32 ∧ encode (.jal 0 (Test.int 21 (-1048576))) = 0x8000006F#32 ∧
    encode (.lui 5 0x12345) = 0x123452B7#32 ∧ encode (.srai 3 1 31) = 0x41F0D193#32 ∧
    encode (.sub 3 1 2) = 0x402081B3#32 ∧ encode (.jalr 0 5 2047) = 0x7FF28067#32 := by decide

/-! ### Instructions, one step each (sections 3 to 5) -/

theorem test_add :
    Test.x3 (.add 3 1 2) 0x7FFFFFFF#32 0x00000001#32 = some 0x80000000#32 ∧
    Test.x3 (.add 3 1 2) 0xFFFFFFFF#32 0x00000001#32 = some 0x00000000#32 := by decide

theorem test_sub :
    Test.x3 (.sub 3 1 2) 0x00000000#32 0x00000001#32 = some 0xFFFFFFFF#32 ∧
    Test.x3 (.sub 3 1 2) 0x80000000#32 0x00000001#32 = some 0x7FFFFFFF#32 := by decide

theorem test_sll :
    Test.x3 (.sll 3 1 2) 0x00000001#32 0x00000020#32 = some 0x00000001#32 ∧
    Test.x3 (.sll 3 1 2) 0xFFFFFFFF#32 0x0000003F#32 = some 0x80000000#32 := by decide

theorem test_slt :
    Test.x3 (.slt 3 1 2) 0x80000000#32 0x7FFFFFFF#32 = some 0x00000001#32 ∧
    Test.x3 (.slt 3 1 2) 0x7FFFFFFF#32 0x80000000#32 = some 0x00000000#32 := by decide

theorem test_sltu :
    Test.x3 (.sltu 3 1 2) 0x80000000#32 0x7FFFFFFF#32 = some 0x00000000#32 ∧
    Test.x3 (.sltu 3 1 2) 0x00000000#32 0x00000001#32 = some 0x00000001#32 := by decide

theorem test_xor :
    Test.x3 (.xor 3 1 2) 0xFF00FF00#32 0x0FF00FF0#32 = some 0xF0F0F0F0#32 ∧
    Test.x3 (.xor 3 1 2) 0xAAAAAAAA#32 0xAAAAAAAA#32 = some 0x00000000#32 := by decide

theorem test_srl :
    Test.x3 (.srl 3 1 2) 0x80000000#32 0x0000001F#32 = some 0x00000001#32 ∧
    Test.x3 (.srl 3 1 2) 0x12345678#32 0x00000104#32 = some 0x01234567#32 := by decide

theorem test_sra :
    Test.x3 (.sra 3 1 2) 0x80000000#32 0x0000001F#32 = some 0xFFFFFFFF#32 ∧
    Test.x3 (.sra 3 1 2) 0x7FFFFFFF#32 0x00000004#32 = some 0x07FFFFFF#32 := by decide

theorem test_or :
    Test.x3 (.or 3 1 2) 0xFF00FF00#32 0x0FF00FF0#32 = some 0xFFF0FFF0#32 := by decide

theorem test_and :
    Test.x3 (.and 3 1 2) 0xFF00FF00#32 0x0FF00FF0#32 = some 0x0F000F00#32 := by decide

theorem test_addi :
    Test.x3 (.addi 3 1 (Test.int 12 (-2048))) 0x00000005#32 0x00000000#32 = some 0xFFFFF805#32 ∧
    Test.x3 (.addi 3 1 2047) 0xFFFFFFFF#32 0x00000000#32 = some 0x000007FE#32 := by decide

theorem test_slti :
    Test.x3 (.slti 3 1 (Test.int 12 (-1))) 0xFFFFFFFE#32 0x00000000#32 = some 0x00000001#32 ∧
    Test.x3 (.slti 3 1 5) 0x00000005#32 0x00000000#32 = some 0x00000000#32 := by decide

theorem test_sltiu :
    Test.x3 (.sltiu 3 1 (Test.int 12 (-1))) 0x00000005#32 0x00000000#32 = some 0x00000001#32 ∧
    Test.x3 (.sltiu 3 1 (Test.int 12 (-1))) 0xFFFFFFFF#32 0x00000000#32 = some 0x00000000#32 := by decide

theorem test_xori :
    Test.x3 (.xori 3 1 (Test.int 12 (-1))) 0x12345678#32 0x00000000#32 = some 0xEDCBA987#32 ∧
    Test.x3 (.xori 3 1 255) 0x0F0F0F0F#32 0x00000000#32 = some 0x0F0F0FF0#32 := by decide

theorem test_ori :
    Test.x3 (.ori 3 1 (Test.int 12 (-2048))) 0x12345678#32 0x00000000#32 = some 0xFFFFFE78#32 := by decide

theorem test_andi :
    Test.x3 (.andi 3 1 240) 0x12345678#32 0x00000000#32 = some 0x00000070#32 ∧
    Test.x3 (.andi 3 1 (Test.int 12 (-2048))) 0xFFFFFFFF#32 0x00000000#32 = some 0xFFFFF800#32 := by decide

theorem test_slli :
    Test.x3 (.slli 3 1 31) 0x00000001#32 0x00000000#32 = some 0x80000000#32 ∧
    Test.x3 (.slli 3 1 0) 0x00000001#32 0x00000000#32 = some 0x00000001#32 := by decide

theorem test_srli :
    Test.x3 (.srli 3 1 4) 0xF0000000#32 0x00000000#32 = some 0x0F000000#32 := by decide

theorem test_srai :
    Test.x3 (.srai 3 1 4) 0xF0000000#32 0x00000000#32 = some 0xFF000000#32 ∧
    Test.x3 (.srai 3 1 31) 0x80000000#32 0x00000000#32 = some 0xFFFFFFFF#32 := by decide

theorem test_lui :
    Test.x3 (.lui 3 0xFFFFF) 0x00000000#32 0x00000000#32 = some 0xFFFFF000#32 := by decide

/-- Section 3.4: AUIPC at `0x08`. -/
theorem test_auipc : Test.after (exec (.auipc 5 0xFFFFF) { Test.at [] 0 0 with pc := 8 })
    (fun t => (t.reg 5, t.pc)) = some (0xFFFFF008#32, 0x0C#32) := by decide

/-- Section 1, P8: a write to `x0` is discarded. -/
theorem test_addi_x0 : Test.after (exec (.addi 0 0 5) (Test.at [] 0 0)) (fun t => (t.reg 0, t.pc))
    = some (0#32, 4#32) := by decide

/-- Section 4.1, at `0x20` with offset 16: taken, then not taken. -/
theorem test_beq :
    Test.after (exec (.beq 1 2 16) { Test.at [] 0x00000005#32 0x00000005#32 with pc := 0x20 }) (fun t => t.pc) = some 0x00000030#32 ∧
    Test.after (exec (.beq 1 2 16) { Test.at [] 0xFFFFFFFF#32 0x00000001#32 with pc := 0x20 }) (fun t => t.pc) = some 0x00000024#32 := by decide

/-- Section 4.1, at `0x20` with offset 16: taken, then not taken. -/
theorem test_bne :
    Test.after (exec (.bne 1 2 16) { Test.at [] 0xFFFFFFFF#32 0x00000001#32 with pc := 0x20 }) (fun t => t.pc) = some 0x00000030#32 ∧
    Test.after (exec (.bne 1 2 16) { Test.at [] 0x00000005#32 0x00000005#32 with pc := 0x20 }) (fun t => t.pc) = some 0x00000024#32 := by decide

/-- Section 4.1, at `0x20` with offset 16: taken, then not taken. -/
theorem test_blt :
    Test.after (exec (.blt 1 2 16) { Test.at [] 0xFFFFFFFF#32 0x00000001#32 with pc := 0x20 }) (fun t => t.pc) = some 0x00000030#32 ∧
    Test.after (exec (.blt 1 2 16) { Test.at [] 0x00000005#32 0x00000005#32 with pc := 0x20 }) (fun t => t.pc) = some 0x00000024#32 := by decide

/-- Section 4.1, at `0x20` with offset 16: taken, then not taken. -/
theorem test_bge :
    Test.after (exec (.bge 1 2 16) { Test.at [] 0x00000005#32 0x00000005#32 with pc := 0x20 }) (fun t => t.pc) = some 0x00000030#32 ∧
    Test.after (exec (.bge 1 2 16) { Test.at [] 0xFFFFFFFF#32 0x00000001#32 with pc := 0x20 }) (fun t => t.pc) = some 0x00000024#32 := by decide

/-- Section 4.1, at `0x20` with offset 16: taken, then not taken. -/
theorem test_bltu :
    Test.after (exec (.bltu 1 2 16) { Test.at [] 0x7FFFFFFF#32 0x80000000#32 with pc := 0x20 }) (fun t => t.pc) = some 0x00000030#32 ∧
    Test.after (exec (.bltu 1 2 16) { Test.at [] 0x00000005#32 0x00000005#32 with pc := 0x20 }) (fun t => t.pc) = some 0x00000024#32 := by decide

/-- Section 4.1, at `0x20` with offset 16: taken, then not taken. -/
theorem test_bgeu :
    Test.after (exec (.bgeu 1 2 16) { Test.at [] 0x00000005#32 0x00000005#32 with pc := 0x20 }) (fun t => t.pc) = some 0x00000030#32 ∧
    Test.after (exec (.bgeu 1 2 16) { Test.at [] 0x7FFFFFFF#32 0x80000000#32 with pc := 0x20 }) (fun t => t.pc) = some 0x00000024#32 := by decide

/-- Section 4.1: `beq x1, x2, -4` at `0x20` goes to `0x1C`, `blt x1, x2, -4096` wraps. -/
theorem test_branch_backwards :
    Test.after (exec (.beq 1 2 (Test.int 13 (-4))) { Test.at [] 0 0 with pc := 0x20 }) (fun t => t.pc)
      = some 0x1C#32 ∧
    Test.after (exec (.blt 1 2 (Test.int 13 (-4096))) { Test.at [] 0 1 with pc := 0x20 })
      (fun t => t.pc) = some 0xFFFFF020#32 := by decide

/-- Section 4.6: the link is `pc + 4`, the target `pc + 8`. -/
theorem test_jal : Test.after (exec (.jal 1 8) (Test.at [] 0 0)) (fun t => (t.reg 1, t.pc))
    = some (4#32, 8#32) := by decide

/-- Section 4.7 (a), and bit 0 of a JALR target is cleared with `rd = rs1` (R159). -/
theorem test_jalr :
    Test.after (exec (.jalr 5 1 0) { Test.at [] 12 0 with pc := 4 }) (fun t => (t.reg 5, t.pc))
      = some (8#32, 12#32) ∧
    Test.after (exec (.jalr 1 1 5) (Test.at [] 0x100 0)) (fun t => (t.reg 1, t.pc))
      = some (4#32, 0x104#32) := by decide
/-! ### Loads and stores (sections 5.1 and 5.2): `DMEM[0] = 0xAABBCCDD`, base `x2 = 0` -/

/-- Memory with one word at address 0. -/
def Test.mem (v : Word) : Memory := Memory.ofWords [(0, v)]

/-- `x1` after a load at the given memory. -/
def Test.load (v : Word) (i : Instr) : Option Word :=
  Test.after (exec i { Test.at [] 0 0 with dmem := Test.mem v }) (fun t => t.reg 1)

/-- `DMEM[0]` after a store of `x1 = 0x11223344`. -/
def Test.store (i : Instr) : Option Word :=
  Test.after (exec i { Test.at [] 0x11223344 0 with dmem := Test.mem 0xAABBCCDD })
    (fun t => readWord t.dmem 0)

theorem test_lb : Test.load 0xAABBCCDD (.lb 1 2 1) = some 0xFFFFFFCC#32 ∧
    Test.load 0x80FF7F01 (.lb 1 2 3) = some 0xFFFFFF80#32 := by decide
theorem test_lbu : Test.load 0xAABBCCDD (.lbu 1 2 3) = some 0x000000AA#32 ∧
    Test.load 0x80FF7F01 (.lbu 1 2 2) = some 0x000000FF#32 := by decide
theorem test_lh : Test.load 0xAABBCCDD (.lh 1 2 1) = some 0xFFFFBBCC#32 ∧
    Test.load 0x80FF7F01 (.lh 1 2 0) = some 0x00007F01#32 := by decide
theorem test_lhu : Test.load 0xAABBCCDD (.lhu 1 2 2) = some 0x0000AABB#32 ∧
    Test.load 0x80FF7F01 (.lhu 1 2 1) = some 0x0000FF7F#32 := by decide
theorem test_lw : Test.load 0xAABBCCDD (.lw 1 2 0) = some 0xAABBCCDD#32 ∧
    Test.load 0xAABBCCDD (.lw 1 2 3) = some 0xAABBCCDD#32 := by decide
theorem test_sb : Test.store (.sb 1 2 1) = some 0xAABB44DD#32 ∧
    Test.store (.sb 1 2 3) = some 0x44BBCCDD#32 := by decide
theorem test_sh : Test.store (.sh 1 2 1) = some 0xAA3344DD#32 ∧
    Test.store (.sh 1 2 3) = some 0xAABBCCDD#32 := by decide
theorem test_sw : Test.store (.sw 1 2 0) = some 0x11223344#32 ∧
    Test.store (.sw 1 2 3) = some 0x11223344#32 := by decide

/-- Section 5.4, permissive: the halfword at offset 3 gives 0 and one diagnostic. -/
theorem test_lh_permissive : Test.after
    (exec (.lh 1 0 3) { Test.at [] 0x77 0 with
      cfg := { Params.default with permissive := true }, dmem := Test.mem 0xAABBCCDD })
    (fun t => (t.reg 1, t.pc, t.diags, t.faultHalt))
    = some (0#32, 4#32, [⟨.memoryMisaligned, 1, 0#32, 3#32⟩], false) := by decide

/-! ### Ticks -/

/-- Section 1, P4 (a): a load, a branch on it, two additions. -/
def Test.p4 (k : Nat) : State :=
  steps k (Test.at [0x00052083, 0x00008463, 0x00100113, 0x00100193] 0 0)

/-- Section 1, P6: a JAL over one instruction. -/
def Test.p6 (k : Nat) : State :=
  steps k (Test.at [0x00C0006F, 0x00100093, 0x00200113, 0x00300193] 0 0)

/-- Section 7.1 cut short: an addition, then an unrecognized word. -/
def Test.p71 (k : Nat) : State := steps k (Test.at [0x00100093, 0x0000000F, 0x00200113] 0 0)

/-- Section 7.2 or 7.3 cut short: `x1 = 64`, a store out of range, an addition. -/
def Test.p72 (permissive : Bool) (k : Nat) : State :=
  steps k (resetWith { (Test.at [0x0030A023, 0x00200113] 64 0).cfg with
    dmemBytes := 64, permissive := permissive })

/-- Section 7.4 cut short: a JALR to the halt target. -/
def Test.p74 (k : Nat) : State :=
  steps k (resetWith { (Test.at [0x00008067, 0x00300193] 0x7FC 0).cfg with
    haltTarget := some 0x7FC })

/-- Section 5.2: a store word that completes (`sw x1, 0(x2)`). -/
def Test.pStore (k : Nat) : State := steps k (Test.at [0x00112023, 0x00100093] 0x11223344 0)

/-- Section 4.7 (f): a JAL to a misaligned target, in a one-word image. -/
def Test.p47 (k : Nat) : State := steps k (Test.at [0x0060006F] 0 0)

/-- A run whose last-word JAL jumps back (`+8`, out of the image, `-4`), so its redirect finds `pc` past
the image. -/
def Test.pBack (k : Nat) : State := steps k (Test.at [0x0080006F, 0x0640006F, 0xFFDFF06F] 0 0)

/-- P4, t3: the load is in ID/EX, the branch stalls. -/
theorem test_tick_stall : (driverStep (Test.p4 2)).events =
    [(0x00#32, .EX), (0x04#32, .STALL)] ∧ (driverStep (Test.p4 2)).next.pc = 8 := by decide

/-- P6, t2: the JAL redirects and squashes the fetch of that tick. -/
theorem test_tick_redirect : (driverStep (Test.p6 1)).events = [(0x00#32, .ID), (0x04#32, .IF)] ∧
    (driverStep (Test.p6 1)).next.ifid = .squashed 4 ∧ (driverStep (Test.p6 1)).next.pc = 0x0C := by
  decide

/-- Section 4.7 (f), t2: FetchMisaligned with the pc of the JAL and its target; the core then drains. -/
theorem test_tick_fetchMisaligned :
    (driverStep (Test.p47 1)).diags = [⟨.fetchMisaligned, 2, 0, 6⟩] ∧
    (driverStep (Test.p47 1)).next.pc = 6 ∧ (Test.p47 5).drv = .halted := by decide

/-- Section 7.1, t3: a DecodeFault is reported and Fetch goes on. -/
theorem test_tick_decodeFault :
    (driverStep (Test.p71 2)).diags = [⟨.decodeFault, 3, 4, 0x0000000F#32⟩] ∧
    (driverStep (Test.p71 2)).next.idex = none ∧ (driverStep (Test.p71 2)).next.pc = 0x0C := by
  decide

/-- Section 7.2: the fault turns the store into a bubble and halts the core; the younger instruction is
frozen in EX/MEM. -/
theorem test_tick_strictFault : (driverStep (Test.p72 false 3)).next.drv = .halted ∧
    (driverStep (Test.p72 false 3)).next.memwb = none ∧
    (driverStep (Test.p72 false 3)).diags = [⟨.memoryOutOfRange, 4, 0, 0x40⟩] ∧
    (driverStep (Test.p72 false 3)).next.exmem.map (fun e => e.aluResult) = some 2#32 := by decide

/-- Section 7.4: the redirect to the halt target sets the halt flag. -/
theorem test_tick_haltTarget : (driverStep (Test.p74 1)).next.haltFlag = true ∧
    (driverStep (Test.p74 1)).next.pc = 0x7FC ∧ (driverStep (Test.p74 1)).next.drv = .draining := by
  decide

/-- Section 1, P1: the last instruction's Writeback ends the run. -/
theorem test_tick_writeback : (steps 5 (Test.at [0x00100093] 0 0)).drv = .halted ∧
    (steps 5 (Test.at [0x00100093] 0 0)).reg 1 = 1 ∧
    (steps 4 (Test.at [0x00100093] 0 0)).drv = .draining := by decide

/-- Section 7.5. -/
theorem test_run_errors : (match run 5 State.reset with
      | .fault f => some f
      | .next _ => none
      | .refused _ => none) = some (.configurationError .emptyImage) ∧
    (match run 0 (Test.p4 0) with
      | .fault f => some f
      | .next _ => none
      | .refused _ => none) = some (.configurationError .nonPositiveBudget) := by decide

/-- The state of the model with the first `step` on a placed word: it is issued. -/
theorem test_withFetchWord : Test.after (step (State.reset.withFetchWord 32 0x00500093))
    (fun t => (t.idex.map (fun x => (x.pc, x.d.rd, x.d.imm)), t.pc)) = some (some (0, 1, 5), 4) := by
  decide

/-- The host's machine steps by `step`. -/
theorem test_core_reset : Memory.wf State.reset.dmem ∧ State.reset.drv = .halted := by decide

/-! ### Witnesses: states that meet the hypotheses of the statements -/

/-- The pipeline invariant as a check. -/
def Test.fromImage (cfg : Params) (p : Word) (d : Descriptor) : Bool :=
  match fetch cfg p with
  | none => false
  | some w => decide (decodeDescriptor w = .ok d)

def Test.inv (s : State) : Bool :=
  (match s.ifid with
    | .instr p w => decide (fetch s.cfg p = some w) && decide (s.pc = p + 4) && !s.haltFlag
    | .squashed _ => true
    | .bubble => true) &&
  (match s.idex with
    | none => true
    | some x => Test.fromImage s.cfg x.pc x.d && decide (x.rs1val = s.reg x.d.rs1) &&
      decide (x.rs2val = s.reg x.d.rs2) &&
      (match s.exmem with
        | none => true
        | some e => !e.d.memRead || !readsReg x.d e.d.rd)) &&
  (match s.exmem with
    | none => true
    | some e => Test.fromImage s.cfg e.pc e.d) &&
  (match s.memwb with
    | none => true
    | some m => Test.fromImage s.cfg m.pc m.d && !s.faultHalt) &&
  decide (s.drv = drvState s)

theorem Test.fromImage_sound {cfg : Params} {p : Word} {d : Descriptor}
    (h : Test.fromImage cfg p d = true) : FromImage cfg p d := by
  unfold Test.fromImage at h
  split at h
  · cases h
  · rename_i w hw
    exact ⟨w, hw, by simpa using h⟩

theorem Test.inv_sound {s : State} (h : Test.inv s = true) : PipeInv s := by
  simp only [Test.inv, Bool.and_eq_true, decide_eq_true_eq] at h
  obtain ⟨⟨⟨⟨h1, h2⟩, h3⟩, h4⟩, h5⟩ := h
  refine ⟨?_, ?_, ?_, ?_, ?_, ?_, ?_, h5⟩
  · intro p w hi
    simp only [hi, Bool.and_eq_true, decide_eq_true_eq, Bool.not_eq_true'] at h1
    exact ⟨h1.1.1, h1.1.2, h1.2⟩
  · intro x hx
    simp only [hx, Bool.and_eq_true] at h2
    exact Test.fromImage_sound h2.1.1.1
  · intro e he
    simp only [he] at h3
    exact Test.fromImage_sound h3
  · intro m hm
    simp only [hm, Bool.and_eq_true] at h4
    exact Test.fromImage_sound h4.1
  · intro x hx
    simp only [hx, Bool.and_eq_true, decide_eq_true_eq] at h2
    exact ⟨h2.1.1.2, h2.1.2⟩
  · intro x e hx he hm
    simp only [hx, he, hm, Bool.and_eq_true] at h2
    simpa using h2.2
  · intro hf
    by_contra hn
    obtain ⟨m, hm⟩ := Option.ne_none_iff_exists'.mp hn
    simp only [hm, hf, Bool.and_eq_true] at h4
    simp at h4

theorem witness_DecodeOfEncodeIsIdentity :
    Instr.wellFormed (.bgeu 1 2 (Test.int 13 (-4096))) = true ∧
    Instr.wellFormed (.jal 31 1048574) = true := by decide

theorem witness_EncodeOfDecodeIsIdentity : decode 0x7E20DFE3#32 = .ok (.bge 1 2 4094) := by decide

theorem witness_DecoderMatchesTheOpcodeTable :
    decode 0x00008067#32 = .ok (.jalr 0 1 0) ∧
    ∃ r ∈ opcodeTable, 0x00008067#32 &&& r.mask = r.bits := by decide

theorem witness_DescriptorFollowsTheOpcode :
    decodeDescriptor 0x402081B3#32 = .ok (describe (.sub 3 1 2) 0x402081B3#32) := by decide

/-- Each class of `OpClass` occurs. -/
theorem witness_DescriptorFollowsTheOpcode_classes :
    [0x002081B3#32, 0x00500093#32, 0x00052283#32, 0x00502823#32, 0x00208863#32, 0x00C000EF#32,
      0x00008067#32, 0x123452B7#32, 0x00001297#32].map
      (fun w => (decodeDescriptor w).toOption.map (fun d => d.cls))
    = [.op, .opImm, .load, .store, .branch, .jal, .jalr, .lui, .auipc].map some := by decide

theorem witness_AluOpFollowsTheFunctFields :
    (0x402081B3#32).extractLsb' 0 7 = 0x33#7 ∧ (0x41F0D193#32).extractLsb' 0 7 = 0x13#7 := by decide

theorem witness_AccessWidthFollowsFunct3 :
    (0x01005483#32).extractLsb' 0 7 = 0x03#7 ∧ (0x00A01B23#32).extractLsb' 0 7 = 0x23#7 ∧
    (0x00003003#32).extractLsb' 12 3 ∈ [3#3, 6#3, 7#3] ∧
    (0x00003023#32).extractLsb' 12 3 ∉ [0#3, 1#3, 2#3] := by decide

/-- Each branch condition is met, and fails, at some pair (section 4.1). -/
theorem witness_BranchesComplete :
    (5#32 = 5#32 ∧ 5#32 ≠ 1#32) ∧
    ((0x80000000#32).toInt < (0x7FFFFFFF#32).toInt ∧ (0x7FFFFFFF#32).toInt ≥ (0x80000000#32).toInt) ∧
    ((0x7FFFFFFF#32).toNat < (0x80000000#32).toNat ∧
      (0x80000000#32).toNat ≥ (0x7FFFFFFF#32).toNat) := by decide

/-- The last word of a 64-byte memory, and the last word of the whole space. -/
theorem witness_LoadsComplete :
    (effectiveAddress (Test.p72 false 0) 1 (Test.int 12 (-2))).toNat = 62 ∧
    62 / 4 * 4 < (Test.p72 false 0).cfg.dmemBytes ∧ 62 % 4 ≠ 3 ∧
    (effectiveAddress (Test.at [] 0 0) 1 (Test.int 12 (-1))).toNat / 4 * 4
      < (Test.at [] 0 0).cfg.dmemBytes := by decide

theorem witness_StoresComplete : Memory.wf (Test.p72 false 0).dmem ∧
    Memory.wf (Test.mem 0xAABBCC00) ∧
    (effectiveAddress (Test.p72 false 0) 1 (Test.int 12 (-2))).toNat / 4 * 4
      < (Test.p72 false 0).cfg.dmemBytes ∧
    (effectiveAddress (Test.p72 false 0) 1 (Test.int 12 (-2))).toNat % 4 ≠ 3 := by decide

theorem witness_AccessFaultsExactlyWhen : Params.default.dmemBytes = 2 ^ 32 ∧
    accessFault (Test.p72 false 0).cfg 64 .byte = some .outOfRange ∧
    accessFault (Test.p72 false 0).cfg 63 .half = some .misaligned ∧
    accessFault (Test.p72 false 0).cfg 67 .half = some .outOfRange ∧
    accessFault (Test.p72 false 0).cfg 63 .word = none := by decide

theorem witness_StrictFaultsWriteNothing : (Test.p72 false 0).cfg.permissive = false ∧
    accessFault (Test.p72 false 0).cfg (effectiveAddress (Test.p72 false 0) 1 0) .byte
      = some .outOfRange ∧
    accessFault (Test.p72 false 0).cfg (effectiveAddress (Test.p72 false 0) 1 (Test.int 12 (-1)))
      .half = some .misaligned ∧
    accessFault (Test.p72 false 0).cfg (effectiveAddress (Test.p72 false 0) 1 3) .word
      = some .outOfRange := by decide

theorem witness_PermissiveFaultsContinue : (Test.p72 true 0).cfg.permissive = true ∧
    accessFault (Test.p72 true 0).cfg (effectiveAddress (Test.p72 true 0) 1 0) .byte
      = some .outOfRange ∧
    accessFault (Test.p72 true 0).cfg (effectiveAddress (Test.p72 true 0) 1 (Test.int 12 (-1)))
      .half = some .misaligned ∧
    accessFault (Test.p72 true 0).cfg (effectiveAddress (Test.p72 true 0) 1 3) .word
      = some .outOfRange := by decide

/-- Every class without one of the exempted effects, and with it. -/
theorem witness_InstructionsTouchOnlyTheirOwnState :
    (∃ t, exec (.add 3 1 2) (Test.p4 0) = .next t) ∧ destOf (.add 3 1 2) ≠ some 4 ∧
    Instr.cls (.add 3 1 2) ≠ .store ∧ Instr.cls (.add 3 1 2) ≠ .load ∧
    Instr.cls (.add 3 1 2) ≠ .branch ∧ Instr.cls (.add 3 1 2) ≠ .jal ∧
    Instr.cls (.add 3 1 2) ≠ .jalr := ⟨⟨_, rfl⟩, by decide⟩

theorem witness_AccessesTouchOnlyTheirWord : Memory.wf (Test.mem 0xAABBCCDD) ∧
    containing 4 ≠ containing 3 ∧
    readWord (Test.mem 0xAABBCCDD) (containing 3) =
      readWord (Memory.ofWords [(4, 1), (0, 0xAABBCCDD)]) (containing 3) := by decide

theorem witness_LoadReadsLatestStore : Memory.wf (Test.mem 0xAABBCCDD) ∧
    ¬(Size.half = .half ∧ offset 2 = 3) ∧ (4#32).toNat ≥ (2#32).toNat / 4 * 4 + 4 ∧
    (Size.half ≠ .word ∧ (1#32).toNat < (2#32).toNat) := by decide

theorem witness_DataMemoryStaysCanonical : Memory.wf (Test.pStore 3).dmem ∧
    (∃ t, step (Test.pStore 3) = .next t) ∧ (∃ t, exec (.sw 1 2 0) (Test.pStore 3) = .next t) :=
  ⟨by decide, ⟨_, rfl⟩, ⟨_, rfl⟩⟩

theorem witness_DataMemoryStaysInRange : (Test.p72 false 3).cfg.dmemBytes % 4 = 0 ∧
    (∀ c ∈ (Test.p72 false 3).dmem, c.1 < (Test.p72 false 3).cfg.dmemBytes) ∧
    ∃ t, step (Test.p72 false 3) = .next t := ⟨by decide, by decide, _, rfl⟩

/-- The two cases: a store that faults, and a store that is done. -/
theorem witness_OnlyStoresChangeDataMemory :
    PipeInv (Test.p72 false 3) ∧ (Test.p72 false 3).drv ≠ .halted ∧
    (Test.p72 false 3).exmem.map (fun e => e.d.memWrite) = some true ∧
    PipeInv (Test.pStore 3) ∧ (Test.pStore 3).drv ≠ .halted ∧
    (Test.pStore 3).exmem.map (fun e => accessFault (Test.pStore 3).cfg e.aluResult .word)
      = some none :=
  ⟨Test.inv_sound (by decide), by decide, by decide, Test.inv_sound (by decide), by decide,
    by decide⟩

theorem witness_FetchNeverChanges : (∃ t, step (Test.p4 0) = .next t) ∧
    ∃ t, exec (.sw 1 2 0) (Test.p4 0) = .next t := ⟨⟨_, rfl⟩, ⟨_, rfl⟩⟩

theorem witness_RegisterZeroStaysZero : (Test.p4 4).reg 0 = 0 ∧ (∃ t, step (Test.p4 4) = .next t) ∧
    ∃ t, exec (.addi 0 0 5) (Test.p4 4) = .next t := ⟨by decide, ⟨_, rfl⟩, ⟨_, rfl⟩⟩

/-- A load in MEM/WB, and an empty MEM/WB. -/
theorem witness_WritebackIsTheOnlyRegisterWrite :
    (Test.p4 4).drv ≠ .halted ∧ (Test.p4 4).memwb.map (fun m => (m.d.regWrite, m.d.memRead, m.d.rd))
      = some (true, true, 1) ∧ (∃ t, step (Test.p4 4) = .next t) ∧
    (Test.p4 0).drv ≠ .halted ∧ (Test.p4 0).memwb = none :=
  ⟨by decide, by decide, ⟨_, rfl⟩, by decide, by decide⟩

/-- A stall, a redirect, a fetch, and a pc past the image. -/
theorem witness_PcChangesInPriorityOrder :
    ((Test.p4 2).drv ≠ .halted ∧ (Test.p4 2).decodeOut.stall = true) ∧
    ((Test.p6 1).drv ≠ .halted ∧ (Test.p6 1).decodeOut.stall = false ∧
      (Test.p6 1).decodeOut.redirect = some 12) ∧
    ((Test.p4 0).drv ≠ .halted ∧ (Test.p4 0).decodeOut.stall = false ∧
      (Test.p4 0).decodeOut.redirect = none ∧ fetchable (Test.p4 0).cfg (Test.p4 0).pc = true ∧
      (Test.p4 0).haltFlag = false) ∧
    ((Test.p71 3).drv ≠ .halted ∧ (Test.p71 3).decodeOut.stall = false ∧
      (Test.p71 3).decodeOut.redirect = none ∧
      fetchable (Test.p71 3).cfg (Test.p71 3).pc = false) := by decide

/-- For StallFreezesFetchAndInsertsBubble and StallsLastAtMostTwoTicks: P4, ticks 3 and 4. -/
theorem witness_Stalls : Stalls (Test.p4 2) ∧ step (Test.p4 2) = .next (Test.p4 3) ∧
    Stalls (Test.p4 3) ∧ step (Test.p4 3) = .next (Test.p4 4) :=
  ⟨⟨by decide, by decide⟩, rfl, ⟨by decide, by decide⟩, rfl⟩

/-- The three hazards and none: load-use and A at tick 3, B at tick 4, none at tick 5. -/
theorem witness_StallExactlyWhen : (Test.p4 2).drv ≠ .halted ∧
    (Test.p4 2).ifid = .instr 4 0x00008463 ∧ (Test.p4 3).ifid = .instr 4 0x00008463 ∧
    decodeDescriptor 0x00008463#32 = .ok (describe (.beq 1 0 8) 0x00008463#32) ∧
    (Test.p4 2).idex.map (fun x => x.d.memRead) = some true ∧
    (Test.p4 3).exmem.map (fun e => e.d.memRead) = some true ∧
    (Test.p4 4).decodeOut.stall = false := by decide

/-- A redirect that squashes a fetch, one past the end of the image, and one to a misaligned target. -/
theorem witness_RedirectSquashesOneFetch :
    ((Test.p6 1).drv ≠ .halted ∧ (Test.p6 1).decodeOut.redirect = some 12 ∧
      (Test.p6 1).haltFlag = false ∧ fetchable (Test.p6 1).cfg (Test.p6 1).pc = true) ∧
    ((steps 1 (Test.at [0x0000006F] 0 0)).drv ≠ .halted ∧
      (steps 1 (Test.at [0x0000006F] 0 0)).decodeOut.redirect = some 0 ∧
      fetchable (steps 1 (Test.at [0x0000006F] 0 0)).cfg (steps 1 (Test.at [0x0000006F] 0 0)).pc
        = false) ∧
    ((Test.p47 1).drv ≠ .halted ∧ (Test.p47 1).decodeOut.redirect = some 6) := by decide

theorem witness_UnrecognizedWordBecomesBubble :
    ((Test.p71 2).drv ≠ .halted ∧ (Test.p71 2).ifid = .instr 4 0x0000000F ∧
      decode 0x0000000F#32 = .error .unknownOpcode ∧ (Test.p71 2).haltFlag = false ∧
      fetch (Test.p71 2).cfg (Test.p71 2).pc = some 0x00200113) ∧
    ((steps 1 (Test.at [0] 0 0)).ifid = .instr 0 0 ∧
      fetch (steps 1 (Test.at [0] 0 0)).cfg (steps 1 (Test.at [0] 0 0)).pc = none) := by decide

/-- EX/MEM supplies, MEM/WB supplies, neither does: section 6, two producers of one register. -/
theorem witness_ForwardingTakesTheNearestProducer :
    ((Test.p71 3).exmem.map (fun e => (e.d.regWrite, e.d.rd, e.d.memRead)) = some (true, 1, false)) ∧
    ((Test.p4 4).exmem = none ∧
      (Test.p4 4).memwb.map (fun m => (m.d.regWrite, m.d.rd)) = some (true, 1)) ∧
    ((Test.p4 0).exmem = none ∧ (Test.p4 0).memwb = none) := by decide

theorem witness_ExecuteOperandsAreProgramOrder : PipeInv (Test.pStore 2) ∧
    (Test.pStore 2).faultHalt = false ∧
    (Test.pStore 2).idex.map (fun x => (x.d.usesRs1, x.d.usesRs2)) = some (true, true) :=
  ⟨Test.inv_sound (by decide), by decide, by decide⟩

/-- P4, t5: the branch leaves Decode. For DecodeOperandsAreProgramOrder, StepIssuesTheDecodedInstruction
and StepRunsTheDecodedInstruction. -/
theorem witness_Issues : PipeInv (Test.p4 4) ∧ Issues (Test.p4 4) 4 0x00008463 (.beq 1 0 8) ∧
    (drain (Test.p4 4)).faultHalt = false ∧
    early (describe (.beq 1 0 8) 0x00008463) = true ∧
    readsReg (describe (.beq 1 0 8) 0x00008463) 1 = true :=
  ⟨Test.inv_sound (by decide), by unfold Issues; decide, by decide, by decide, by decide⟩

/-- For StrictMemoryFaultHaltsTheCore and PermissiveMemoryFaultContinues. -/
theorem witness_MemoryFault (permissive : Bool) :
    (Test.p72 permissive 3).drv ≠ .halted ∧
    (Test.p72 permissive 3).exmem.map (fun e => (e.aluResult, e.d.memWidth))
      = some (64, some Size.word) ∧
    accessFault (Test.p72 permissive 3).cfg 64 .word = some .outOfRange ∧
    (Test.p72 permissive 3).cfg.permissive = permissive := by
  cases permissive <;> decide

theorem witness_HaltedStepChangesNothing : (Test.p72 false 4).drv = .halted ∧ (0 : Int) < 100 ∧
    (Test.p72 false 4).cfg.imem ≠ [] := by decide

/-- Each transition R252 allows: RUNNING to HALTED by a fault, DRAINING to RUNNING by a redirect. -/
theorem witness_DriverStateTransitions :
    (PipeInv (Test.p72 false 3) ∧ (Test.p72 false 4).drv = .halted) ∧
    (PipeInv (Test.p72 false 4)) ∧
    (PipeInv (steps 1 (Test.at [0x0000006F] 0 0)) ∧
      (steps 1 (Test.at [0x0000006F] 0 0)).drv = .draining ∧
      (steps 2 (Test.at [0x0000006F] 0 0)).drv = .running) ∧
    (PipeInv (Test.p4 0) ∧ (Test.p4 0).drv = .running) :=
  ⟨⟨Test.inv_sound (by decide), by decide⟩, Test.inv_sound (by decide),
    ⟨Test.inv_sound (by decide), by decide, by decide⟩, Test.inv_sound (by decide), by decide⟩

/-- A strict fault while the core is still RUNNING: a faulting store four words before the end. -/
theorem witness_DriverStateTransitions_running :
    let s := resetWith { (Test.at [0x0030A023, 0x13, 0x13, 0x13, 0x13] 64 0).cfg with dmemBytes := 64 }
    PipeInv (steps 3 s) ∧ (steps 3 s).drv = .running ∧ (steps 4 s).drv = .halted :=
  ⟨Test.inv_sound (by decide), by decide, by decide⟩

theorem witness_HaltTargetStopsFetching :
    ((Test.p74 1).drv ≠ .halted ∧ (Test.p74 1).decodeOut.redirect = some 0x7FC ∧
      (Test.p74 1).cfg.haltTarget = some 0x7FC ∧ (Test.p74 1).haltFlag = false ∧
      (Test.p74 2).haltFlag = true) ∧
    ((Test.p74 2).drv ≠ .halted ∧ (Test.p74 2).haltFlag = true ∧
      (Test.p74 2).ifid = .squashed 4) := by decide

theorem witness_RunReportsConfigurationErrors : State.reset.cfg.imem = [] ∧
    (Test.p4 0).cfg.imem ≠ [] ∧ (0 : Int) ≤ 0 ∧ (0 : Int) < 1 := by decide

/-- The four cases of R252: a fault, a fetchable pc, a latch still valid, and a drained core. A core
redirected to a halt target inside the image halts although its pc is fetchable. -/
theorem witness_DriverStateTransitions_cases :
    let h := resetWith { (Test.at [0x0000006F] 0 0).cfg with haltTarget := some 0 }
    ((Test.p72 false 4).faultHalt = true) ∧ (Test.p4 1).drv = .running ∧
    ((steps 2 h).haltFlag = true ∧ fetchable (steps 2 h).cfg (steps 2 h).pc = true ∧
      (steps 2 h).drv = .draining ∧ (steps 5 h).drv = .halted) := by decide

/-- A tick that reports nothing, and one for each report: a fault, an unrecognized word, a misaligned
target. -/
theorem witness_TickOutputsAreBounded :
    ((Test.p4 4).drv ≠ .halted ∧ (Test.p4 4).exmem = none ∧
      (Test.p4 4).decodeOut.redirect = some 12) ∧
    ((Test.p72 true 3).drv ≠ .halted ∧
      (Test.p72 true 3).exmem.map (fun e => e.d.memWidth) = some (some .word) ∧
      (Test.p72 true 3).exmem.map (fun e => accessFault (Test.p72 true 3).cfg e.aluResult .word)
        = some (some .outOfRange)) ∧
    ((Test.p71 2).drv ≠ .halted ∧ (Test.p71 2).ifid = .instr 4 0x0000000F ∧
      decode 0x0000000F#32 = .error .unknownOpcode) ∧
    ((Test.p47 1).drv ≠ .halted ∧ (Test.p47 1).decodeOut.redirect = some 6) := by decide

/-- The middle case: an access in EX/MEM that succeeds. -/
theorem witness_TickOutputsAreBounded_access : (Test.pStore 3).drv ≠ .halted ∧
    (Test.pStore 3).exmem.map (fun e => accessFault (Test.pStore 3).cfg e.aluResult .word)
      = some none := by decide

theorem witness_ResetLeavesTheStatedValues : (1 : Reg) ≠ 0 ∧
    (Test.p4 0).cfg.imem = 0x00052083 :: [0x00008463, 0x00100113, 0x00100193] := by decide

/-- An image, the empty image, the two ends of the memory size, and one size past each end. -/
theorem witness_ConstructionEstablishesTheInvariants :
    (∃ s, construct (Test.p4 0).cfg = .next s) ∧ (∃ s, construct Params.default = .next s) ∧
    (∃ s, construct { Params.default with dmemBytes := 4 } = .next s) ∧
    construct { Params.default with dmemBytes := 6 } = .refused .parametersOutOfContract ∧
    construct { Params.default with dmemBytes := 2 ^ 32 + 4 } = .refused .parametersOutOfContract :=
  ⟨⟨_, rfl⟩, ⟨_, rfl⟩, ⟨_, rfl⟩, rfl, rfl⟩

theorem witness_PipelineInvariantIsKept : PipeInv (Test.p4 3) ∧
    ∃ t, step (Test.p4 3) = .next t := ⟨Test.inv_sound (by decide), _, rfl⟩

/-- The three clauses: behind a faulting store, an unrecognized word, a stall. -/
theorem witness_OtherStepsRunNothing :
    (PipeInv (Test.p72 false 3) ∧ (drain (Test.p72 false 3)).faultHalt = true) ∧
    (PipeInv (Test.p71 2) ∧ (drain (Test.p71 2)).faultHalt = false ∧ (Test.p71 2).drv ≠ .halted ∧
      (Test.p71 2).ifid = .instr 4 0x0000000F ∧ decode 0x0000000F#32 = .error .unknownOpcode) ∧
    (PipeInv (Test.p4 2) ∧ ¬∃ p w i, Issues (Test.p4 2) p w i) ∧
    (∀ p w e, (Test.p4 2).ifid = .instr p w → decode w ≠ .error e) := by
  have hw : (Test.p4 2).ifid = .instr 4 0x00008463 := by decide
  refine ⟨⟨Test.inv_sound (by decide), by decide⟩,
    ⟨Test.inv_sound (by decide), by decide, by decide, by decide, by decide⟩,
    ⟨Test.inv_sound (by decide), ?_⟩, ?_⟩
  · rintro ⟨p, w, i, -, h, hd, hz⟩
    rw [hw] at h
    cases h
    cases (show decode 0x00008463#32 = .ok (.beq 1 0 8) by decide).symm.trans hd
    revert hz
    decide
  · intro p w e h
    rw [hw] at h
    cases h
    cases e <;> decide

theorem witness_HaltedRunEqualsSequentialRun :
    (steps 7 (resetWith (Test.p6 0).cfg)).drv = .halted := by decide

theorem witness_StraightLineProgramTakesNPlusFourTicks :
    let p := (Test.at [0x00100093, 0x123452B7, 0x00108133] 0 0).cfg
    1 ≤ p.imem.length ∧ p.imem.length < 2 ^ 30 ∧
    ∀ w ∈ p.imem, ∃ i, decode w = .ok i ∧ isComputational i = true := by
  refine ⟨by decide, by decide, ?_⟩
  intro w hw
  have : w = 0x00100093 ∨ w = 0x123452B7 ∨ w = 0x00108133 := by simpa [Test.at] using hw
  rcases this with rfl | rfl | rfl
  · exact ⟨.addi 1 0 1, by decide, by decide⟩
  · exact ⟨.lui 5 0x12345, by decide, by decide⟩
  · exact ⟨.add 2 1 1, by decide, by decide⟩

/-- A word to fetch, and a pc past the image. -/
theorem witness_FetchReadsTheImage :
    ((Test.p4 0).drv ≠ .halted ∧ (Test.p4 0).decodeOut.stall = false ∧
      (Test.p4 0).decodeOut.redirect = none ∧ (Test.p4 0).haltFlag = false ∧
      fetch (Test.p4 0).cfg (Test.p4 0).pc = some 0x00052083) ∧
    ((Test.p71 3).drv ≠ .halted ∧ (Test.p71 3).decodeOut.stall = false ∧
      (Test.p71 3).decodeOut.redirect = none ∧ fetch (Test.p71 3).cfg (Test.p71 3).pc = none) := by
  decide

/-- A recognized last word, with one tick of each kind but a stall before it, and an unrecognized one. -/
theorem witness_DrainedRunTakesFetchStallSquashPlusFourTicks :
    (DrainsIn (Test.pBack 0) 9 ∧ LastFetch (Test.pBack 0) 9 4 ∧
      (Test.pBack 5).ifid = .instr 4 0x0640006F ∧ (Test.pBack 3).tickKind = .idle ∧
      (Test.pBack 1).tickKind = .squashed) ∧
    (DrainsIn (Test.at [0] 0 0) 2 ∧ LastFetch (Test.at [0] 0 0) 2 0 ∧
      (steps 1 (Test.at [0] 0 0)).ifid = .instr 0 0 ∧ decode 0#32 = .error .unknownOpcode) := by
  unfold DrainsIn LastFetch
  decide

/-- R303, R304 at the load-use pair of P2: two fetches, one stall, seven ticks. -/
theorem test_ticks_loadUse : DrainsIn (Test.at [0x00052283, 0x00028333] 0 0) 7 ∧
    ticksOfKind .fetched 7 (Test.at [0x00052283, 0x00028333] 0 0) = 2 ∧
    ticksOfKind .stalled 7 (Test.at [0x00052283, 0x00028333] 0 0) = 1 := by
  unfold DrainsIn
  decide

theorem witness_PlacedWordIsIssued : decodeTableWord 32 0x00500093 = some (.addi 1 0 5) := by decide
end

section
/-! PROOFS. Construction (R285, R300): R5's ranges as the contract check tests them, what construction
answers on each side of the check, and the invariants the reset state meets. -/

namespace Sys2Proof.Machine

/-! ### The contract check -/

/-- R5's ranges, with the empty image and the byte form of `DMEM_INIT` (log entries 10 and 4). -/
theorem Params.inContract_iff (p : Params) : Params.inContract p = true ↔
    p.imem.length ≤ 2 ^ 30 ∧ p.dmemBytes % 4 = 0 ∧ 4 ≤ p.dmemBytes ∧ p.dmemBytes ≤ 2 ^ 32 ∧
      readReg p.regInit 0 = 0 ∧ Memory.wf p.dmemInit ∧ ∀ c ∈ p.dmemInit, c.1 < p.dmemBytes := by
  have hx0 : p.regInit[0] = readReg p.regInit 0 := rfl
  simp only [Params.inContract, hx0, Bool.and_eq_true, decide_eq_true_eq, beq_iff_eq,
    List.all_eq_true, and_assoc]

theorem construct_of_inContract {p : Params} (h : Params.inContract p = true) :
    construct p = .next (resetWith p) :=
  if_pos h

theorem construct_of_not_inContract {p : Params} (h : ¬Params.inContract p = true) :
    construct p = .refused .parametersOutOfContract :=
  if_neg h

/-- Construction answers a state only in contract, and then the reset state. -/
theorem construct_eq_next {p : Params} {s : State} (h : construct p = .next s) :
    Params.inContract p = true ∧ s = resetWith p := by
  by_cases hp : Params.inContract p = true
  · rw [construct_of_inContract hp] at h
    cases h
    exact ⟨hp, rfl⟩
  · rw [construct_of_not_inContract hp] at h
    cases h

/-! ### The reset state -/

/-- `x[0]` is 0 whatever the parameters say of it (R21). -/
theorem resetWith_reg_zero (p : Params) : (resetWith p).reg 0 = 0 :=
  Vector.getElem_set_self (xs := p.regInit) (i := 0) (x := 0) (by decide)

/-- The latches are empty, nothing has faulted, and `drv` was settled last: every clause about an
instruction in flight is vacuous. -/
theorem resetWith_pipeInv (p : Params) : PipeInv (resetWith p) where
  ifid := by simp
  idex := by simp
  exmem := by simp
  memwb := by simp
  operands := by simp
  loadUse := by simp
  faulted := by simp
  drv := resetWith_drv p

/-- Settles O51: the contract check is R5's ranges, construction answers the reset state exactly there,
and the memory clauses of the invariants are clauses of the contract. -/
theorem constructionEstablishesTheInvariants :
    Obligations.ConstructionEstablishesTheInvariants := by
  intro p
  refine ⟨fun h => construct_of_not_inContract (mt (Params.inContract_iff p).mp h),
    fun h => construct_of_inContract ((Params.inContract_iff p).mpr h), fun s hs => ?_⟩
  obtain ⟨hp, rfl⟩ := construct_eq_next hs
  obtain ⟨-, -, -, -, -, hwf, hrange⟩ := (Params.inContract_iff p).mp hp
  exact ⟨resetWith_pipeInv p, resetWith_reg_zero p, hwf, hrange⟩

end Sys2Proof.Machine
end

section
/-! PROOFS. The pipeline invariant across a tick (R32, R35, R230, R252): what the tick puts into each
latch, clause by clause. -/

namespace Sys2Proof.Machine

/-- A word in IF/ID after the tick was kept by a stall or has just been fetched (R196, R198). -/
theorem PipeInv.tickState_ifid {s : State} (hi : PipeInv s) {p w : Word}
    (h : s.tickState.ifid = .instr p w) :
    fetch s.tickState.cfg p = some w ∧ s.tickState.pc = p + 4 ∧ s.tickState.haltFlag = false := by
  simp only [State.tickState_ifid, State.tickState_cfg, State.tickState_pc,
    State.tickState_haltFlag] at h ⊢
  rcases tickKind_cases s with ⟨-, -, e⟩ | ⟨-, -, -, -, hsq | hidle⟩ | ⟨-, -, -, w', hc, e⟩ |
    ⟨-, -, -, -, e⟩
  · rw [e] at h ⊢
    exact hi.ifid p w h
  · rw [hsq.2] at h
    cases h
  · rw [hidle.2.1] at h
    cases h
  · rw [e] at h ⊢
    cases h
    obtain ⟨hh, hw⟩ := canFetch_eq_some.mp hc
    exact ⟨hw, rfl, hh⟩
  · rw [e] at h
    cases h

/-- What the tick puts into ID/EX: the descriptor of the word in IF/ID, which no hazard holds back,
with the registers of the state after the tick (R195, R202). -/
theorem tickState_idex_eq_some {s : State} {x : IdEx} (h : s.tickState.idex = some x) :
    ∃ w, s.ifid = .instr x.pc w ∧ decodeDescriptor w = .ok x.d ∧
      hazard x.d s.idex s.exmem = false ∧
      x.rs1val = s.tickState.reg x.d.rs1 ∧ x.rs2val = s.tickState.reg x.d.rs2 := by
  obtain ⟨p, w, d, hp, hd, hz, rfl⟩ := decodeStage_idex h
  exact ⟨w, hp, hd, hz, rfl, rfl⟩

/-- A Memory stage that faults answers a bubble (R282). -/
theorem State.memOut_memwb_of_fault {s : State} (h : s.memOut.fault = true) :
    s.memOut.memwb = none := by
  unfold State.memOut at h ⊢
  cases he : s.exmem with
  | none => rfl
  | some e =>
    rw [he] at h
    rcases memoryStage_cases s.cfg s.tickNo e s.dmem with ⟨-, hn, -⟩ | ⟨hf, -⟩
    · exact hn
    · rw [hf] at h
      cases h

/-- Each descriptor moves on one latch with its pc; the load-use clause is the hazard unit's silence
about the load that leaves ID/EX. -/
theorem PipeInv.tickState {s : State} (hi : PipeInv s) (h0 : s.faultHalt = false) :
    PipeInv s.tickState where
  ifid _ _ h := hi.tickState_ifid h
  idex x hx := by
    obtain ⟨w, hp, hd, -⟩ := tickState_idex_eq_some hx
    exact ⟨w, (hi.ifid _ w hp).1, hd⟩
  exmem e he := by
    obtain ⟨x, hx, hpc, hd⟩ := executeStage_eq_some he
    rw [hpc, hd]
    exact hi.idex x hx
  memwb m hm := by
    obtain ⟨e, v, he, rfl⟩ := memoryStage_memwb hm
    exact hi.exmem e he
  operands x hx := by
    obtain ⟨-, -, -, -, h1, h2⟩ := tickState_idex_eq_some hx
    exact ⟨h1, h2⟩
  loadUse x e hx he hr := by
    obtain ⟨-, -, -, hz, -⟩ := tickState_idex_eq_some hx
    obtain ⟨y, hy, -, hd⟩ := executeStage_eq_some he
    rw [hd] at hr ⊢
    exact (hazard_eq_false hz).1 y hy hr
  faulted h := by
    rw [State.tickState_faultHalt, h0, Bool.false_or] at h
    exact State.memOut_memwb_of_fault h
  drv := s.tickState_drv

/-- Settles O52: a HALTED core is left as it is, and a core that ticks has no strict fault behind it. -/
theorem pipelineInvariantIsKept : Obligations.PipelineInvariantIsKept := by
  intro s t hi ht
  rcases step_cases ht with ⟨-, rfl⟩ | ⟨hd, rfl⟩
  · exact hi
  · exact hi.tickState (hi.not_faultHalt hd)

end Sys2Proof.Machine
end

section
/-! PROOFS. The frame of every instruction by its class (R102), and what an instruction or a tick leaves
of register 0 (R21) and of the data memory's canonical form (log entry 4). -/

namespace Sys2Proof.Machine

/-! ### The memory operations, outcome by outcome -/

/-- A load completes with the loaded value, or faults: then it completes with 0 or halts the core. -/
theorem State.load_cases (s : State) (rd : Reg) (A : Word) (n : Size) (signed : Bool) :
    (accessFault s.cfg A n = none ∧
      s.load rd A n signed = s.complete rd (loadValue s.dmem A n signed)) ∨
    (∃ f, accessFault s.cfg A n = some f ∧ s.cfg.permissive = true ∧
      s.load rd A n signed = (s.raise f.kind A).complete rd 0) ∨
    (∃ f, accessFault s.cfg A n = some f ∧ s.cfg.permissive = false ∧
      s.load rd A n signed = State.settle { s.raise f.kind A with faultHalt := true }) := by
  cases hf : accessFault s.cfg A n with
  | none => exact .inl ⟨rfl, State.load_of_noFault hf⟩
  | some f =>
    rw [State.load_of_fault hf]
    cases hp : s.cfg.permissive with
    | true => exact .inr (.inl ⟨f, rfl, rfl, State.takeFault_permissive hp⟩)
    | false => exact .inr (.inr ⟨f, rfl, rfl, State.takeFault_strict hp⟩)

/-- A store writes memory and moves on, or faults: then it is dropped or halts the core. -/
theorem State.store_cases (s : State) (A : Word) (n : Size) (v : Word) :
    (accessFault s.cfg A n = none ∧
      s.store A n v = State.advance { s with dmem := memWrite s.dmem A n v }) ∨
    (∃ f, accessFault s.cfg A n = some f ∧ s.cfg.permissive = true ∧
      s.store A n v = (s.raise f.kind A).advance) ∨
    (∃ f, accessFault s.cfg A n = some f ∧ s.cfg.permissive = false ∧
      s.store A n v = State.settle { s.raise f.kind A with faultHalt := true }) := by
  cases hf : accessFault s.cfg A n with
  | none => exact .inl ⟨rfl, State.store_of_noFault hf⟩
  | some f =>
    rw [State.store_of_fault hf]
    cases hp : s.cfg.permissive with
    | true => exact .inr (.inl ⟨f, rfl, rfl, State.takeFault_permissive hp⟩)
    | false => exact .inr (.inr ⟨f, rfl, rfl, State.takeFault_strict hp⟩)

/-! ### Every operation leaves the pipeline alone -/

theorem samePipeline_complete (s : State) (rd : Reg) (v : Word) :
    SamePipeline s (s.complete rd v) :=
  ⟨rfl, rfl, rfl, rfl, rfl, rfl, rfl, rfl⟩

theorem samePipeline_jump (s : State) (rd : Reg) (v target : Word) :
    SamePipeline s ((s.setReg rd v).redirect target) :=
  ⟨rfl, rfl, rfl, rfl, rfl, rfl, rfl, rfl⟩

theorem samePipeline_branch (s : State) (taken : Bool) (off : Word) :
    SamePipeline s (s.branch taken off) := by
  cases taken <;> exact ⟨rfl, rfl, rfl, rfl, rfl, rfl, rfl, rfl⟩

theorem samePipeline_load (s : State) (rd : Reg) (A : Word) (n : Size) (signed : Bool) :
    SamePipeline s (s.load rd A n signed) := by
  rcases s.load_cases rd A n signed with ⟨-, e⟩ | ⟨f, -, -, e⟩ | ⟨f, -, -, e⟩ <;> rw [e] <;>
    exact ⟨rfl, rfl, rfl, rfl, rfl, rfl, rfl, rfl⟩

theorem samePipeline_store (s : State) (A : Word) (n : Size) (v : Word) :
    SamePipeline s (s.store A n v) := by
  rcases s.store_cases A n v with ⟨-, e⟩ | ⟨f, -, -, e⟩ | ⟨f, -, -, e⟩ <;> rw [e] <;>
    exact ⟨rfl, rfl, rfl, rfl, rfl, rfl, rfl, rfl⟩

/-! ### Registers -/

/-- At most the register `d` names has changed, and never register 0 (R21). -/
def ChangesOnly (d : Option Reg) (s t : State) : Prop :=
  ∀ r, d ≠ some r ∨ r = 0 → t.reg r = s.reg r

theorem changesOnly_of_regs_eq {d : Option Reg} {s t : State} (h : t.regs = s.regs) :
    ChangesOnly d s t :=
  fun r _ => congrArg (readReg · r) h

theorem changesOnly_of_writeReg {s t : State} {rd : Reg} {v : Word}
    (h : t.regs = writeReg s.regs rd v) : ChangesOnly (some rd) s t := by
  intro r hr
  rw [State.reg, h, readReg_writeReg, if_neg]
  · rfl
  · rintro ⟨rfl, h0⟩
    exact hr.elim (absurd rfl) h0

theorem changesOnly_load (s : State) (rd : Reg) (A : Word) (n : Size) (signed : Bool) :
    ChangesOnly (some rd) s (s.load rd A n signed) := by
  rcases s.load_cases rd A n signed with ⟨-, e⟩ | ⟨f, -, -, e⟩ | ⟨f, -, -, e⟩ <;> rw [e]
  · exact changesOnly_of_writeReg rfl
  · exact changesOnly_of_writeReg rfl
  · exact changesOnly_of_regs_eq rfl

@[simp] theorem State.store_regs (s : State) (A : Word) (n : Size) (v : Word) :
    (s.store A n v).regs = s.regs := by
  rcases s.store_cases A n v with ⟨-, e⟩ | ⟨f, -, -, e⟩ | ⟨f, -, -, e⟩ <;> rw [e] <;> rfl

@[simp] theorem State.branch_regs (s : State) (taken : Bool) (off : Word) :
    (s.branch taken off).regs = s.regs := by
  cases taken <;> rfl

/-! ### Data memory and `faultHalt` -/

@[simp] theorem State.branch_dmem (s : State) (taken : Bool) (off : Word) :
    (s.branch taken off).dmem = s.dmem := by
  cases taken <;> rfl

@[simp] theorem State.branch_faultHalt (s : State) (taken : Bool) (off : Word) :
    (s.branch taken off).faultHalt = s.faultHalt := by
  cases taken <;> rfl

@[simp] theorem State.load_dmem (s : State) (rd : Reg) (A : Word) (n : Size) (signed : Bool) :
    (s.load rd A n signed).dmem = s.dmem := by
  rcases s.load_cases rd A n signed with ⟨-, e⟩ | ⟨f, -, -, e⟩ | ⟨f, -, -, e⟩ <;> rw [e] <;> rfl

/-- A store changes memory as `MemWrite` says, or not at all. -/
theorem State.store_dmem (s : State) (A : Word) (n : Size) (v : Word) :
    (s.store A n v).dmem = s.dmem ∨ (s.store A n v).dmem = memWrite s.dmem A n v := by
  rcases s.store_cases A n v with ⟨-, e⟩ | ⟨f, -, -, e⟩ | ⟨f, -, -, e⟩ <;> rw [e]
  · exact .inr rfl
  · exact .inl rfl
  · exact .inl rfl

/-! ### Every instruction -/

/-- The five shapes of an effect, each with the classes it belongs to and the destination (R102). -/
theorem exec_eq_next {i : Instr} {s t : State} (h : exec i s = .next t) :
    (∃ rd v, destOf i = some rd ∧ t = s.complete rd v) ∨
    (∃ c o, i.cls = .branch ∧ t = s.branch c o) ∨
    (∃ rd v target, (i.cls = .jal ∨ i.cls = .jalr) ∧ destOf i = some rd ∧
      t = (s.setReg rd v).redirect target) ∨
    (∃ rd A n signed, i.cls = .load ∧ destOf i = some rd ∧ t = s.load rd A n signed) ∨
    (∃ A n v, i.cls = .store ∧ t = s.store A n v) := by
  cases i <;> cases h
  case beq | bne | blt | bge | bltu | bgeu => exact .inr (.inl ⟨_, _, rfl, rfl⟩)
  case jal => exact .inr (.inr (.inl ⟨_, _, _, .inl rfl, rfl, rfl⟩))
  case jalr => exact .inr (.inr (.inl ⟨_, _, _, .inr rfl, rfl, rfl⟩))
  case lb | lh | lw | lbu | lhu => exact .inr (.inr (.inr (.inl ⟨_, _, _, _, rfl, rfl, rfl⟩)))
  case sb | sh | sw => exact .inr (.inr (.inr (.inr ⟨_, _, _, rfl, rfl⟩)))
  all_goals exact .inl ⟨_, _, rfl, rfl⟩

theorem exec_samePipeline {i : Instr} {s t : State} (h : exec i s = .next t) :
    SamePipeline s t := by
  obtain ⟨rd, v, -, rfl⟩ | ⟨c, o, -, rfl⟩ | ⟨rd, v, target, -, -, rfl⟩ |
    ⟨rd, A, n, sg, -, -, rfl⟩ | ⟨A, n, v, -, rfl⟩ := exec_eq_next h
  · exact samePipeline_complete s rd v
  · exact samePipeline_branch s c o
  · exact samePipeline_jump s rd v target
  · exact samePipeline_load s rd A n sg
  · exact samePipeline_store s A n v

theorem exec_changesOnly {i : Instr} {s t : State} (h : exec i s = .next t) :
    ChangesOnly (destOf i) s t := by
  obtain ⟨rd, v, hd, rfl⟩ | ⟨c, o, -, rfl⟩ | ⟨rd, v, target, -, hd, rfl⟩ |
    ⟨rd, A, n, sg, -, hd, rfl⟩ | ⟨A, n, v, -, rfl⟩ := exec_eq_next h
  · exact hd ▸ changesOnly_of_writeReg rfl
  · exact changesOnly_of_regs_eq (s.branch_regs c o)
  · exact hd ▸ changesOnly_of_writeReg rfl
  · exact hd ▸ changesOnly_load s rd A n sg
  · exact changesOnly_of_regs_eq (s.store_regs A n v)

/-- R31 for `exec`: memory is as before, or a store has written it as `MemWrite` says. -/
theorem exec_dmem {i : Instr} {s t : State} (h : exec i s = .next t) :
    t.dmem = s.dmem ∨ (i.cls = .store ∧ ∃ A n v, t.dmem = memWrite s.dmem A n v) := by
  obtain ⟨rd, v, -, rfl⟩ | ⟨c, o, -, rfl⟩ | ⟨rd, v, target, -, -, rfl⟩ |
    ⟨rd, A, n, sg, -, -, rfl⟩ | ⟨A, n, v, hc, rfl⟩ := exec_eq_next h
  · exact .inl rfl
  · exact .inl (s.branch_dmem c o)
  · exact .inl rfl
  · exact .inl (s.load_dmem rd A n sg)
  · exact (s.store_dmem A n v).imp_right fun hw => ⟨hc, A, n, v, hw⟩

/-- Only a load or a store can fault (R102). -/
theorem exec_faultHalt {i : Instr} {s t : State} (h : exec i s = .next t)
    (hload : i.cls ≠ .load) (hstore : i.cls ≠ .store) : t.faultHalt = s.faultHalt := by
  obtain ⟨rd, v, -, rfl⟩ | ⟨c, o, -, rfl⟩ | ⟨rd, v, target, -, -, rfl⟩ |
    ⟨-, -, -, -, hc, -⟩ | ⟨-, -, -, hc, -⟩ := exec_eq_next h
  · rfl
  · exact s.branch_faultHalt c o
  · rfl
  · exact absurd hc hload
  · exact absurd hc hstore

/-- Only a control transfer can reach the halt target (R256). -/
theorem exec_haltFlag {i : Instr} {s t : State} (h : exec i s = .next t)
    (hbranch : i.cls ≠ .branch) (hjal : i.cls ≠ .jal) (hjalr : i.cls ≠ .jalr) :
    t.haltFlag = s.haltFlag := by
  obtain ⟨rd, v, -, rfl⟩ | ⟨-, -, hc, -⟩ | ⟨-, -, -, hc, -⟩ |
    ⟨rd, A, n, sg, -, -, rfl⟩ | ⟨A, n, v, -, rfl⟩ := exec_eq_next h
  · rfl
  · exact absurd hc hbranch
  · exact (hc.elim hjal hjalr).elim
  · exact (s.load_control rd A n sg).1
  · exact (s.store_control A n v).1

/-- Settles O23: one frame fact per clause, each from the shape the instruction's class has. -/
theorem instructionsTouchOnlyTheirOwnState : Obligations.InstructionsTouchOnlyTheirOwnState := by
  intro i s t h
  have hregs := exec_changesOnly h
  exact ⟨exec_samePipeline h, fun r hr => hregs r (.inl hr), hregs 0 (.inr rfl),
    fun hc => (exec_dmem h).resolve_right fun hw => hc hw.1, exec_faultHalt h, exec_haltFlag h⟩

/-! ### The canonical form of data memory -/

/-- Settles O27: memory after a step or an instruction is the old one or the old one after one
`MemWrite`, which keeps the form. -/
theorem dataMemoryStaysCanonical : Obligations.DataMemoryStaysCanonical := by
  refine ⟨fun s t hwf ht => ?_, fun i s t hwf ht => ?_⟩
  · rcases step_cases ht with ⟨-, rfl⟩ | ⟨-, rfl⟩
    · exact hwf
    · rw [State.tickState_dmem]
      rcases memOut_dmem s with e | ⟨x, n, -, -, e⟩ <;> rw [e]
      · exact hwf
      · exact memWrite_wf hwf _ _ _
  · rcases exec_dmem ht with e | ⟨-, A, n, v, e⟩ <;> rw [e]
    · exact hwf
    · exact memWrite_wf hwf A n v

/-! ### Register 0 -/

/-- Writeback never writes register 0 (R21, R192). -/
theorem readReg_writebackStage_zero (memwb : Option MemWb) (regs : Regs) :
    readReg (writebackStage memwb regs) 0 = readReg regs 0 :=
  readReg_writebackStage_of_not_writes fun _ _ h0 => absurd rfl h0

/-- Settles O31: a tick writes registers through Writeback only, and no instruction changes
register 0. -/
theorem registerZeroStaysZero : Obligations.RegisterZeroStaysZero := by
  refine ⟨fun s t h0 ht => ?_, fun i s t h0 ht => ?_, resetWith_reg_zero⟩
  · rcases step_cases ht with ⟨-, rfl⟩ | ⟨-, rfl⟩
    · exact h0
    · exact (readReg_writebackStage_zero s.memwb s.regs).trans h0
  · exact (exec_changesOnly ht 0 (.inr rfl)).trans h0

end Sys2Proof.Machine
end

section
/-! PROOFS. What one tick does to the data memory (R31, R193) and to `pc` (R24, R196). -/

namespace Sys2Proof.Machine

/-! ### Data memory -/

/-- A descriptor from the image with a data access is a store exactly when it is not a load (R102). -/
theorem FromImage.memWrite_eq_not_memRead {cfg : Params} {p : Word} {d : Descriptor} {n : Size}
    (h : FromImage cfg p d) (hn : d.memWidth = some n) : d.memWrite = !d.memRead := by
  obtain ⟨w, -, hd⟩ := h
  obtain ⟨i, -, rfl⟩ := decodeDescriptor_eq_ok_iff.mp hd
  cases i
  case lb | lh | lw | lbu | lhu | sb | sh | sw => rfl
  all_goals cases hn

/-- The memory after an access: only a store that does not fault writes it (R193). -/
theorem memoryAccess_dmem (cfg : Params) (k : Nat) (e : ExMem) (n : Size) (m : Memory) :
    (memoryAccess cfg k e n m).dmem =
      if accessFault cfg e.aluResult n = none ∧ e.d.memRead = false then
        memWrite m e.aluResult n e.storeData
      else m := by
  unfold memoryAccess
  cases accessFault cfg e.aluResult n with
  | some f => cases cfg.permissive <;> rfl
  | none => cases e.d.memRead <;> rfl

/-- Settles O29: by what EX/MEM holds, in the order of the Memory stage's own tests. -/
theorem onlyStoresChangeDataMemory : Obligations.OnlyStoresChangeDataMemory := by
  intro s t hi hd ht
  obtain ⟨hh, -⟩ | ⟨-, rfl⟩ := step_cases ht
  · exact absurd hh hd
  rw [State.tickState_dmem, State.memOut]
  cases he : s.exmem with
  | none => exact .inl ⟨rfl, fun _ _ h => nomatch h⟩
  | some e =>
    cases hn : e.d.memWidth with
    | none =>
      rw [memoryStage_pass hn]
      refine .inl ⟨rfl, ?_⟩
      rintro _ n ⟨⟩ - hn'
      rw [hn] at hn'
      cases hn'
    | some n =>
      have hstore := (hi.exmem e he).memWrite_eq_not_memRead hn
      rw [memoryStage_access hn, memoryAccess_dmem]
      split
      · next hc =>
        exact .inr ⟨e, n, rfl, by rw [hstore, hc.2]; rfl, hn, hc.1, rfl⟩
      · next hc =>
        refine .inl ⟨rfl, ?_⟩
        rintro _ n' ⟨⟩ hw hn' hnone
        cases hn.symm.trans hn'
        exact hc ⟨hnone, by rw [hstore] at hw; simpa using hw⟩

/-! ### `pc` -/

theorem State.fetchOut_pc_of_stall {s : State} (hs : s.decodeOut.stall = true) :
    s.fetchOut.pc = s.pc := by
  simp [State.fetchOut, fetchStage, hs]

theorem State.fetchOut_pc_of_redirect {s : State} {target : Word}
    (hs : s.decodeOut.stall = false) (hr : s.decodeOut.redirect = some target) :
    s.fetchOut.pc = target := by
  cases hc : canFetch s.cfg s.haltFlag s.pc <;> simp [State.fetchOut, fetchStage, hs, hr, hc]

theorem State.fetchOut_pc_of_canFetch {s : State} {w : Word} (hs : s.decodeOut.stall = false)
    (hr : s.decodeOut.redirect = none) (hc : canFetch s.cfg s.haltFlag s.pc = some w) :
    s.fetchOut.pc = s.pc + 4 := by
  simp [State.fetchOut, fetchStage, hs, hr, hc]

theorem State.fetchOut_pc_of_not_canFetch {s : State} (hs : s.decodeOut.stall = false)
    (hr : s.decodeOut.redirect = none) (hc : canFetch s.cfg s.haltFlag s.pc = none) :
    s.fetchOut.pc = s.pc := by
  simp [State.fetchOut, fetchStage, hs, hr, hc]

/-- Settles O33: the next pc is Fetch's, whose tests come in R24's order. -/
theorem pcChangesInPriorityOrder : Obligations.PcChangesInPriorityOrder := by
  intro s t hd ht
  obtain ⟨hh, -⟩ | ⟨-, rfl⟩ := step_cases ht
  · exact absurd hh hd
  rw [State.tickState_pc]
  refine ⟨State.fetchOut_pc_of_stall, fun _ => State.fetchOut_pc_of_redirect,
    fun hs hr hf hh => ?_, fun hs hr hc => ?_⟩
  · obtain ⟨w, hw⟩ := Option.isSome_iff_exists.mp hf
    rw [State.fetchOut_pc_of_canFetch hs hr (canFetch_eq_some.mpr ⟨hh, hw⟩), BitVec.toNat_add]
    rfl
  · refine State.fetchOut_pc_of_not_canFetch hs hr (canFetch_eq_none.mpr ?_)
    exact hc.symm.imp_right fun hf => by simpa [fetchable] using hf

end Sys2Proof.Machine
end

section
/-! PROOFS. Data accesses (R52 to R56): when one faults, which word and which byte addresses it touches,
and that no tick leaves a byte outside the range. -/

namespace Sys2Proof.Machine

/-! ### Faults -/

/-- The range test is on the containing word (R56). -/
theorem accessFault_eq_outOfRange_iff {cfg : Params} {A : Word} {n : Size} :
    accessFault cfg A n = some .outOfRange ↔ cfg.dmemBytes ≤ A.toNat / 4 * 4 := by
  rw [accessFault, toNat_containing]
  by_cases hr : cfg.dmemBytes ≤ A.toNat / 4 * 4
  · simp [hr]
  · by_cases h3 : n = .half ∧ offset A = 3 <;> simp [hr, h3]

/-- The halfword test comes after the range test (R55). -/
theorem accessFault_eq_misaligned_iff {cfg : Params} {A : Word} {n : Size} :
    accessFault cfg A n = some .misaligned ↔
      A.toNat / 4 * 4 < cfg.dmemBytes ∧ n = .half ∧ A.toNat % 4 = 3 := by
  rw [accessFault, toNat_containing, ← offset_eq, ← not_le]
  by_cases hr : cfg.dmemBytes ≤ A.toNat / 4 * 4
  · simp [hr]
  · by_cases h3 : n = .half ∧ offset A = 3 <;> simp [hr, h3]

/-- Settles O20: the two tests in their order; with `2^32` bytes of memory every word address is in
range. -/
theorem accessFaultsExactlyWhen : Obligations.AccessFaultsExactlyWhen := by
  refine ⟨rfl, rfl, fun cfg A n =>
    ⟨accessFault_eq_outOfRange_iff, accessFault_eq_misaligned_iff, fun hfull hout => ?_⟩⟩
  have hle := accessFault_eq_outOfRange_iff.mp hout
  have hlt := A.isLt
  omega

/-! ### The touched word -/

/-- `W(A)` is `A` with its two low bits cleared (R52). -/
theorem containing_eq_and (A : Word) : containing A = A &&& 0xFFFFFFFC#32 := by
  have hmask : ∀ i < 32, (0xFFFFFFFC#32).getLsbD i = decide (2 ≤ i) := by decide
  apply BitVec.eq_of_getLsbD_eq
  intro i hi
  rw [containing, BitVec.getLsbD_append, BitVec.getLsbD_and, hmask i hi]
  by_cases h2 : i < 2
  · simp [h2]
  · simp [h2, show i - 2 < 30 by omega, show 2 ≤ i by omega, show 2 + (i - 2) = i by omega]

/-- Whatever its width, a store writes one word, the one at `W(A)` (R54). -/
theorem memWrite_eq_writeWord (m : Memory) (A : Word) (n : Size) (v : Word) :
    ∃ w, memWrite m A n v = writeWord m (containing A) w := by
  cases n <;> exact ⟨_, rfl⟩

/-- A load of any width sees of memory only the word at `W(A)` (R53). -/
theorem memRead_congr {m m' : Memory} {A : Word} {n : Size}
    (h : readWord m (containing A) = readWord m' (containing A)) :
    memRead m A n = memRead m' A n := by
  unfold memRead
  rw [h]

/-- Settles O25: a store is a write of the word at `W(A)`, and a load is a function of that word. -/
theorem accessesTouchOnlyTheirWord : Obligations.AccessesTouchOnlyTheirWord := by
  refine fun A n => ⟨containing_eq_and A, offset_eq A, fun m v B hwf hne => ?_,
    fun m m' => memRead_congr⟩
  obtain ⟨w, hw⟩ := memWrite_eq_writeWord m A n v
  rw [hw, readWord_writeWord hwf, if_neg hne]

/-! ### The touched addresses -/

/-- A cell of memory after a word was written is an old one or one of the word's four. -/
theorem mem_writeWord {m : Memory} {W v : Word} {c : Host.Cell} (h : c ∈ writeWord m W v) :
    c ∈ m ∨ (W.toNat ≤ c.1 ∧ c.1 < W.toNat + 4) := by
  rcases writeByte_keys h with h | rfl
  · rcases writeByte_keys h with h | rfl
    · rcases writeByte_keys h with h | rfl
      · refine (writeByte_keys h).imp_right ?_
        rintro rfl
        exact ⟨le_rfl, by simp⟩
      · exact .inr ⟨by simp, by simp⟩
    · exact .inr ⟨by simp, by simp⟩
  · exact .inr ⟨by simp, by simp⟩

/-- A store that does not fault stays in range: `DMEM_BYTES` and `W(A)` are multiples of 4 (R5, R56). -/
theorem memWrite_inRange {cfg : Params} {m : Memory} {A : Word} {n : Size} {v : Word}
    (h4 : cfg.dmemBytes % 4 = 0) (hm : ∀ c ∈ m, c.1 < cfg.dmemBytes)
    (hf : accessFault cfg A n = none) : ∀ c ∈ memWrite m A n v, c.1 < cfg.dmemBytes := by
  intro c hc
  obtain ⟨w, hw⟩ := memWrite_eq_writeWord m A n v
  rw [hw] at hc
  rcases mem_writeWord hc with hold | ⟨-, hlt⟩
  · exact hm c hold
  · have hin : ¬cfg.dmemBytes ≤ A.toNat / 4 * 4 := fun hle => by
      rw [accessFault_eq_outOfRange_iff.mpr hle] at hf
      cases hf
    rw [toNat_containing] at hlt
    omega

/-- Settles O28: data memory after a step is the old one or the old one after one store that does not
fault. -/
theorem dataMemoryStaysInRange : Obligations.DataMemoryStaysInRange := by
  intro s t h4 hm ht
  obtain ⟨-, rfl⟩ | ⟨-, rfl⟩ := step_cases ht
  · exact hm
  · rw [State.tickState_dmem, State.tickState_cfg]
    rcases memOut_dmem s with e | ⟨x, n, -, hf, e⟩ <;> rw [e]
    · exact hm
    · exact memWrite_inRange h4 hm hf

end Sys2Proof.Machine
end

section
/-! PROOFS. The instruction image (R62, R63), what an ordinary fetch reads of it (R196), and the driver
state after a step (R252). -/

namespace Sys2Proof.Machine

/-! ### The image -/

theorem fetch_eq_some_iff {cfg : Params} {a w : Word} :
    fetch cfg a = some w ↔ a.toNat % 4 = 0 ∧ cfg.imem[a.toNat / 4]? = some w := by
  rw [fetch]
  by_cases h : a.toNat % 4 = 0 <;> simp [h]

theorem fetchable_iff {cfg : Params} {a : Word} :
    fetchable cfg a = true ↔ a.toNat % 4 = 0 ∧ a.toNat / 4 < cfg.imem.length := by
  rw [fetchable, fetch]
  by_cases h : a.toNat % 4 = 0 <;> simp [h]

theorem step_cfg {s t : State} (h : step s = .next t) : t.cfg = s.cfg := by
  obtain ⟨-, rfl⟩ | ⟨-, rfl⟩ := step_cases h
  · rfl
  · exact s.tickState_cfg

/-- Settles O30: the image is a parameter, and neither a step nor an instruction writes one. -/
theorem fetchNeverChanges : Obligations.FetchNeverChanges :=
  ⟨fun _ _ a ht => congrArg (fetch · a) (step_cfg ht),
    fun _ _ _ a ht => congrArg (fetch · a) (exec_samePipeline ht).cfg⟩

/-! ### An ordinary fetch -/

theorem State.fetchOut_eq_of_canFetch {s : State} {w : Word} (hs : s.decodeOut.stall = false)
    (hr : s.decodeOut.redirect = none) (hc : canFetch s.cfg s.haltFlag s.pc = some w) :
    s.fetchOut = ⟨.instr s.pc w, s.pc + 4, s.haltFlag, [(s.pc, .IF)]⟩ := by
  simp [State.fetchOut, fetchStage, hs, hr, hc]

theorem State.fetchOut_eq_of_not_canFetch {s : State} (hs : s.decodeOut.stall = false)
    (hr : s.decodeOut.redirect = none) (hc : canFetch s.cfg s.haltFlag s.pc = none) :
    s.fetchOut = ⟨.bubble, s.pc, s.haltFlag, []⟩ := by
  simp [State.fetchOut, fetchStage, hs, hr, hc]

/-- Settles O58: `fetch` is the image's own indexing, and without stall and redirect Fetch only asks
whether it can read a word. -/
theorem fetchReadsTheImage : Obligations.FetchReadsTheImage := by
  refine ⟨fun _ _ _ => ⟨fetch_eq_some_iff, fetchable_iff⟩, fun s t hd hs hr ht => ?_⟩
  obtain ⟨hh, -⟩ | ⟨-, rfl⟩ := step_cases ht
  · exact absurd hh hd
  rw [State.tickState_ifid, State.tickState_pc]
  refine ⟨fun w hh hw => ?_, fun hnone => ?_⟩
  · rw [State.fetchOut_eq_of_canFetch hs hr (canFetch_eq_some.mpr ⟨hh, hw⟩)]
    exact ⟨rfl, rfl⟩
  · rw [State.fetchOut_eq_of_not_canFetch hs hr (canFetch_eq_none.mpr hnone)]
    exact ⟨rfl, rfl⟩

/-! ### The state function of R252 -/

/-- Fetch has a word to read: the first test of R252 after a strict fault. -/
def State.canRun (s : State) : Bool := (canFetch s.cfg s.haltFlag s.pc).isSome

/-- A latch is valid: the last test of R252. -/
def State.inFlight (s : State) : Bool :=
  s.ifid.valid || s.idex.isSome || s.exmem.isSome || s.memwb.isSome

theorem State.canRun_eq (s : State) : s.canRun = (!s.haltFlag && fetchable s.cfg s.pc) := by
  rw [State.canRun, canFetch, fetchable]
  cases s.haltFlag <;> rfl

theorem State.canRun_iff {s : State} : s.canRun = true ↔
    s.haltFlag = false ∧ s.pc.toNat % 4 = 0 ∧ s.pc.toNat / 4 < s.cfg.imem.length := by
  rw [State.canRun_eq, Bool.and_eq_true, Bool.not_eq_true', fetchable_iff]

theorem IfId.valid_iff {l : IfId} : l.valid = true ↔ ∃ p w, l = .instr p w := by
  cases l <;> simp [IfId.valid]

theorem State.inFlight_iff {s : State} : s.inFlight = true ↔
    (∃ p w, s.ifid = .instr p w) ∨ s.idex ≠ none ∨ s.exmem ≠ none ∨ s.memwb ≠ none := by
  simp only [State.inFlight, Bool.or_eq_true, IfId.valid_iff, Option.isSome_iff_ne_none, or_assoc]

theorem drvState_eq_ite (s : State) : drvState s =
    if s.faultHalt then .halted else if s.canRun then .running
    else if s.inFlight then .draining else .halted := by
  rw [drvState, State.canRun_eq]
  rfl

theorem drvState_eq_running_iff {s : State} :
    drvState s = .running ↔ s.faultHalt = false ∧ s.canRun = true := by
  rw [drvState_eq_ite]
  cases s.faultHalt <;> cases s.canRun <;> cases s.inFlight <;> decide

theorem drvState_eq_draining_iff {s : State} :
    drvState s = .draining ↔ s.faultHalt = false ∧ s.canRun = false ∧ s.inFlight = true := by
  rw [drvState_eq_ite]
  cases s.faultHalt <;> cases s.canRun <;> cases s.inFlight <;> decide

theorem drvState_eq_halted_iff {s : State} :
    drvState s = .halted ↔ s.faultHalt = true ∨ (s.canRun = false ∧ s.inFlight = false) := by
  rw [drvState_eq_ite]
  cases s.faultHalt <;> cases s.canRun <;> cases s.inFlight <;> decide

/-! ### What a tick makes of the two tests -/

/-- The instruction that redirects goes on to ID/EX. -/
theorem decodeOut_idex_of_redirect {s : State} {target : Word}
    (h : s.decodeOut.redirect = some target) : s.decodeOut.idex ≠ none := by
  rcases decodeStage_cases s.tickNo s.ifid s.idex s.exmem s.memwb s.regsAfterWriteback with
    ⟨-, e⟩ | ⟨p, -, e⟩ | ⟨p, w, e', -, -, e⟩ | ⟨p, w, i, -, -, -, e⟩ | ⟨p, w, i, -, -, hz, e⟩
  all_goals rw [State.decodeOut, e] at h ⊢
  · cases h
  · cases h
  · cases h
  · cases h
  · simp [issue, hz]

/-- While Fetch can read, the tick leaves an instruction in IF/ID or, behind a redirect, in ID/EX. -/
theorem State.tickState_inFlight {s : State} (hd : s.drv ≠ .halted) (hr : s.canRun = true) :
    s.tickState.inFlight = true := by
  rw [State.inFlight_iff, State.tickState_ifid, State.tickState_idex]
  rcases tickKind_cases s with ⟨-, hs, e⟩ | ⟨-, target, hred, -⟩ | ⟨-, -, -, w, -, e⟩ |
    ⟨-, -, -, hc, -⟩
  · obtain ⟨-, p, w, -, hp, -⟩ := stalls_iff.mp ⟨hd, hs⟩
    rw [e]
    exact .inl ⟨p, w, hp⟩
  · exact .inr (.inl (decodeOut_idex_of_redirect hred))
  · rw [e]
    exact .inl ⟨s.pc, w, rfl⟩
  · rw [State.canRun, hc] at hr
    cases hr

/-- Only a redirect gives Fetch something to read again. -/
theorem State.tickState_canRun {s : State} (hr : s.canRun = false)
    (hred : s.decodeOut.redirect = none) : s.tickState.canRun = false := by
  rw [State.canRun, State.tickState_cfg, State.tickState_haltFlag, State.tickState_pc]
  rcases tickKind_cases s with ⟨-, -, e⟩ | ⟨-, target, hred', -⟩ | ⟨-, -, -, w, hc, -⟩ |
    ⟨-, -, -, -, e⟩
  · rw [e]
    exact hr
  · rw [hred] at hred'
    cases hred'
  · rw [State.canRun, hc] at hr
    cases hr
  · rw [e]
    exact hr

/-! ### The transitions -/

theorem PipeInv.drv_halted_of_running {s t : State} (hi : PipeInv s) (ht : step s = .next t)
    (hs : s.drv = .running) (hh : drvState t = .halted) : t.faultHalt = true := by
  obtain ⟨-, hrun⟩ := drvState_eq_running_iff.mp (hi.drv ▸ hs)
  obtain ⟨hd, -⟩ | ⟨hd, rfl⟩ := step_cases ht
  · rw [hs] at hd
    cases hd
  · refine (drvState_eq_halted_iff.mp hh).resolve_right fun ⟨_, hempty⟩ => ?_
    rw [State.tickState_inFlight hd hrun] at hempty
    cases hempty

theorem PipeInv.redirect_of_draining_running {s t : State} (hi : PipeInv s)
    (ht : step s = .next t) (hs : s.drv = .draining) (hr : drvState t = .running) :
    s.decodeOut.redirect ≠ none := by
  intro hred
  obtain ⟨-, hrun, -⟩ := drvState_eq_draining_iff.mp (hi.drv ▸ hs)
  obtain ⟨-, hrun'⟩ := drvState_eq_running_iff.mp hr
  obtain ⟨hd, -⟩ | ⟨-, rfl⟩ := step_cases ht
  · rw [hs] at hd
    cases hd
  · rw [State.tickState_canRun hrun hred] at hrun'
    cases hrun'

/-- Settles O45: the invariant makes `drv` the state function of the new state, whose tests are the four
cases; the transitions are what a tick makes of those tests. -/
theorem driverStateTransitions : Obligations.DriverStateTransitions := by
  intro s t hi ht canRun inFlight
  have hrun : canRun ↔ t.canRun = true := State.canRun_iff.symm
  have hfly : inFlight ↔ t.inFlight = true := State.inFlight_iff.symm
  rw [hrun, hfly, Bool.not_eq_true, Bool.not_eq_true,
    (pipelineInvariantIsKept s t hi ht).drv]
  refine ⟨fun h => drvState_eq_halted_iff.mpr (.inl h),
    fun h hr => drvState_eq_running_iff.mpr ⟨h, hr⟩,
    fun h hr hf => drvState_eq_draining_iff.mpr ⟨h, hr, hf⟩,
    fun _ hr hf => drvState_eq_halted_iff.mpr (.inr ⟨hr, hf⟩), rfl, fun hs => ?_,
    hi.drv_halted_of_running ht, hi.redirect_of_draining_running ht⟩
  obtain ⟨-, rfl⟩ | ⟨hd, -⟩ := step_cases ht
  · rw [← hi.drv, hs]
  · exact absurd hs hd

end Sys2Proof.Machine
end

section
/-! PROOFS. Encoding (R71 to R76): the decoder and the encoder are inverse to each other, the decoder is
the opcode table, and what each immediate is as a number. -/

namespace Sys2Proof

/-! ### Encode, then decode -/

/-- The word of a well-formed instruction has the instruction's fields. -/
theorem fieldsOf_encode {i : Instr} (h : i.wellFormed = true) : i.FieldsOf (encode i) := by
  cases i with
  | lui rd v | auipc rd v => exact encU_fields _ rd v
  | jal rd o => exact encJ_fields rd o h
  | jalr rd rs1 v | lb rd rs1 v | lh rd rs1 v | lw rd rs1 v | lbu rd rs1 v | lhu rd rs1 v
  | addi rd rs1 v | slti rd rs1 v | sltiu rd rs1 v | xori rd rs1 v | ori rd rs1 v
  | andi rd rs1 v => exact encI_fields _ _ rd rs1 v
  | beq rs1 rs2 o | bne rs1 rs2 o | blt rs1 rs2 o | bge rs1 rs2 o | bltu rs1 rs2 o
  | bgeu rs1 rs2 o => exact encB_fields _ rs1 rs2 o h
  | sb rs2 rs1 v | sh rs2 rs1 v | sw rs2 rs1 v => exact encS_fields _ rs1 rs2 v
  | slli rd rs1 v | srli rd rs1 v | srai rd rs1 v => exact encShift_fields _ _ rd rs1 v
  | add rd rs1 rs2 | sub rd rs1 rs2 | sll rd rs1 rs2 | slt rd rs1 rs2 | sltu rd rs1 rs2
  | xor rd rs1 rs2 | srl rd rs1 rs2 | sra rd rs1 rs2 | or rd rs1 rs2 | and rd rs1 rs2 =>
    exact encR_fields _ _ rd rs1 rs2

/-- Settles O1: the encoded word has the instruction's fields, and the decoder reads only fields. -/
theorem decodeOfEncodeIsIdentity : Obligations.DecodeOfEncodeIsIdentity :=
  fun _ h => decode_of_fields (fieldsOf_encode h)

/-! ### Decode, then encode: each format puts the fields of a word back in place

The slices of a concatenation are found by its parts' widths, so `simp` must not add those up first
(`-Nat.reduceAdd`). -/

section
variable {w : Word} {op f7 : BitVec 7} {f3 : BitVec 3}

theorem encU_of_fields (ho : opcodeOf w = op) : encU op (rdOf w) (fieldU w) = w := by
  subst ho
  simp [encU, opcodeOf, rdOf, fieldU,
    BitVec.extractLsb'_append_extractLsb'_eq_extractLsb', -Nat.reduceAdd]

theorem encI_of_fields (ho : opcodeOf w = op) (h3 : funct3Of w = f3) :
    encI op f3 (rdOf w) (rs1Of w) (fieldI w) = w := by
  subst ho h3
  simp [encI, opcodeOf, funct3Of, rdOf, rs1Of, fieldI,
    BitVec.extractLsb'_append_extractLsb'_eq_extractLsb', -Nat.reduceAdd]

theorem encR_of_fields (ho : opcodeOf w = 0x33#7) (h3 : funct3Of w = f3) (h7 : funct7Of w = f7) :
    encR f7 f3 (rdOf w) (rs1Of w) (rs2Of w) = w := by
  subst h3 h7
  simp [encR, ← ho, opcodeOf, funct3Of, funct7Of, rdOf, rs1Of, rs2Of,
    BitVec.extractLsb'_append_extractLsb'_eq_extractLsb', -Nat.reduceAdd]

theorem encShift_of_fields (ho : opcodeOf w = 0x13#7) (h3 : funct3Of w = f3)
    (h7 : funct7Of w = f7) : encShift f7 f3 (rdOf w) (rs1Of w) (rs2Of w) = w := by
  subst h3 h7
  simp [encShift, ← ho, opcodeOf, funct3Of, funct7Of, rdOf, rs1Of, rs2Of,
    BitVec.extractLsb'_append_extractLsb'_eq_extractLsb', -Nat.reduceAdd]

theorem encS_of_fields (ho : opcodeOf w = 0x23#7) (h3 : funct3Of w = f3) :
    encS f3 (rs1Of w) (rs2Of w) (fieldS w) = w := by
  subst h3
  have hhi : (fieldS w).extractLsb' 5 7 = w.extractLsb' 25 7 := BitVec.extractLsb'_append_eq_left
  have hlo : (fieldS w).extractLsb' 0 5 = w.extractLsb' 7 5 := BitVec.extractLsb'_append_eq_right
  simp [encS, hhi, hlo, ← ho, opcodeOf, funct3Of, rs1Of, rs2Of,
    BitVec.extractLsb'_append_extractLsb'_eq_extractLsb', -Nat.reduceAdd]

/-- The four slices of a B offset that the encoder takes apart. -/
theorem fieldB_slices (w : Word) : (fieldB w).extractLsb' 12 1 = w.extractLsb' 31 1 ∧
    (fieldB w).extractLsb' 5 6 = w.extractLsb' 25 6 ∧
    (fieldB w).extractLsb' 1 4 = w.extractLsb' 8 4 ∧
    (fieldB w).extractLsb' 11 1 = w.extractLsb' 7 1 := by
  simp [fieldB, BitVec.extractLsb'_append_eq_of_le, BitVec.extractLsb'_append_eq_right,
    -Nat.reduceAdd]

theorem encB_of_fields (ho : opcodeOf w = 0x63#7) (h3 : funct3Of w = f3) :
    encB f3 (rs1Of w) (rs2Of w) (fieldB w) = w := by
  subst h3
  simp [encB, fieldB_slices, ← ho, opcodeOf, funct3Of, rs1Of, rs2Of,
    BitVec.extractLsb'_append_extractLsb'_eq_extractLsb', -Nat.reduceAdd]

/-- The four slices of a J offset that the encoder takes apart. -/
theorem fieldJ_slices (w : Word) : (fieldJ w).extractLsb' 20 1 = w.extractLsb' 31 1 ∧
    (fieldJ w).extractLsb' 1 10 = w.extractLsb' 21 10 ∧
    (fieldJ w).extractLsb' 11 1 = w.extractLsb' 20 1 ∧
    (fieldJ w).extractLsb' 12 8 = w.extractLsb' 12 8 := by
  simp [fieldJ, BitVec.extractLsb'_append_eq_of_le, BitVec.extractLsb'_append_eq_right,
    -Nat.reduceAdd]

theorem encJ_of_fields (ho : opcodeOf w = 0x6F#7) : encJ (rdOf w) (fieldJ w) = w := by
  simp [encJ, fieldJ_slices, ← ho, opcodeOf, rdOf,
    BitVec.extractLsb'_append_extractLsb'_eq_extractLsb', -Nat.reduceAdd]

end

theorem evenOffset_fieldB (w : Word) : evenOffset (fieldB w) = true := by
  simp only [evenOffset, fieldB, BitVec.getLsbD_append]
  rfl

theorem evenOffset_fieldJ (w : Word) : evenOffset (fieldJ w) = true := by
  simp only [evenOffset, fieldJ, BitVec.getLsbD_append]
  rfl

/-- The instruction a word's fields make is well-formed, and its encoding is that word. -/
theorem encode_of_fieldsOf {w : Word} {i : Instr} (h : i.FieldsOf w) :
    i.wellFormed = true ∧ encode i = w := by
  cases i with
  | lui | auipc =>
    obtain ⟨ho, rfl, rfl⟩ := h
    exact ⟨rfl, encU_of_fields ho⟩
  | jal =>
    obtain ⟨ho, rfl, rfl⟩ := h
    exact ⟨evenOffset_fieldJ w, encJ_of_fields ho⟩
  | jalr | lb | lh | lw | lbu | lhu | addi | slti | sltiu | xori | ori | andi =>
    obtain ⟨ho, h3, rfl, rfl, rfl⟩ := h
    exact ⟨rfl, encI_of_fields ho h3⟩
  | beq | bne | blt | bge | bltu | bgeu =>
    obtain ⟨ho, h3, rfl, rfl, rfl⟩ := h
    exact ⟨evenOffset_fieldB w, encB_of_fields ho h3⟩
  | sb | sh | sw =>
    obtain ⟨ho, h3, rfl, rfl, rfl⟩ := h
    exact ⟨rfl, encS_of_fields ho h3⟩
  | slli | srli | srai =>
    obtain ⟨ho, h3, h7, rfl, rfl, rfl⟩ := h
    exact ⟨rfl, encShift_of_fields ho h3 h7⟩
  | add | sub | sll | slt | sltu | xor | srl | sra | or | and =>
    obtain ⟨ho, h3, h7, rfl, rfl, rfl⟩ := h
    exact ⟨rfl, encR_of_fields ho h3 h7⟩

/-- Settles O2: a recognized word has its instruction's fields, and the formats put them back. -/
theorem encodeOfDecodeIsIdentity : Obligations.EncodeOfDecodeIsIdentity :=
  fun _ _ h => encode_of_fieldsOf (decode_fields h)

/-! ### The opcode table -/

/-- The instruction of the same row with the word's operand fields. -/
def Instr.readFrom (w : Word) : Instr → Instr
  | .lui _ _ => .lui (rdOf w) (fieldU w)
  | .auipc _ _ => .auipc (rdOf w) (fieldU w)
  | .jal _ _ => .jal (rdOf w) (fieldJ w)
  | .jalr _ _ _ => .jalr (rdOf w) (rs1Of w) (fieldI w)
  | .beq _ _ _ => .beq (rs1Of w) (rs2Of w) (fieldB w)
  | .bne _ _ _ => .bne (rs1Of w) (rs2Of w) (fieldB w)
  | .blt _ _ _ => .blt (rs1Of w) (rs2Of w) (fieldB w)
  | .bge _ _ _ => .bge (rs1Of w) (rs2Of w) (fieldB w)
  | .bltu _ _ _ => .bltu (rs1Of w) (rs2Of w) (fieldB w)
  | .bgeu _ _ _ => .bgeu (rs1Of w) (rs2Of w) (fieldB w)
  | .lb _ _ _ => .lb (rdOf w) (rs1Of w) (fieldI w)
  | .lh _ _ _ => .lh (rdOf w) (rs1Of w) (fieldI w)
  | .lw _ _ _ => .lw (rdOf w) (rs1Of w) (fieldI w)
  | .lbu _ _ _ => .lbu (rdOf w) (rs1Of w) (fieldI w)
  | .lhu _ _ _ => .lhu (rdOf w) (rs1Of w) (fieldI w)
  | .sb _ _ _ => .sb (rs2Of w) (rs1Of w) (fieldS w)
  | .sh _ _ _ => .sh (rs2Of w) (rs1Of w) (fieldS w)
  | .sw _ _ _ => .sw (rs2Of w) (rs1Of w) (fieldS w)
  | .addi _ _ _ => .addi (rdOf w) (rs1Of w) (fieldI w)
  | .slti _ _ _ => .slti (rdOf w) (rs1Of w) (fieldI w)
  | .sltiu _ _ _ => .sltiu (rdOf w) (rs1Of w) (fieldI w)
  | .xori _ _ _ => .xori (rdOf w) (rs1Of w) (fieldI w)
  | .ori _ _ _ => .ori (rdOf w) (rs1Of w) (fieldI w)
  | .andi _ _ _ => .andi (rdOf w) (rs1Of w) (fieldI w)
  | .slli _ _ _ => .slli (rdOf w) (rs1Of w) (rs2Of w)
  | .srli _ _ _ => .srli (rdOf w) (rs1Of w) (rs2Of w)
  | .srai _ _ _ => .srai (rdOf w) (rs1Of w) (rs2Of w)
  | .add _ _ _ => .add (rdOf w) (rs1Of w) (rs2Of w)
  | .sub _ _ _ => .sub (rdOf w) (rs1Of w) (rs2Of w)
  | .sll _ _ _ => .sll (rdOf w) (rs1Of w) (rs2Of w)
  | .slt _ _ _ => .slt (rdOf w) (rs1Of w) (rs2Of w)
  | .sltu _ _ _ => .sltu (rdOf w) (rs1Of w) (rs2Of w)
  | .xor _ _ _ => .xor (rdOf w) (rs1Of w) (rs2Of w)
  | .srl _ _ _ => .srl (rdOf w) (rs1Of w) (rs2Of w)
  | .sra _ _ _ => .sra (rdOf w) (rs1Of w) (rs2Of w)
  | .or _ _ _ => .or (rdOf w) (rs1Of w) (rs2Of w)
  | .and _ _ _ => .and (rdOf w) (rs1Of w) (rs2Of w)

@[simp] theorem Instr.row_readFrom (w : Word) (i : Instr) : (i.readFrom w).row = i.row := by
  cases i <;> rfl

/-- A word that matches the row of an instruction decodes to that instruction, its operands read from
the word. -/
theorem decode_of_rowBits {w : Word} {i : Instr} (h : w &&& i.row.mask = i.row.bits) :
    decode w = .ok (i.readFrom w) := by
  apply decode_of_fields
  cases i with
  | lui | auipc | jal => exact ⟨(and_mask_opcode w _).mp h, rfl, rfl⟩
  | jalr | beq | bne | blt | bge | bltu | bgeu | lb | lh | lw | lbu | lhu | sb | sh | sw
  | addi | slti | sltiu | xori | ori | andi =>
    exact And.elim (fun ho h3 => ⟨ho, h3, rfl, rfl, rfl⟩) ((and_mask_funct3 w _ _).mp h)
  | slli | srli | srai | add | sub | sll | slt | sltu | xor | srl | sra | or | and =>
    exact And.elim (fun ho => And.elim fun h3 h7 => ⟨ho, h3, h7, rfl, rfl, rfl⟩)
      ((and_mask_funct7 w _ _ _).mp h)

/-- The match bits of each row are themselves a word of that row. -/
theorem opcodeTable_bits_decode : ∀ r ∈ opcodeTable, ∃ i, decode r.bits = .ok i ∧ i.row = r := by
  have h : ∀ r ∈ opcodeTable, (decode r.bits).map Instr.row = .ok r := by decide
  intro r hr
  specialize h r hr
  cases hd : decode r.bits with
  | ok i => exact ⟨i, rfl, Except.ok.inj (hd ▸ h)⟩
  | error e => rw [hd] at h; cases h

theorem decode_of_mem_opcodeTable {w : Word} {r : Row} (hr : r ∈ opcodeTable)
    (h : w &&& r.mask = r.bits) : ∃ i, decode w = .ok i ∧ i.row = r := by
  obtain ⟨i, -, rfl⟩ := opcodeTable_bits_decode r hr
  exact ⟨i.readFrom w, decode_of_rowBits h, i.row_readFrom w⟩

theorem Instr.row_mem_opcodeTable (i : Instr) : i.row ∈ opcodeTable :=
  List.mem_of_elem_eq_true (by cases i <;> rfl)

/-- No two rows of the table have the same match bits. -/
theorem opcodeTable_nodup : opcodeTable.Nodup := .of_map Row.bits (by decide)

open Laws.RowBits in
/-- Every word with the fields of an instruction matches the row of the instruction. -/
theorem rowBits_of_fieldsOf : ∀ i : Instr, Statement i
  | .lui rd v => lui rd v
  | .auipc rd v => auipc rd v
  | .jal rd o => jal rd o
  | .jalr rd rs1 v => jalr rd rs1 v
  | .beq rs1 rs2 o => beq rs1 rs2 o
  | .bne rs1 rs2 o => bne rs1 rs2 o
  | .blt rs1 rs2 o => blt rs1 rs2 o
  | .bge rs1 rs2 o => bge rs1 rs2 o
  | .bltu rs1 rs2 o => bltu rs1 rs2 o
  | .bgeu rs1 rs2 o => bgeu rs1 rs2 o
  | .lb rd rs1 v => lb rd rs1 v
  | .lh rd rs1 v => lh rd rs1 v
  | .lw rd rs1 v => lw rd rs1 v
  | .lbu rd rs1 v => lbu rd rs1 v
  | .lhu rd rs1 v => lhu rd rs1 v
  | .sb rs2 rs1 v => sb rs2 rs1 v
  | .sh rs2 rs1 v => sh rs2 rs1 v
  | .sw rs2 rs1 v => sw rs2 rs1 v
  | .addi rd rs1 v => addi rd rs1 v
  | .slti rd rs1 v => slti rd rs1 v
  | .sltiu rd rs1 v => sltiu rd rs1 v
  | .xori rd rs1 v => xori rd rs1 v
  | .ori rd rs1 v => ori rd rs1 v
  | .andi rd rs1 v => andi rd rs1 v
  | .slli rd rs1 v => slli rd rs1 v
  | .srli rd rs1 v => srli rd rs1 v
  | .srai rd rs1 v => srai rd rs1 v
  | .add rd rs1 rs2 => add rd rs1 rs2
  | .sub rd rs1 rs2 => sub rd rs1 rs2
  | .sll rd rs1 rs2 => sll rd rs1 rs2
  | .slt rd rs1 rs2 => slt rd rs1 rs2
  | .sltu rd rs1 rs2 => sltu rd rs1 rs2
  | .xor rd rs1 rs2 => xor rd rs1 rs2
  | .srl rd rs1 rs2 => srl rd rs1 rs2
  | .sra rd rs1 rs2 => sra rd rs1 rs2
  | .or rd rs1 rs2 => or rd rs1 rs2
  | .and rd rs1 rs2 => and rd rs1 rs2

/-- Settles O3: a row's word decodes to an instruction of that row, and the decoder answers one
instruction, so no word is of two rows. -/
theorem decoderMatchesTheOpcodeTable : Obligations.DecoderMatchesTheOpcodeTable := by
  refine ⟨rfl, opcodeTable_nodup.pairwise_of_forall_ne ?_,
    fun w i h => ⟨i.row_mem_opcodeTable, rowBits_of_fieldsOf i w (decode_fields h)⟩,
    fun w r => decode_of_mem_opcodeTable⟩
  rintro r hr r' hr' hne w ⟨h, h'⟩
  obtain ⟨i, hi, rfl⟩ := decode_of_mem_opcodeTable hr h
  obtain ⟨j, hj, rfl⟩ := decode_of_mem_opcodeTable hr' h'
  obtain rfl : i = j := Except.ok.inj (hi.symm.trans hj)
  exact hne rfl

/-- Settles O5: the words of `95_test_vectors.md` section 2.3, each evaluated. -/
theorem unrecognizedWordsAreRejected : Obligations.UnrecognizedWordsAreRejected := by
  unfold Obligations.UnrecognizedWordsAreRejected
  decide

/-! ### Immediates as numbers -/

/-- Sign extension to 32 bits keeps the signed value (R7). -/
theorem toInt_sext {n : Nat} (v : BitVec n) (hn : n ≤ 32) : (sext v).toInt = v.toInt :=
  BitVec.toInt_signExtend_of_le hn

/-- One bit read as a signed number is 0 or -1: the sign bit's weight is negative. -/
theorem toInt_of_width_one (b : BitVec 1) : b.toInt = -b.toNat := by
  revert b
  decide

/-- The signed value of a concatenation: only the upper part carries the sign. -/
theorem toInt_append_of_ne_zero {n m : Nat} (x : BitVec n) (y : BitVec m) (hn : n ≠ 0) :
    (x ++ y).toInt = 2 ^ m * x.toInt + y.toNat := by
  rw [BitVec.toInt_append, if_neg (by simpa using hn)]

theorem fieldI_eq_append (w : Word) : fieldI w = w.extractLsb' 31 1 ++ w.extractLsb' 20 11 :=
  (BitVec.extractLsb'_append_extractLsb'_eq_extractLsb' (start₁ := 20) (len₁ := 11)
    (len₂ := 1) rfl).symm

theorem fieldS_eq_append (w : Word) :
    fieldS w = w.extractLsb' 31 1 ++ w.extractLsb' 25 6 ++ w.extractLsb' 7 5 :=
  congrArg (· ++ w.extractLsb' 7 5)
    (BitVec.extractLsb'_append_extractLsb'_eq_extractLsb' (start₁ := 25) (len₁ := 6)
      (len₂ := 1) rfl).symm

/-- Settles O6: each immediate is the concatenation of its bit fields below the sign bit `w[31]`. -/
theorem immediatesAreAssembledFromTheWord : Obligations.ImmediatesAreAssembledFromTheWord := by
  intro w
  refine ⟨?_, ?_, ?_, ?_, ?_⟩
  · rw [immI, toInt_sext _ (by decide), fieldI_eq_append]
    simp (disch := decide) only [toInt_append_of_ne_zero, toInt_of_width_one]
    omega
  · rw [immS, toInt_sext _ (by decide), fieldS_eq_append]
    simp (disch := decide) only [toInt_append_of_ne_zero, toInt_of_width_one]
    omega
  · rw [immB, toInt_sext _ (by decide), fieldB]
    simp (disch := decide) only [toInt_append_of_ne_zero, toInt_of_width_one, BitVec.toNat_zero]
    omega
  · rw [immU, upper, BitVec.toNat_append]
    simp [fieldU, Nat.shiftLeft_eq, Nat.mul_comm]
  · rw [immJ, toInt_sext _ (by decide), fieldJ]
    simp (disch := decide) only [toInt_append_of_ne_zero, toInt_of_width_one, BitVec.toNat_zero]
    omega

end Sys2Proof
end

section
/-! PROOFS. The descriptor (R100 to R107): the class of a word is its opcode's, the class fixes the
control flags, and `funct3` and `funct7` select the ALU operation and the access. -/

namespace Sys2Proof

/-! ### The class (R101) -/

/-- The opcode of a class (R74, R101). -/
def OpClass.opcode : OpClass → BitVec 7
  | .op => 0x33#7
  | .opImm => 0x13#7
  | .load => 0x03#7
  | .store => 0x23#7
  | .branch => 0x63#7
  | .jal => 0x6F#7
  | .jalr => 0x67#7
  | .lui => 0x37#7
  | .auipc => 0x17#7

theorem OpClass.opcode_injective {c c' : OpClass} (h : c.opcode = c'.opcode) : c = c' := by
  revert h
  cases c <;> cases c' <;> decide

/-- A word with an instruction's fields has the opcode of the instruction's class. -/
theorem opcodeOf_of_fieldsOf {w : Word} {i : Instr} (h : i.FieldsOf w) :
    opcodeOf w = i.cls.opcode := by
  cases i <;> exact h.1

/-- R101: the table of opcodes and classes. -/
theorem opcodeOf_cls_mem {w : Word} {i : Instr} (h : i.FieldsOf w) : (opcodeOf w, i.cls) ∈
    [(0x33#7, OpClass.op), (0x13#7, .opImm), (0x03#7, .load), (0x23#7, .store), (0x63#7, .branch),
     (0x6F#7, .jal), (0x67#7, .jalr), (0x37#7, .lui), (0x17#7, .auipc)] := by
  rw [opcodeOf_of_fieldsOf h]
  cases i.cls <;> decide

/-- The opcode of a recognized word says which class its instruction is of. -/
theorem cls_of_decode {w : Word} {i : Instr} (c : OpClass) (h : decode w = .ok i)
    (ho : opcodeOf w = c.opcode) : i.cls = c :=
  OpClass.opcode_injective ((opcodeOf_of_fieldsOf (decode_fields h)).symm.trans ho)

/-! ### The control flags (R102, R105) -/

theorem OpClass.regWrite_iff (c : OpClass) : c.regWrite = true ↔ c ≠ .store ∧ c ≠ .branch := by
  cases c <;> decide

theorem OpClass.aluSrc_iff (c : OpClass) :
    c.aluSrc = true ↔ c ∈ [OpClass.opImm, .load, .store, .lui, .auipc] := by
  cases c <;> decide

theorem OpClass.usesRs1_iff (c : OpClass) :
    c.usesRs1 = true ↔ c ∉ [OpClass.lui, .auipc, .jal] := by
  cases c <;> decide

theorem OpClass.usesRs2_iff (c : OpClass) :
    c.usesRs2 = true ↔ c ∈ [OpClass.op, .store, .branch] := by
  cases c <;> decide

theorem Instr.memWidth_eq_none_iff (i : Instr) :
    i.memWidth = none ↔ i.cls ≠ .load ∧ i.cls ≠ .store := by
  cases i <;> simp [Instr.memWidth, Instr.cls]

theorem Instr.memSigned_of_cls_ne_load {i : Instr} (h : i.cls ≠ .load) : i.memSigned = false := by
  cases i with
  | lb | lh | lw => exact absurd rfl h
  | _ => rfl

theorem Instr.aluOp_of_cls_ne {i : Instr} (h : i.cls ≠ .op) (h' : i.cls ≠ .opImm) :
    i.aluOp = .add := by
  cases i with
  | slti | sltiu | xori | ori | andi | slli | srli | srai => exact absurd rfl h'
  | sub | sll | slt | sltu | xor | srl | sra | or | and => exact absurd rfl h
  | _ => rfl

/-- Settles O7: the raw fields are the word's own, the class is the opcode's, and each flag is a function
of the class. -/
theorem descriptorFollowsTheOpcode : Obligations.DescriptorFollowsTheOpcode := by
  intro w d hd
  obtain ⟨i, hi, rfl⟩ := decodeDescriptor_eq_ok_iff.mp hd
  have hjump : (describe i w).isJump = true ↔ i.cls = .jal ∨ i.cls = .jalr := by
    simp [describe]
  exact ⟨rfl, rfl, rfl, rfl, rfl, opcodeOf_cls_mem (decode_fields hi), i.cls.regWrite_iff,
    beq_iff_eq, beq_iff_eq, beq_iff_eq, hjump, i.cls.aluSrc_iff, i.cls.usesRs1_iff,
    i.cls.usesRs2_iff, i.memWidth_eq_none_iff, Instr.memSigned_of_cls_ne_load,
    Instr.aluOp_of_cls_ne, rfl⟩

/-! ### The ALU operation (R103) and the access (R104) -/

theorem exists_decodeDescriptor_iff {w : Word} {P : Descriptor → Prop} :
    (∃ d, decodeDescriptor w = .ok d ∧ P d) ↔ ∃ i, decode w = .ok i ∧ P (describe i w) := by
  simp [decodeDescriptor_eq_ok_iff]

theorem decodeDescriptor_error {w : Word} {e : DecodeReject} (h : decode w = .error e) :
    decodeDescriptor w = .error e := by
  simp [decodeDescriptor, h]

theorem decode_eq_decodeOp {w : Word} (ho : opcodeOf w = 0x33#7) : decode w = decodeOp w := by
  simp [decode, ho]

theorem decode_eq_decodeOpImm {w : Word} (ho : opcodeOf w = 0x13#7) :
    decode w = decodeOpImm w := by
  simp [decode, ho]

theorem decode_eq_decodeLoad {w : Word} (ho : opcodeOf w = 0x03#7) : decode w = decodeLoad w := by
  simp [decode, ho]

theorem decode_eq_decodeStore {w : Word} (ho : opcodeOf w = 0x23#7) :
    decode w = decodeStore w := by
  simp [decode, ho]

/-- R103 under `OP`: `funct3` and `funct7` together select the operation. -/
theorem decode_aluOp_of_op {w : Word} (ho : opcodeOf w = 0x33#7) (op : AluOp) :
    (∃ i, decode w = .ok i ∧ i.aluOp = op) ↔ (funct3Of w, funct7Of w, op) ∈
      [(0#3, 0#7, AluOp.add), (0#3, 0x20#7, .sub), (1#3, 0#7, .sll), (2#3, 0#7, .slt),
       (3#3, 0#7, .sltu), (4#3, 0#7, .xor), (5#3, 0#7, .srl), (5#3, 0x20#7, .sra),
       (6#3, 0#7, .or), (7#3, 0#7, .and)] := by
  constructor
  · rintro ⟨i, hi, rfl⟩
    have hc := cls_of_decode .op hi ho
    have hf := decode_fields hi
    cases i with
    | add | sub | sll | slt | sltu | xor | srl | sra | or | and =>
      obtain ⟨-, h3, h7, -⟩ := hf
      simp [h3, h7, Instr.aluOp]
    | _ => cases hc
  · simp only [List.mem_cons, Prod.mk.injEq, List.not_mem_nil, or_false]
    rintro (⟨h3, h7, rfl⟩ | ⟨h3, h7, rfl⟩ | ⟨h3, h7, rfl⟩ | ⟨h3, h7, rfl⟩ | ⟨h3, h7, rfl⟩ |
      ⟨h3, h7, rfl⟩ | ⟨h3, h7, rfl⟩ | ⟨h3, h7, rfl⟩ | ⟨h3, h7, rfl⟩ | ⟨h3, h7, rfl⟩) <;>
      simp [decode_eq_decodeOp ho, decodeOp, h3, h7, Instr.aluOp]

/-- R103 under `OP-IMM`: `funct3` selects the operation, and for the shifts `funct7` too. -/
theorem decode_aluOp_of_opImm {w : Word} (ho : opcodeOf w = 0x13#7) (op : AluOp) :
    (∃ i, decode w = .ok i ∧ i.aluOp = op) ↔
      (funct3Of w, op) ∈
        [(0#3, AluOp.add), (2#3, .slt), (3#3, .sltu), (4#3, .xor), (6#3, .or), (7#3, .and)] ∨
      (funct3Of w, funct7Of w, op) ∈
        [(1#3, 0#7, AluOp.sll), (5#3, 0#7, .srl), (5#3, 0x20#7, .sra)] := by
  constructor
  · rintro ⟨i, hi, rfl⟩
    have hc := cls_of_decode .opImm hi ho
    have hf := decode_fields hi
    cases i with
    | addi | slti | sltiu | xori | ori | andi =>
      obtain ⟨-, h3, -⟩ := hf
      simp [h3, Instr.aluOp]
    | slli | srli | srai =>
      obtain ⟨-, h3, h7, -⟩ := hf
      simp [h3, h7, Instr.aluOp]
    | _ => cases hc
  · simp only [List.mem_cons, Prod.mk.injEq, List.not_mem_nil, or_false]
    rintro ((⟨h3, rfl⟩ | ⟨h3, rfl⟩ | ⟨h3, rfl⟩ | ⟨h3, rfl⟩ | ⟨h3, rfl⟩ | ⟨h3, rfl⟩) |
      (⟨h3, h7, rfl⟩ | ⟨h3, h7, rfl⟩ | ⟨h3, h7, rfl⟩)) <;>
      simp [decode_eq_decodeOpImm ho, decodeOpImm, *, Instr.aluOp]

/-- Settles O8: a descriptor's operation is its instruction's, which the function fields select. -/
theorem aluOpFollowsTheFunctFields : Obligations.AluOpFollowsTheFunctFields :=
  fun _ op => ⟨fun ho => exists_decodeDescriptor_iff.trans (decode_aluOp_of_op ho op),
    fun ho => exists_decodeDescriptor_iff.trans (decode_aluOp_of_opImm ho op)⟩

/-- R104 under `LOAD`: `funct3` selects width and signedness. -/
theorem decode_access_of_load {w : Word} (ho : opcodeOf w = 0x03#7) (n : Size) (signed : Bool) :
    (∃ i, decode w = .ok i ∧ i.memWidth = some n ∧ i.memSigned = signed) ↔
      (funct3Of w, n, signed) ∈
        [(0#3, Size.byte, true), (1#3, .half, true), (2#3, .word, true), (4#3, .byte, false),
         (5#3, .half, false)] := by
  constructor
  · rintro ⟨i, hi, hn, rfl⟩
    have hc := cls_of_decode .load hi ho
    have hf := decode_fields hi
    cases i with
    | lb | lh | lw | lbu | lhu =>
      cases hn
      obtain ⟨-, h3, -⟩ := hf
      simp [h3, Instr.memSigned]
    | _ => cases hc
  · simp only [List.mem_cons, Prod.mk.injEq, List.not_mem_nil, or_false]
    rintro (⟨h3, rfl, rfl⟩ | ⟨h3, rfl, rfl⟩ | ⟨h3, rfl, rfl⟩ | ⟨h3, rfl, rfl⟩ | ⟨h3, rfl, rfl⟩) <;>
      simp [decode_eq_decodeLoad ho, decodeLoad, h3, Instr.memWidth, Instr.memSigned]

/-- R104 under `STORE`: `funct3` selects the width. -/
theorem decode_access_of_store {w : Word} (ho : opcodeOf w = 0x23#7) (n : Size) (signed : Bool) :
    (∃ i, decode w = .ok i ∧ i.memWidth = some n ∧ i.memSigned = signed) ↔
      (funct3Of w, n, signed) ∈
        [(0#3, Size.byte, false), (1#3, .half, false), (2#3, .word, false)] := by
  constructor
  · rintro ⟨i, hi, hn, rfl⟩
    have hc := cls_of_decode .store hi ho
    have hf := decode_fields hi
    cases i with
    | sb | sh | sw =>
      cases hn
      obtain ⟨-, h3, -⟩ := hf
      simp [h3, Instr.memSigned]
    | _ => cases hc
  · simp only [List.mem_cons, Prod.mk.injEq, List.not_mem_nil, or_false]
    rintro (⟨h3, rfl, rfl⟩ | ⟨h3, rfl, rfl⟩ | ⟨h3, rfl, rfl⟩) <;>
      simp [decode_eq_decodeStore ho, decodeStore, h3, Instr.memWidth, Instr.memSigned]

theorem decode_loadFunct3 {w : Word} (ho : opcodeOf w = 0x03#7)
    (h3 : funct3Of w ∈ [3#3, 6#3, 7#3]) : decode w = .error .loadFunct3 := by
  simp only [List.mem_cons, List.not_mem_nil, or_false] at h3
  rcases h3 with h3 | h3 | h3 <;> simp [decode_eq_decodeLoad ho, decodeLoad, h3]

theorem decode_storeFunct3 {w : Word} (ho : opcodeOf w = 0x23#7)
    (h3 : funct3Of w ∉ [0#3, 1#3, 2#3]) : decode w = .error .storeFunct3 := by
  simp only [List.mem_cons, List.not_mem_nil, or_false, not_or] at h3
  simp [decode_eq_decodeStore ho, decodeStore, h3]

/-- Settles O9: a descriptor's access is its instruction's, which `funct3` selects or rejects. -/
theorem accessWidthFollowsFunct3 : Obligations.AccessWidthFollowsFunct3 :=
  fun _ n signed =>
    ⟨fun ho => exists_decodeDescriptor_iff.trans (decode_access_of_load ho n signed),
      fun ho => exists_decodeDescriptor_iff.trans (decode_access_of_store ho n signed),
      fun ho h3 => decodeDescriptor_error (decode_loadFunct3 ho h3),
      fun ho h3 => decodeDescriptor_error (decode_storeFunct3 ho h3)⟩

end Sys2Proof
end

section
/-! PROOFS. What Decode makes of the word in IF/ID: a stall, exactly on the hazards of R221 to R223, or a
bubble where the word has no descriptor (R281). -/

namespace Sys2Proof.Machine

/-! ### The stall decision (R220 to R224) -/

theorem early_iff {d : Descriptor} : early d = true ↔ d.isBranch = true ∨ d.cls = .jalr := by
  simp [early]

theorem loadUse_iff {d : Descriptor} {idex : Option IdEx} : loadUse d idex = true ↔
    ∃ x, idex = some x ∧ x.d.memRead = true ∧ readsReg d x.d.rd = true := by
  cases idex <;> simp [loadUse]

theorem hazA_iff {d : Descriptor} {idex : Option IdEx} : hazA d idex = true ↔
    early d = true ∧ ∃ x, idex = some x ∧ x.d.regWrite = true ∧ readsReg d x.d.rd = true := by
  cases idex <;> simp [hazA, and_assoc]

theorem hazB_iff {d : Descriptor} {exmem : Option ExMem} : hazB d exmem = true ↔
    early d = true ∧ ∃ e, exmem = some e ∧ e.d.memRead = true ∧ readsReg d e.d.rd = true := by
  cases exmem <;> simp [hazB, and_assoc]

/-- For a recognized word in IF/ID, Decode stalls exactly when the hazard unit says so. -/
theorem State.decodeOut_stall {s : State} {p w : Word} {d : Descriptor} (hp : s.ifid = .instr p w)
    (hd : decodeDescriptor w = .ok d) : s.decodeOut.stall = hazard d s.idex s.exmem := by
  rw [State.decodeOut, hp]
  cases hz : hazard d s.idex s.exmem with
  | true => rw [decodeStage_stall hd hz]
  | false => rw [decodeStage_issue hd hz]

/-- Settles O36: a stall is the hazard unit's answer, which is one of its three hazards. -/
theorem stallExactlyWhen : Obligations.StallExactlyWhen := by
  refine ⟨fun _ _ => readsReg_eq_true, fun s p w d hdrv hp hd => ?_⟩
  calc Stalls s
    _ ↔ hazard d s.idex s.exmem = true := by
        rw [Stalls, State.decodeOut_stall hp hd, and_iff_right hdrv]
    _ ↔ _ := by
        rw [hazard, Bool.or_eq_true, Bool.or_eq_true, loadUse_iff, hazA_iff, hazB_iff, early_iff,
          or_assoc, ← and_or_left]

/-! ### An unrecognized word (R107, R281) -/

theorem State.fetchOut_haltFlag_of_no_redirect {s : State} (hr : s.decodeOut.redirect = none) :
    s.fetchOut.haltFlag = s.haltFlag := by
  obtain ⟨-, -, e⟩ | ⟨-, target, ht, -⟩ | ⟨-, -, -, w, -, e⟩ | ⟨-, -, -, -, e⟩ := tickKind_cases s
  · rw [e]
  · rw [hr] at ht
    cases ht
  · rw [e]
  · rw [e]

/-- Settles O38: Decode answers a bubble and its report, so the tick's Fetch is an ordinary one. -/
theorem unrecognizedWordBecomesBubble : Obligations.UnrecognizedWordBecomesBubble := by
  intro s t p w e hdrv hp he ht
  have hout : s.decodeOut = ⟨none, false, none, [(p, .ID)], [⟨.decodeFault, s.tickNo, p, w⟩]⟩ := by
    rw [State.decodeOut, hp, decodeStage_reject he]
  have hs : s.decodeOut.stall = false := by rw [hout]
  have hr : s.decodeOut.redirect = none := by rw [hout]
  obtain ⟨hfetch, hidle⟩ := fetchReadsTheImage.2 s t hdrv hs hr ht
  obtain ⟨hh, -⟩ | ⟨-, rfl⟩ := step_cases ht
  · exact absurd hh hdrv
  refine ⟨?_, hs, hr, ?_, ?_, State.fetchOut_haltFlag_of_no_redirect hr, rfl,
    fun hh w' => hfetch w' hh, hidle⟩
  · rw [State.tickState_idex, hout]
  · rw [hout]
  · rw [State.tickState_diags, State.tickDiags, hout, ← List.append_assoc]
    rfl

end Sys2Proof.Machine
end

section
/-! PROOFS. The computational instructions (R120 to R144): each row of the ALU table as integer
arithmetic, and each instruction as the write of its row's value. -/

namespace Sys2Proof.Machine

/-! ### The rows of the ALU table (R120) -/

theorem ofBool_decide (p : Prop) [Decidable p] : ofBool (decide p) = if p then 1 else 0 := by
  simp [ofBool]

theorem alu_add_eq (a b : Word) : alu .add a b = BitVec.ofNat 32 (a.toNat + b.toNat) :=
  word_eq_ofNat (BitVec.toNat_add a b)

theorem alu_sub_eq (a b : Word) : alu .sub a b = BitVec.ofInt 32 (a.toInt - b.toInt) := by
  apply BitVec.eq_of_toInt_eq
  rw [BitVec.toInt_ofInt]
  exact BitVec.toInt_sub

theorem toNat_alu_sll (a b : Word) :
    (alu .sll a b).toNat = a.toNat * 2 ^ (b.toNat % 32) % 2 ^ 32 := by
  rw [alu, BitVec.toNat_shiftLeft, Nat.shiftLeft_eq, shamtOf_eq]

theorem toNat_alu_srl (a b : Word) : (alu .srl a b).toNat = a.toNat / 2 ^ (b.toNat % 32) := by
  rw [alu, BitVec.toNat_ushiftRight, Nat.shiftRight_eq_div_pow, shamtOf_eq]

/-- Shifting a signed number right divides it, rounding down. -/
theorem toInt_alu_sra (a b : Word) : (alu .sra a b).toInt = a.toInt / 2 ^ (b.toNat % 32) := by
  rw [alu, BitVec.toInt_sshiftRight, Int.shiftRight_eq_div_pow, shamtOf_eq, Nat.cast_pow,
    Nat.cast_ofNat]

theorem alu_slt_eq (a b : Word) : alu .slt a b = if a.toInt < b.toInt then 1 else 0 :=
  ofBool_decide _

theorem alu_sltu_eq (a b : Word) : alu .sltu a b = if a.toNat < b.toNat then 1 else 0 :=
  ofBool_decide _

/-- Settles O10: row by row; the three bitwise rows are the library's bit lemmas. -/
theorem aluComputesItsTable : Obligations.AluComputesItsTable := fun a b =>
  ⟨BitVec.toNat_add a b, alu_sub_eq a b, fun _ => BitVec.getLsbD_and, fun _ => BitVec.getLsbD_or,
    fun _ => BitVec.getLsbD_xor, toNat_alu_sll a b, toNat_alu_srl a b, toInt_alu_sra a b,
    alu_slt_eq a b, alu_sltu_eq a b⟩

/-! ### Shifts as values

The amount is `b[4:0]`: the low bits of a register (R126, R130, R131), all of an immediate's
`shamt` (R140 to R142). -/

theorem alu_sll_eq {a b : Word} {k : Nat} (hk : b.toNat % 32 = k) :
    alu .sll a b = BitVec.ofNat 32 (a.toNat * 2 ^ k) :=
  word_eq_ofNat (hk ▸ toNat_alu_sll a b)

theorem alu_srl_eq {a b : Word} {k : Nat} (hk : b.toNat % 32 = k) :
    alu .srl a b = BitVec.ofNat 32 (a.toNat / 2 ^ k) := by
  rw [← hk, ← toNat_alu_srl, BitVec.ofNat_toNat, BitVec.setWidth_eq]

theorem alu_sra_eq {a b : Word} {k : Nat} (hk : b.toNat % 32 = k) :
    alu .sra a b = BitVec.ofInt 32 (a.toInt / 2 ^ k) :=
  word_eq_ofInt (hk ▸ toInt_alu_sra a b)

theorem toNat_setWidth_shamt (shamt : BitVec 5) :
    (shamt.setWidth 32).toNat % 32 = shamt.toNat := by
  rw [BitVec.toNat_setWidth_of_le (by decide), Nat.mod_eq_of_lt shamt.isLt]

/-! ### The instructions (R124 to R144) -/

/-- An instruction that completes with `x` computes every value equal to `x`. -/
theorem computes_of_complete_eq {i : Instr} {s : State} {rd : Reg} {x v : Word}
    (h : exec i s = .next (s.complete rd x)) (hx : x = v) : Computes i s rd v :=
  hx ▸ computes_of_complete h

/-- Settles O12: each instruction completes with its ALU row's value. -/
theorem registerRegisterInstructionsComplete :
    Obligations.RegisterRegisterInstructionsComplete := by
  refine ⟨fun s rd rs1 rs2 => ⟨?add, ?sub, ?sll, ?slt, ?sltu, ?xor, ?srl, ?sra, ?or, ?and⟩,
    by decide⟩
  case add => exact computes_of_complete_eq rfl (alu_add_eq _ _)
  case sub => exact computes_of_complete_eq rfl (alu_sub_eq _ _)
  case sll => exact computes_of_complete_eq rfl (alu_sll_eq rfl)
  case slt => exact computes_of_complete_eq rfl (alu_slt_eq _ _)
  case sltu => exact computes_of_complete_eq rfl (alu_sltu_eq _ _)
  case srl => exact computes_of_complete_eq rfl (alu_srl_eq rfl)
  case sra => exact computes_of_complete_eq rfl (alu_sra_eq rfl)
  case xor | or | and => exact computes_of_complete rfl

/-- Settles O13: each instruction completes with its ALU row's value at the sign-extended immediate,
whose signed value is the immediate's own. -/
theorem registerImmediateInstructionsComplete :
    Obligations.RegisterImmediateInstructionsComplete := by
  refine ⟨fun s rd rs1 imm => ?_, by decide⟩
  dsimp only
  rw [← toInt_sext imm (by decide), BitVec.ofInt_toInt]
  refine ⟨?addi, ?slti, ?sltiu, ?xori, ?ori, ?andi⟩
  case addi => exact computes_of_complete_eq rfl (alu_add_eq _ _)
  case slti => exact computes_of_complete_eq rfl (alu_slt_eq _ _)
  case sltiu => exact computes_of_complete_eq rfl (alu_sltu_eq _ _)
  case xori | ori | andi => exact computes_of_complete rfl

/-- Settles O14: `shamt` widened to 32 bits is its own amount. -/
theorem immediateShiftsComplete : Obligations.ImmediateShiftsComplete := fun _ _ _ shamt =>
  have hk := toNat_setWidth_shamt shamt
  ⟨computes_of_complete_eq rfl (alu_sll_eq hk), computes_of_complete_eq rfl (alu_srl_eq hk),
    computes_of_complete_eq rfl (alu_sra_eq hk)⟩

/-- Settles O15: the upper immediate is 4096 times its field. -/
theorem upperImmediateInstructionsComplete : Obligations.UpperImmediateInstructionsComplete := by
  refine fun s rd imm20 => ⟨computes_of_complete_eq rfl (upper_eq imm20),
    computes_of_complete_eq rfl ?_⟩
  rw [upper_eq, BitVec.ofNat_add, BitVec.ofNat_toNat, BitVec.setWidth_eq]

end Sys2Proof.Machine
end

section
/-! PROOFS. The control transfers (R150 to R163): the branch comparator as comparisons of numbers, and
each branch and jump as the redirect or the fall-through it makes. -/

namespace Sys2Proof.Machine

/-! ### The branch comparator (R151) -/

theorem isEq_iff {a b : Word} : isEq a b = true ↔ a = b := beq_iff_eq

theorem isNe_iff {a b : Word} : isNe a b = true ↔ a ≠ b := bne_iff_ne

theorem isLt_iff {a b : Word} : isLt a b = true ↔ a.toInt < b.toInt := BitVec.slt_iff_toInt_lt

theorem isGe_iff {a b : Word} : isGe a b = true ↔ a.toInt ≥ b.toInt := BitVec.sle_iff_toInt_le

theorem isLtu_iff {a b : Word} : isLtu a b = true ↔ a.toNat < b.toNat := BitVec.ult_iff_lt

theorem isGeu_iff {a b : Word} : isGeu a b = true ↔ a.toNat ≥ b.toNat := BitVec.ule_iff_le

/-- Settles O11: each of the six `funct3` values selects one comparison. -/
theorem comparatorDecidesPerFunct3 : Obligations.ComparatorDecidesPerFunct3 := fun _ _ =>
  ⟨isEq_iff, isNe_iff, isLt_iff, isGe_iff, isLtu_iff, isGeu_iff⟩

/-! ### The branches (R152 to R157) -/

/-- Settles O16: each branch is `State.branch` on its own comparison. -/
theorem branchesComplete : Obligations.BranchesComplete := by
  refine ⟨fun s rs1 rs2 offset => ?_, by decide⟩
  dsimp only
  rw [← sext_eq offset (by decide)]
  exact ⟨branchesOn_of_branch rfl isEq_iff, branchesOn_of_branch rfl isNe_iff,
    branchesOn_of_branch rfl isLt_iff, branchesOn_of_branch rfl isGe_iff,
    branchesOn_of_branch rfl isLtu_iff, branchesOn_of_branch rfl isGeu_iff⟩

/-! ### The jumps (R158, R159) -/

/-- Clearing bit 0 rounds down to an even number. -/
theorem jalrTarget_eq (base off : Word) :
    jalrTarget base off = BitVec.ofNat 32 (2 * ((base + off).toNat / 2)) := by
  have hmask : ∀ i < 32, (0xFFFFFFFE#32).getLsbD i = decide (1 ≤ i) := by decide
  apply BitVec.eq_of_getLsbD_eq
  intro i hi
  rw [jalrTarget, BitVec.getLsbD_and, hmask i hi, BitVec.getLsbD_ofNat, ← BitVec.testBit_toNat]
  cases i with
  | zero => simp
  | succ i => simp [hi, Nat.testBit_succ]

/-- Settles O17: each jump is a link and then a redirect; the target of JALR is read before the link is
written. -/
theorem jumpsComplete : Obligations.JumpsComplete := by
  refine ⟨fun s rd offset => ?jal, fun s rd rs1 imm => ?jalr⟩
  case jal =>
    rw [← sext_eq offset (by decide)]
    exact jumpsTo_of_redirect rfl
  case jalr =>
    rw [← sext_eq imm (by decide), ← jalrTarget_eq]
    exact jumpsTo_of_redirect rfl

end Sys2Proof.Machine
end

section
/-! PROOFS. Loads and stores (R170 to R180): the bytes a completing access brings or leaves, and what
a faulting one does in each mode (R282, R283). -/

namespace Sys2Proof.Machine

/-- R170: the offset counts as a signed number. -/
theorem effectiveAddress_eq (s : State) (rs1 : Reg) (imm : BitVec 12) :
    effectiveAddress s rs1 imm = s.reg rs1 + BitVec.ofInt 32 imm.toInt :=
  congrArg (s.reg rs1 + ·) (sext_eq imm (by decide))

/-! ### Accesses that do not fault -/

theorem computes_of_load {i : Instr} {s : State} {rd : Reg} {A v : Word} {n : Size} {signed : Bool}
    (h : exec i s = .next (s.load rd A n signed)) (hf : accessFault s.cfg A n = none)
    (hv : loadValue s.dmem A n signed = v) : Computes i s rd v := by
  rw [State.load_of_noFault hf] at h
  exact computes_of_complete_eq h hv

/-- R174, R175: an unsigned load zero-extends what it reads. -/
theorem loadValue_unsigned {m : Memory} {A : Word} {n : Size} {v : BitVec (8 * n.bytes)}
    (h : memRead m A n = v) : loadValue m A n false = v.setWidth 32 :=
  congrArg (extend false) h

/-- R171, R172: a signed load sign-extends what it reads. -/
theorem loadValue_signed {m : Memory} {A : Word} {n : Size} {v : BitVec (8 * n.bytes)}
    (h : memRead m A n = v) : loadValue m A n true = v.signExtend 32 :=
  congrArg (extend true) h

/-- R173: a word load reads the four bytes of `W(A)`, and there is nothing to extend. -/
theorem loadValue_word (m : Memory) (A : Word) :
    loadValue m A .word true =
      readByte m (A.toNat / 4 * 4 + 3) ++ readByte m (A.toNat / 4 * 4 + 2) ++
        readByte m (A.toNat / 4 * 4 + 1) ++ readByte m (A.toNat / 4 * 4) := by
  rw [← toNat_containing]
  exact (loadValue_signed (memRead_word_eq m A)).trans (BitVec.signExtend_eq _)

/-- Settles O18: no load faults under the range hypothesis, but for a halfword at offset 3. -/
theorem loadsComplete : Obligations.LoadsComplete := by
  refine fun s rd rs1 imm => ⟨effectiveAddress_eq s rs1 imm, fun hr =>
    ⟨?lb, ?lbu, fun h3 => ⟨?lh, ?lhu⟩, ?lw⟩⟩
  case lb =>
    exact computes_of_load rfl (accessFault_eq_none hr nofun)
      (loadValue_signed (memRead_byte_eq _ _))
  case lbu =>
    exact computes_of_load rfl (accessFault_eq_none hr nofun)
      (loadValue_unsigned (memRead_byte_eq _ _))
  case lh =>
    exact computes_of_load rfl (accessFault_eq_none hr fun _ => h3)
      (loadValue_signed (memRead_half_eq _ _ (offset_eq _ ▸ h3)))
  case lhu =>
    exact computes_of_load rfl (accessFault_eq_none hr fun _ => h3)
      (loadValue_unsigned (memRead_half_eq _ _ (offset_eq _ ▸ h3)))
  case lw => exact computes_of_load rfl (accessFault_eq_none hr nofun) (loadValue_word _ _)

/-- Settles O19: each store is `MemWrite` at its width; the first byte a word store writes is at
`W(A)`. -/
theorem storesComplete : Obligations.StoresComplete := by
  refine fun s rs2 rs1 imm => ⟨effectiveAddress_eq s rs1 imm, fun hwf hr =>
    ⟨?sb, fun h3 => ?sh, ?sw⟩⟩
  case sb => exact storesAt_of_store (n := .byte) rfl (accessFault_eq_none hr nofun) hwf nofun
  case sh =>
    exact storesAt_of_store (n := .half) rfl (accessFault_eq_none hr fun _ => h3) hwf
      fun hmis => h3 (offset_eq _ ▸ hmis.2)
  case sw =>
    rw [← toNat_containing]
    exact storesAt_of_store (n := .word) rfl (accessFault_eq_none hr nofun) hwf nofun

/-! ### Accesses that fault -/

/-- Strict mode: every load and store whose access faults answers this one state. -/
theorem faultsStrictly_of_exec {i : Instr} {s : State} {f : AccessFault} {A : Word}
    (h : exec i s = .next (State.settle { s.raise f.kind A with faultHalt := true })) :
    FaultsStrictly i s f.kind A :=
  ⟨_, h, fun _ => rfl, fun _ => rfl, rfl,
    (State.settle_drv _).trans (drvState_eq_halted_of_faultHalt rfl), rfl, rfl, rfl,
    exec_samePipeline h⟩

theorem faultsStrictly_of_load {i : Instr} {s : State} {rd : Reg} {A : Word} {n : Size}
    {signed : Bool} {f : AccessFault} (hp : s.cfg.permissive = false)
    (h : exec i s = .next (s.load rd A n signed)) (hf : accessFault s.cfg A n = some f) :
    FaultsStrictly i s f.kind A := by
  rw [State.load_of_fault hf, State.takeFault_strict hp] at h
  exact faultsStrictly_of_exec h

theorem faultsStrictly_of_store {i : Instr} {s : State} {A v : Word} {n : Size} {f : AccessFault}
    (hp : s.cfg.permissive = false) (h : exec i s = .next (s.store A n v))
    (hf : accessFault s.cfg A n = some f) : FaultsStrictly i s f.kind A := by
  rw [State.store_of_fault hf, State.takeFault_strict hp] at h
  exact faultsStrictly_of_exec h

/-- Settles O21: all eight instructions take their fault by the same operation. -/
theorem strictFaultsWriteNothing : Obligations.StrictFaultsWriteNothing := by
  refine fun s r r' imm f hp => ⟨fun hf => ⟨?lb, ?lbu, ?sb⟩, fun hf => ⟨?lh, ?lhu, ?sh⟩,
    fun hf => ⟨?lw, ?sw⟩⟩
  case lb | lbu | lh | lhu | lw => exact faultsStrictly_of_load hp rfl hf
  case sb | sh | sw => exact faultsStrictly_of_store hp rfl hf

/-- Permissive mode: a faulting load completes with 0. -/
theorem faultsPermissively_of_load {i : Instr} {s : State} {rd : Reg} {A : Word} {n : Size}
    {signed : Bool} {f : AccessFault} (hp : s.cfg.permissive = true)
    (h : exec i s = .next (s.load rd A n signed)) (hf : accessFault s.cfg A n = some f) :
    FaultsPermissively i s (some rd) f.kind A := by
  rw [State.load_of_fault hf, State.takeFault_permissive hp] at h
  refine ⟨_, h, fun r => ?_, fun _ => rfl, rfl, rfl, ⟨rfl, rfl⟩, exec_samePipeline h⟩
  simp only [Option.some.injEq, eq_comm (a := rd)]
  exact State.reg_setReg (s.raise f.kind A) rd r 0

/-- Permissive mode: a faulting store moves on and writes nothing. -/
theorem faultsPermissively_of_store {i : Instr} {s : State} {A v : Word} {n : Size}
    {f : AccessFault} (hp : s.cfg.permissive = true) (h : exec i s = .next (s.store A n v))
    (hf : accessFault s.cfg A n = some f) : FaultsPermissively i s none f.kind A := by
  rw [State.store_of_fault hf, State.takeFault_permissive hp] at h
  exact ⟨_, h, fun _ => (if_neg nofun).symm, fun _ => rfl, rfl, rfl, ⟨rfl, rfl⟩,
    exec_samePipeline h⟩

/-- Settles O22: the loads write 0 to `r`, the stores have no register to write. -/
theorem permissiveFaultsContinue : Obligations.PermissiveFaultsContinue := by
  refine fun s r r' imm f hp => ⟨fun hf => ⟨?lb, ?lbu, ?sb⟩, fun hf => ⟨?lh, ?lhu, ?sh⟩,
    fun hf => ⟨?lw, ?sw⟩⟩
  case lb | lbu | lh | lhu | lw => exact faultsPermissively_of_load hp rfl hf
  case sb | sh | sw => exact faultsPermissively_of_store hp rfl hf

end Sys2Proof.Machine
end

section
/-! PROOFS. What a tick puts out (R201, R286, R288): the label each stage gives out for what it
holds, the reports of Memory and Decode, and the one register that Writeback writes (R192). -/

namespace Sys2Proof.Machine

/-! ### Labels, stage by stage -/

theorem mem_writebackEvents {memwb : Option MemWb} {e : Event} :
    e ∈ writebackEvents memwb ↔ ∃ m, memwb = some m ∧ (m.pc, .WB) = e := by
  cases memwb <;> simp [writebackEvents, eq_comm]

theorem mem_memoryEvents {exmem : Option ExMem} {e : Event} :
    e ∈ memoryEvents exmem ↔ ∃ x, exmem = some x ∧ (x.pc, .MEM) = e := by
  cases exmem <;> simp [memoryEvents, eq_comm]

theorem mem_executeEvents {idex : Option IdEx} {e : Event} :
    e ∈ executeEvents idex ↔ ∃ x, idex = some x ∧ (x.pc, .EX) = e := by
  cases idex <;> simp [executeEvents, eq_comm]

/-- Decode's label for an instruction in IF/ID (R195). -/
theorem State.decodeOut_events_of_instr {s : State} {p w : Word} (hp : s.ifid = .instr p w) :
    s.decodeOut.events = [(p, if s.decodeOut.stall then .STALL else .ID)] := by
  rcases decodeStage_cases s.tickNo s.ifid s.idex s.exmem s.memwb s.regsAfterWriteback with
    ⟨hi, -⟩ | ⟨_, hi, -⟩ | ⟨_, _, _, hi, -, e⟩ | ⟨_, _, _, hi, -, -, e⟩ | ⟨_, _, _, hi, -, hz, e⟩
  all_goals cases hp.symm.trans hi
  · rw [State.decodeOut, e]; rfl
  · rw [State.decodeOut, e]; rfl
  · rw [State.decodeOut, e]; simp [issue, hz]

theorem State.decodeOut_of_bubble {s : State} (h : s.ifid = .bubble) :
    s.decodeOut = ⟨none, false, none, [], []⟩ := by
  rw [State.decodeOut, h]; rfl

/-- Squashed remains in IF/ID only give out their marker (R199). -/
theorem State.decodeOut_of_squashed {s : State} {p : Word} (h : s.ifid = .squashed p) :
    s.decodeOut = ⟨none, false, none, [(p, .SQUASH)], []⟩ := by
  rw [State.decodeOut, h]; rfl

theorem State.mem_decodeOut_events {s : State} {e : Event} : e ∈ s.decodeOut.events ↔
    (∃ p w, s.ifid = .instr p w ∧ e = (p, if s.decodeOut.stall then .STALL else .ID)) ∨
    ∃ p, s.ifid = .squashed p ∧ e = (p, .SQUASH) := by
  cases h : s.ifid with
  | bubble => simp [State.decodeOut_of_bubble h]
  | squashed p => simp [State.decodeOut_of_squashed h]
  | instr p w => simp [State.decodeOut_events_of_instr h]

/-- Fetch's label: given out exactly when it reads, whether or not a redirect squashes what it reads
(R196). -/
theorem State.fetchOut_events (s : State) : s.fetchOut.events =
    if s.decodeOut.stall = false ∧ s.canRun = true then [(s.pc, .IF)] else [] := by
  unfold State.canRun
  rcases fetchStage_cases s.cfg s.haltFlag s.pc s.ifid s.decodeOut.stall s.decodeOut.redirect with
    ⟨hs, e⟩ | ⟨hs, target, hr, e⟩ | ⟨hs, hr, w, hc, e⟩ | ⟨hs, hr, hc, e⟩
  all_goals rw [State.fetchOut, e]
  · simp [hs]
  · rw [hs]
    cases (canFetch s.cfg s.haltFlag s.pc).isSome <;> rfl
  · simp [hs, hc]
  · simp [hs, hc]

theorem State.mem_fetchOut_events {s : State} {e : Event} : e ∈ s.fetchOut.events ↔
    e = (s.pc, .IF) ∧ s.decodeOut.stall = false ∧ s.canRun = true := by
  rw [State.fetchOut_events]
  split
  · next h => simp [h]
  · next h => simp [h]

/-! ### The event set of a tick (R201) -/

theorem State.mem_tickEvents {s : State} {e : Event} : e ∈ s.tickEvents ↔
    (∃ m, s.memwb = some m ∧ (m.pc, .WB) = e) ∨ (∃ x, s.exmem = some x ∧ (x.pc, .MEM) = e) ∨
    (∃ x, s.idex = some x ∧ (x.pc, .EX) = e) ∨
    (∃ p w, s.ifid = .instr p w ∧ e = (p, if s.decodeOut.stall then .STALL else .ID)) ∨
    (∃ p, s.ifid = .squashed p ∧ e = (p, .SQUASH)) ∨
    (e = (s.pc, .IF) ∧ s.decodeOut.stall = false ∧ s.canRun = true) := by
  simp only [State.tickEvents, List.mem_append, mem_writebackEvents, mem_memoryEvents,
    mem_executeEvents, State.mem_decodeOut_events, State.mem_fetchOut_events, or_assoc]

section
variable {s : State} {p : Word}

theorem State.mem_tickEvents_WB : (p, Label.WB) ∈ s.tickEvents ↔
    ∃ m, s.memwb = some m ∧ m.pc = p := by
  cases h : s.decodeOut.stall <;> simp [State.mem_tickEvents, h]

theorem State.mem_tickEvents_MEM : (p, Label.MEM) ∈ s.tickEvents ↔
    ∃ e, s.exmem = some e ∧ e.pc = p := by
  cases h : s.decodeOut.stall <;> simp [State.mem_tickEvents, h]

theorem State.mem_tickEvents_EX : (p, Label.EX) ∈ s.tickEvents ↔
    ∃ x, s.idex = some x ∧ x.pc = p := by
  cases h : s.decodeOut.stall <;> simp [State.mem_tickEvents, h]

theorem State.mem_tickEvents_ID : (p, Label.ID) ∈ s.tickEvents ↔
    s.decodeOut.stall = false ∧ ∃ w, s.ifid = .instr p w := by
  cases h : s.decodeOut.stall <;> simp [State.mem_tickEvents, h]

theorem State.mem_tickEvents_STALL : (p, Label.STALL) ∈ s.tickEvents ↔
    s.decodeOut.stall = true ∧ ∃ w, s.ifid = .instr p w := by
  cases h : s.decodeOut.stall <;> simp [State.mem_tickEvents, h]

theorem State.mem_tickEvents_SQUASH : (p, Label.SQUASH) ∈ s.tickEvents ↔ s.ifid = .squashed p := by
  cases h : s.decodeOut.stall <;> simp [State.mem_tickEvents, h]

theorem State.mem_tickEvents_IF : (p, Label.IF) ∈ s.tickEvents ↔
    p = s.pc ∧ s.decodeOut.stall = false ∧ s.haltFlag = false ∧ fetchable s.cfg s.pc = true := by
  cases h : s.decodeOut.stall <;> simp [State.mem_tickEvents, h, State.canRun_eq]

end

/-- Decode gives out at most one label. -/
theorem State.decodeOut_labels_sublist (s : State) :
    ∃ l ∈ [Label.ID, .STALL, .SQUASH], (s.decodeOut.events.map Prod.snd).Sublist [l] := by
  cases h : s.ifid with
  | bubble => exact ⟨.ID, by decide, by simp [State.decodeOut_of_bubble h]⟩
  | squashed p => exact ⟨.SQUASH, by decide, by simp [State.decodeOut_of_squashed h]⟩
  | instr p w =>
    rw [State.decodeOut_events_of_instr h]
    exact ⟨_, by cases s.decodeOut.stall <;> simp, .refl _⟩

/-- The labels of a tick, in evaluation order, are some of five, each given out by one stage. -/
theorem State.tickEvents_labels_sublist (s : State) : ∃ l ∈ [Label.ID, .STALL, .SQUASH],
    (s.tickEvents.map Prod.snd).Sublist [.WB, .MEM, .EX, l, .IF] := by
  obtain ⟨l, hl, hdec⟩ := s.decodeOut_labels_sublist
  have hwb : ((writebackEvents s.memwb).map Prod.snd).Sublist [.WB] := by
    cases s.memwb <;> simp [writebackEvents]
  have hmem : ((memoryEvents s.exmem).map Prod.snd).Sublist [.MEM] := by
    cases s.exmem <;> simp [memoryEvents]
  have hex : ((executeEvents s.idex).map Prod.snd).Sublist [.EX] := by
    cases s.idex <;> simp [executeEvents]
  have hif : (s.fetchOut.events.map Prod.snd).Sublist [.IF] := by
    rw [State.fetchOut_events]
    split <;> simp
  refine ⟨l, hl, ?_⟩
  simp only [State.tickEvents, List.map_append]
  exact (((hwb.append hmem).append hex).append hdec).append hif

theorem State.tickEvents_length_le (s : State) : s.tickEvents.length ≤ 5 := by
  obtain ⟨l, -, h⟩ := s.tickEvents_labels_sublist
  simpa using h.length_le

theorem State.tickEvents_nodup (s : State) : s.tickEvents.Nodup := by
  obtain ⟨l, hl, h⟩ := s.tickEvents_labels_sublist
  have hfive : ∀ l ∈ [Label.ID, .STALL, .SQUASH], [Label.WB, .MEM, .EX, l, .IF].Nodup := by decide
  exact ((hfive l hl).sublist h).of_map

/-! ### The accumulated trace (R261) -/

theorem State.mem_tickState_trace {s : State} {n : Nat} {p : Word} {l : Label} :
    ⟨n, p, l⟩ ∈ s.tickState.trace ↔
      ⟨n, p, l⟩ ∈ s.trace ∨ (n = s.cycle + 1 ∧ (p, l) ∈ s.tickEvents) := by
  simp only [State.tickState_trace, List.mem_append, List.mem_map, TraceEntry.mk.injEq,
    State.tickNo]
  refine or_congr_right ⟨?_, fun ⟨hn, he⟩ => ⟨(p, l), he, hn.symm, rfl, rfl⟩⟩
  rintro ⟨e, he, rfl, rfl, rfl⟩
  exact ⟨rfl, he⟩

theorem traceAt_tickState (s : State) (p : Word) : traceAt s.tickState p = traceAt s p ++
    (s.tickEvents.filter (fun e => e.1 == p)).map (fun e => (s.cycle + 1, e.2)) := by
  simp only [traceAt, State.tickState_trace, List.filter_append, List.map_append, List.filter_map,
    List.map_map]
  rfl

/-! ### Reports (R193, R195) -/

theorem State.memOut_diags_of_accessFault {s : State} {e : ExMem} {n : Size} {f : AccessFault}
    (he : s.exmem = some e) (hn : e.d.memWidth = some n)
    (hf : accessFault s.cfg e.aluResult n = some f) :
    s.memOut.diags = [⟨f.kind, s.cycle + 1, e.pc, e.aluResult⟩] := by
  rw [State.memOut, he, memoryStage_access hn, memoryAccess, hf]
  cases s.cfg.permissive <;> rfl

theorem State.memOut_diags_of_no_accessFault {s : State}
    (h : ∀ e n f, s.exmem = some e → e.d.memWidth = some n →
      accessFault s.cfg e.aluResult n ≠ some f) : s.memOut.diags = [] := by
  rw [State.memOut]
  cases he : s.exmem with
  | none => rfl
  | some e =>
    cases hn : e.d.memWidth with
    | none => rw [memoryStage_pass hn]
    | some n =>
      have hf : accessFault s.cfg e.aluResult n = none :=
        Option.eq_none_iff_forall_ne_some.mpr fun f => h e n f he hn
      rw [memoryStage_access hn, memoryAccess, hf]
      cases e.d.memRead <;> rfl

/-- Memory reports a fault of the access in EX/MEM, or nothing. -/
theorem State.memOut_diags_cases (s : State) : s.memOut.diags = [] ∨
    ∃ kind p v, s.memOut.diags = [⟨kind, s.cycle + 1, p, v⟩] := by
  by_cases h : ∃ e n f, s.exmem = some e ∧ e.d.memWidth = some n ∧
      accessFault s.cfg e.aluResult n = some f
  · obtain ⟨e, n, f, he, hn, hf⟩ := h
    exact .inr ⟨_, _, _, State.memOut_diags_of_accessFault he hn hf⟩
  · exact .inl (State.memOut_diags_of_no_accessFault fun e n f he hn hf => h ⟨e, n, f, he, hn, hf⟩)

theorem State.decodeOut_diags_of_reject {s : State} {p w : Word} {e : DecodeReject}
    (hp : s.ifid = .instr p w) (he : decode w = .error e) :
    s.decodeOut.diags = [⟨.decodeFault, s.cycle + 1, p, w⟩] := by
  rw [State.decodeOut, hp, decodeStage_reject he]
  rfl

/-- Past an unrecognized word, Decode reports only what its redirect target is (R160). -/
theorem State.decodeOut_diags_of_recognized {s : State} {p w : Word} {i : Instr}
    (hp : s.ifid = .instr p w) (hi : decode w = .ok i) :
    s.decodeOut.diags = issueDiags (s.cycle + 1) p s.decodeOut.redirect := by
  rw [State.decodeOut, hp]
  cases hz : hazard (describe i w) s.idex s.exmem with
  | true => rw [decodeStage_stall (decodeDescriptor_ok hi) hz]; rfl
  | false => rw [decodeStage_issue (decodeDescriptor_ok hi) hz]; rfl

/-- Where a redirect comes from: a recognized instruction in IF/ID that no hazard holds back. -/
theorem State.exists_instr_of_redirect {s : State} {target : Word}
    (h : s.decodeOut.redirect = some target) :
    ∃ p w i, s.ifid = .instr p w ∧ decode w = .ok i ∧
      hazard (describe i w) s.idex s.exmem = false := by
  rcases decodeStage_cases s.tickNo s.ifid s.idex s.exmem s.memwb s.regsAfterWriteback with
    ⟨-, e⟩ | ⟨_, -, e⟩ | ⟨_, _, _, -, -, e⟩ | ⟨_, _, _, -, -, -, e⟩ | ⟨p, w, i, hp, hi, hz, -⟩
  case inr.inr.inr.inr => exact ⟨p, w, i, hp, hi, hz⟩
  all_goals rw [State.decodeOut, e] at h; cases h

theorem redirectDiags_eq (n : Nat) (p target : Word) : redirectDiags n p target =
    if target.toNat % 4 = 0 then [] else [⟨.fetchMisaligned, n, p, target⟩] := by
  rw [redirectDiags, ite_not]

/-- A redirect reports its target exactly when that is not a multiple of 4 (R160). -/
theorem State.decodeOut_diags_of_redirect {s : State} {p w target : Word}
    (hp : s.ifid = .instr p w) (hr : s.decodeOut.redirect = some target) : s.decodeOut.diags =
      if target.toNat % 4 = 0 then [] else [⟨.fetchMisaligned, s.cycle + 1, p, target⟩] := by
  obtain ⟨p', w', i, hp', hi, -⟩ := State.exists_instr_of_redirect hr
  cases hp.symm.trans hp'
  rw [State.decodeOut_diags_of_recognized hp hi, hr, issueDiags, redirectDiags_eq]

/-- Decode reports nothing without an unrecognized word and without a misaligned target. -/
theorem State.decodeOut_diags_of_aligned {s : State}
    (hrec : ∀ p w e, s.ifid = .instr p w → decode w ≠ .error e)
    (hal : ∀ target, s.decodeOut.redirect = some target → target.toNat % 4 = 0) :
    s.decodeOut.diags = [] := by
  cases hp : s.ifid with
  | bubble => rw [State.decodeOut_of_bubble hp]
  | squashed p => rw [State.decodeOut_of_squashed hp]
  | instr p w =>
    cases hd : decode w with
    | error e => exact absurd hd (hrec p w e hp)
    | ok i =>
      cases hr : s.decodeOut.redirect with
      | none => rw [State.decodeOut_diags_of_recognized hp hd, hr, issueDiags]
      | some target => rw [State.decodeOut_diags_of_redirect hp hr, if_pos (hal target hr)]

/-- Decode reports one unrecognized word or one misaligned target, or nothing. -/
theorem State.decodeOut_diags_cases (s : State) : s.decodeOut.diags = [] ∨
    ∃ kind p v, s.decodeOut.diags = [⟨kind, s.cycle + 1, p, v⟩] := by
  by_cases hrec : ∃ p w e, s.ifid = .instr p w ∧ decode w = .error e
  · obtain ⟨p, w, e, hp, he⟩ := hrec
    exact .inr ⟨_, _, _, State.decodeOut_diags_of_reject hp he⟩
  by_cases hal : ∃ target, s.decodeOut.redirect = some target ∧ target.toNat % 4 ≠ 0
  · obtain ⟨target, hr, hm⟩ := hal
    obtain ⟨p, w, i, hp, -⟩ := State.exists_instr_of_redirect hr
    rw [State.decodeOut_diags_of_redirect hp hr, if_neg hm]
    exact .inr ⟨_, _, _, rfl⟩
  · push Not at hrec hal
    exact .inl (State.decodeOut_diags_of_aligned hrec hal)

/-- Each of the two stages that report does so at most once, with the number of the tick. -/
theorem diags_bounded {ds : List Diagnostic} {n : Nat}
    (h : ds = [] ∨ ∃ kind p v, ds = [⟨kind, n, p, v⟩]) :
    ds.length ≤ 1 ∧ ∀ d ∈ ds, d.tick = n := by
  rcases h with rfl | ⟨kind, p, v, rfl⟩ <;> simp

/-- Settles O49: R201's table label by label, then each report by its cause; what is accumulated is
what the tick answers. -/
theorem tickOutputsAreBounded : Obligations.TickOutputsAreBounded := by
  intro s t hd ht
  have hstep := driverStep_tick hd
  obtain ⟨hh, -⟩ | ⟨-, rfl⟩ := step_cases ht
  · exact absurd hh hd
  obtain ⟨hmemLen, hmemTick⟩ := diags_bounded s.memOut_diags_cases
  obtain ⟨hdecLen, hdecTick⟩ := diags_bounded s.decodeOut_diags_cases
  refine ⟨fun _ => State.mem_tickEvents_WB, fun _ => State.mem_tickEvents_MEM,
    fun _ => State.mem_tickEvents_EX, fun _ => State.mem_tickEvents_ID,
    fun _ => State.mem_tickEvents_STALL, fun _ => State.mem_tickEvents_SQUASH,
    fun _ => State.mem_tickEvents_IF, fun _ _ _ => State.memOut_diags_of_accessFault,
    State.memOut_diags_of_no_accessFault, fun _ _ _ => State.decodeOut_diags_of_reject,
    fun p w target hp hr hm => ?_, State.decodeOut_diags_of_aligned, traceAt_tickState s,
    s.tickEvents_length_le, s.tickEvents_nodup, hmemLen, hdecLen, by rw [hstep]; rfl,
    by rw [hstep]; rfl, fun d hmem => ?_, rfl, rfl, rfl⟩
  · rw [State.decodeOut_diags_of_redirect hp hr, if_neg hm]
  · exact (List.mem_append.mp hmem).elim (hmemTick d) (hdecTick d)

/-! ### The one register write (R192) -/

/-- Settles O32: the registers after a tick are Writeback's, and the new MEM/WB is Memory's. -/
theorem writebackIsTheOnlyRegisterWrite : Obligations.WritebackIsTheOnlyRegisterWrite := by
  intro s t r hd ht
  obtain ⟨hh, -⟩ | ⟨-, rfl⟩ := step_cases ht
  · exact absurd hh hd
  refine ⟨?_, fun p => ?_, rfl, fun he => ?_⟩
  · rw [State.reg, State.tickState_regs, State.regsAfterWriteback, readReg_writebackStage]
    cases s.memwb with
    | none => rfl
    | some m =>
      by_cases hw : m.d.regWrite = true ∧ m.d.rd = r ∧ r ≠ 0#5
      · simp [fwdMemWb, MemWb.result, hw]
      · have hw' : ¬(r ≠ 0#5 ∧ m.d.regWrite = true ∧ m.d.rd = r) :=
          fun ⟨h0, h1, h2⟩ => hw ⟨h1, h2, h0⟩
        simp only [fwdMemWb, if_neg hw, if_neg hw']
        rfl
  · simp only [State.mem_tickState_trace, State.mem_tickEvents_WB, true_and]
  · rw [State.tickState_memwb, State.memOut, he]
    rfl

end Sys2Proof.Machine
end

section
/-! PROOFS. What each answer of Decode makes of the tick: an instruction issued (R195), a stall
(R198), a redirect with the fetch it squashes (R199), and a tick that runs no instruction (R200,
R282). -/

namespace Sys2Proof.Machine

/-! ### An instruction leaves Decode (R195) -/

/-- Settles O53: Decode captures the registers after this tick's Writeback, at the word's fields. -/
theorem stepIssuesTheDecodedInstruction : Obligations.StepIssuesTheDecodedInstruction := by
  rintro s p w i ⟨hd, hp, hi, hz⟩
  have hout := decodeStage_issue (k := s.tickNo) (p := p) (memwb := s.memwb)
    (regs := s.regsAfterWriteback) (decodeDescriptor_ok hi) hz
  rw [← hp] at hout
  change s.decodeOut = _ at hout
  refine ⟨s.tickState, by rw [step_eq_next, driverStep_tick hd]; rfl, ?_, ?_, rfl⟩
  · rw [State.tickState_idex, hout]
    rfl
  · exact State.mem_tickEvents_ID.mpr ⟨by rw [hout], w, hp⟩

/-! ### A stall (R198) -/

/-- Settles O34: the stalled Decode answers a bubble and Fetch answers what it holds; no other stage
reads the stall. -/
theorem stallFreezesFetchAndInsertsBubble : Obligations.StallFreezesFetchAndInsertsBubble := by
  intro s t hs ht
  obtain ⟨hd, p, w, i, hp, -, -, hout⟩ := stalls_iff.mp hs
  obtain ⟨hh, -⟩ | ⟨-, rfl⟩ := step_cases ht
  · exact absurd hh hd
  have hfetch : s.fetchOut = ⟨s.ifid, s.pc, s.haltFlag, []⟩ := by
    rw [State.fetchOut, hs.2]
    rfl
  rw [State.tickState_pc, State.tickState_ifid, State.tickState_idex, State.tickState_haltFlag,
    hfetch, hout]
  exact ⟨rfl, rfl, rfl, rfl, rfl, rfl, rfl, rfl, p, w, hp, rfl, rfl⟩

/-! ### A redirect (R199) -/

/-- Fetch behind a redirect: what it reads is squashed. -/
theorem State.fetchOut_ifid_of_redirect {s : State} {target : Word}
    (hr : s.decodeOut.redirect = some target) :
    s.fetchOut.ifid = if s.canRun then .squashed s.pc else .bubble := by
  have hs := stall_eq_false_of_redirect hr
  cases hc : canFetch s.cfg s.haltFlag s.pc <;>
    simp [State.fetchOut, fetchStage, State.canRun, hs, hr, hc]

/-- Only a redirect leaves squashed remains, so none are left behind remains. -/
theorem State.fetchOut_ifid_ne_squashed {s : State} (hs : s.decodeOut.stall = false)
    (hr : s.decodeOut.redirect = none) (p : Word) : s.fetchOut.ifid ≠ .squashed p := by
  cases hc : canFetch s.cfg s.haltFlag s.pc with
  | some w => rw [State.fetchOut_eq_of_canFetch hs hr hc]; exact nofun
  | none => rw [State.fetchOut_eq_of_not_canFetch hs hr hc]; exact nofun

/-- Settles O37: what a redirect leaves in IF/ID depends only on whether Fetch could read, and of
squashed remains Decode only gives out the marker. -/
theorem redirectSquashesOneFetch : Obligations.RedirectSquashesOneFetch := by
  intro s t target hd hr ht
  obtain ⟨hh, -⟩ | ⟨-, rfl⟩ := step_cases ht
  · exact absurd hh hd
  have hs := stall_eq_false_of_redirect hr
  have hifid := State.fetchOut_ifid_of_redirect hr
  have hevents := s.fetchOut_events
  obtain ⟨p, w, i, hp, -⟩ := State.exists_instr_of_redirect hr
  refine ⟨State.fetchOut_pc_of_redirect hs hr, hs,
    ⟨p, w, hp, State.decodeOut_diags_of_redirect hp hr⟩,
    (List.append_assoc _ _ _).symm, fun hh hf => ?_, fun hno => ?_⟩
  · have hrun : s.canRun = true := by rw [State.canRun_eq, hh, hf]; rfl
    rw [hrun, if_pos rfl] at hifid
    rw [hs, hrun, if_pos ⟨rfl, rfl⟩] at hevents
    have hout := State.decodeOut_of_squashed (s := s.tickState) hifid
    refine ⟨hifid, hevents, ?_⟩
    have hs' : s.tickState.decodeOut.stall = false := by rw [hout]
    have hr' : s.tickState.decodeOut.redirect = none := by rw [hout]
    exact ⟨by rw [hout], by rw [hout], hs', hr', by rw [hout],
      State.fetchOut_ifid_ne_squashed hs' hr'⟩
  · have hrun : s.canRun = false := by
      rw [State.canRun_eq]
      rcases hno with h | h <;> simp [h]
    rw [hrun] at hifid hevents
    exact ⟨hifid, by simpa using hevents⟩

/-! ### A tick that runs no instruction (R107, R198, R200, R282) -/

/-- Behind an instruction that is going to fault strictly, what Decode answers is not retired. -/
theorem archEq_drain_tickState_of_fault {s : State} (h0 : s.faultHalt = false)
    (hf : (drain s).faultHalt = true) : ArchEq (drain s.tickState) (drain s) := by
  obtain ⟨hregs, hdmem, hfault⟩ := drain_tickState h0 (drain s) (drain_cfg s) rfl rfl rfl
  rw [State.retire_of_faultHalt hf] at hregs hdmem hfault
  have htrue : (drain s.tickState).faultHalt = true := hfault.trans hf
  exact ⟨by simp, hregs, hdmem, hfault, fun h => (by rw [htrue] at h; cases h),
    fun h => (by rw [htrue] at h; cases h)⟩

/-- A tick in which Decode holds no instruction, or stalls, changes nothing architectural. -/
theorem archEq_drain_tickState_of_keep {s : State} (h0 : s.faultHalt = false)
    (hb : s.decodeOut.idex = none) (hr : s.decodeOut.redirect = none)
    (hv : s.ifid.valid = false ∨ s.decodeOut.stall = true) :
    ArchEq (drain s.tickState) (drain s) := by
  obtain ⟨hregs, hdmem, hfault⟩ := drain_tickState_bubble h0 hb
  obtain ⟨hpc, hflag⟩ := issuePc_tickState_keep hr hv
  exact ⟨by simp, hregs, hdmem, hfault, fun _ => by simpa using hpc, fun _ => by simpa using hflag⟩

/-- An unrecognized word is architecturally the interpreter's skip. -/
theorem archEq_drain_tickState_of_reject {s : State} {p w : Word} {e : DecodeReject}
    (hi : PipeInv s) (h0 : s.faultHalt = false) (hp : s.ifid = .instr p w)
    (he : decode w = .error e) : ArchEq (drain s.tickState) ((drain s).skip w) := by
  have hout : s.decodeOut = ⟨none, false, none, [(p, .ID)], [⟨.decodeFault, s.tickNo, p, w⟩]⟩ := by
    rw [State.decodeOut, hp, decodeStage_reject he]
  obtain ⟨-, hpc, -⟩ := hi.ifid p w hp
  obtain ⟨hregs, hdmem, hfault⟩ := drain_tickState_bubble h0 (by rw [hout])
  obtain ⟨hnext, hflag⟩ := issuePc_tickState (by rw [hout]) hpc
  rw [hout] at hnext hflag
  refine ⟨by simp [State.skip], hregs, hdmem, hfault, fun _ => ?_, fun _ => ?_⟩
  · simpa [State.skip, issuePc_instr hp] using hnext
  · simpa [State.skip] using hflag

/-- Settles O55: by what Decode answers; the case of an issued instruction is the one excluded. -/
theorem otherStepsRunNothing : Obligations.OtherStepsRunNothing := by
  intro s t hi ht
  obtain ⟨hh, rfl⟩ | ⟨hd, rfl⟩ := step_cases ht
  · exact ⟨fun _ => .refl _, fun _ hd => absurd hh hd, fun _ _ => .refl _⟩
  have h0 := hi.not_faultHalt hd
  refine ⟨archEq_drain_tickState_of_fault h0,
    fun _ _ _ _ _ hp he => archEq_drain_tickState_of_reject hi h0 hp he, fun hno hrec => ?_⟩
  rcases decodeStage_cases s.tickNo s.ifid s.idex s.exmem s.memwb s.regsAfterWriteback with
    ⟨hp, e⟩ | ⟨p, hp, e⟩ | ⟨p, w, _, hp, he, -⟩ | ⟨p, w, i, hp, -, -, e⟩ |
    ⟨p, w, i, hp, hdec, hz, -⟩
  · exact archEq_drain_tickState_of_keep h0 (congrArg (·.idex) e) (congrArg (·.redirect) e)
      (.inl (by rw [hp]; rfl))
  · exact archEq_drain_tickState_of_keep h0 (congrArg (·.idex) e) (congrArg (·.redirect) e)
      (.inl (by rw [hp]; rfl))
  · exact absurd he (hrec hd p w _ hp)
  · exact archEq_drain_tickState_of_keep h0 (congrArg (·.idex) e) (congrArg (·.redirect) e)
      (.inr (congrArg (·.stall) e))
  · exact absurd ⟨p, w, i, hd, hp, hdec, hz⟩ hno

end Sys2Proof.Machine
end

section
/-! PROOFS. Straight-line programs (R203, R257): computational instructions neither stall nor
redirect nor access memory, so each moves on one stage per tick. -/

namespace Sys2Proof.Machine

/-! ### Computational instructions in the stages -/

/-- A descriptor that accesses no memory and needs no operand in Decode. -/
structure ComputationalDescriptor (d : Descriptor) : Prop where
  memWidth : d.memWidth = none
  memRead : d.memRead = false
  not_early : early d = false
  not_jal : d.cls ≠ .jal

theorem describe_computational {i : Instr} (h : isComputational i = true) (w : Word) :
    ComputationalDescriptor (describe i w) := by
  cases i
  case jal | jalr | beq | bne | blt | bge | bltu | bgeu | lb | lh | lw | lbu | lhu | sb | sh | sw =>
    cases h
  all_goals exact ⟨rfl, rfl, rfl, nofun⟩

/-- No hazard between computational instructions: no load is in flight and no operand is early. -/
theorem ComputationalDescriptor.hazard_eq_false {d : Descriptor} (hd : ComputationalDescriptor d)
    {idex : Option IdEx} (hx : ∀ x, idex = some x → ComputationalDescriptor x.d)
    (exmem : Option ExMem) :
    hazard d idex exmem = false := by
  have hload : loadUse d idex = false := by
    cases idex with
    | none => rfl
    | some x => simp [loadUse, (hx x rfl).memRead]
  have ha : hazA d idex = false := by cases idex <;> simp [hazA, hd.not_early]
  have hb : hazB d exmem = false := by cases exmem <;> simp [hazB, hd.not_early]
  rw [hazard, hload, ha, hb]
  rfl

theorem ComputationalDescriptor.redirectOf_eq_none {d : Descriptor} (hd : ComputationalDescriptor d)
    (p a b : Word) : redirectOf d p a b = none := by
  have hearly : d.isBranch = false ∧ d.cls ≠ .jalr := by simpa [early] using hd.not_early
  simp [redirectOf, hearly, hd.not_jal]

/-! ### One tick of a straight-line program -/

/-- Every word of the image is a computational instruction. -/
def StraightLine (p : Params) : Prop :=
  ∀ w ∈ p.imem, ∃ i, decode w = .ok i ∧ isComputational i = true

theorem StraightLine.decode_of_fetch {p : Params} (hp : StraightLine p) {a w : Word}
    (h : fetch p a = some w) : ∃ i, decode w = .ok i ∧ isComputational i = true :=
  hp w (List.mem_of_getElem? (fetch_eq_some_iff.mp h).2)

theorem StraightLine.computational {p : Params} (hp : StraightLine p) {a : Word}
    {d : Descriptor} (h : FromImage p a d) : ComputationalDescriptor d := by
  obtain ⟨w, hw, hd⟩ := h
  obtain ⟨i, hi, hc⟩ := hp.decode_of_fetch hw
  obtain ⟨i', hi', rfl⟩ := decodeDescriptor_eq_ok_iff.mp hd
  cases hi.symm.trans hi'
  exact describe_computational hc w

section
variable {s : State} (hi : PipeInv s) (hp : StraightLine s.cfg)
include hi hp

/-- Memory passes on what it holds. -/
theorem PipeInv.memOut_of_straightLine : s.memOut.fault = false ∧ s.memOut.diags = [] ∧
    s.memOut.memwb.isSome = s.exmem.isSome := by
  rw [State.memOut]
  cases he : s.exmem with
  | none => exact ⟨rfl, rfl, rfl⟩
  | some e =>
    rw [memoryStage_pass (hp.computational (hi.exmem e he)).memWidth]
    exact ⟨rfl, rfl, rfl⟩

/-- Decode passes on what it holds, without stall, redirect or report. -/
theorem PipeInv.decodeOut_of_straightLine : s.decodeOut.stall = false ∧
    s.decodeOut.redirect = none ∧ s.decodeOut.diags = [] ∧
    s.decodeOut.idex.isSome = s.ifid.valid := by
  cases hl : s.ifid with
  | bubble => rw [State.decodeOut_of_bubble hl]; exact ⟨rfl, rfl, rfl, rfl⟩
  | squashed a => rw [State.decodeOut_of_squashed hl]; exact ⟨rfl, rfl, rfl, rfl⟩
  | instr a w =>
    obtain ⟨i, hdec, hc⟩ := hp.decode_of_fetch (hi.ifid a w hl).1
    have hd := describe_computational hc w
    have hz := hd.hazard_eq_false (fun x hx => hp.computational (hi.idex x hx)) s.exmem
    rw [State.decodeOut, hl, decodeStage_issue (decodeDescriptor_ok hdec) hz,
      hd.redirectOf_eq_none]
    exact ⟨rfl, rfl, rfl, rfl⟩

end

/-- Without stall and redirect, Fetch fills IF/ID and moves on exactly while it can read. -/
theorem State.fetchOut_of_ordinary {s : State} (hs : s.decodeOut.stall = false)
    (hr : s.decodeOut.redirect = none) : s.fetchOut.ifid.valid = s.canRun ∧
    s.fetchOut.pc = if s.canRun then s.pc + 4 else s.pc := by
  cases hc : canFetch s.cfg s.haltFlag s.pc with
  | some w =>
    rw [State.fetchOut_eq_of_canFetch hs hr hc, State.canRun, hc]
    exact ⟨rfl, rfl⟩
  | none =>
    rw [State.fetchOut_eq_of_not_canFetch hs hr hc, State.canRun, hc]
    exact ⟨rfl, rfl⟩

/-! ### The run, tick by tick -/

/-- The state of a straight-line run from reset after `k` ticks: the instruction fetched in tick `j`
is in IF/ID after `j`, in ID/EX after `j + 1`, in EX/MEM after `j + 2`, in MEM/WB after `j + 3`
ticks. -/
structure StraightLineAt (p : Params) (k : Nat) (s : State) : Prop where
  inv : PipeInv s
  cfg : s.cfg = p
  cycle : s.cycle = k
  pc : s.pc.toNat = 4 * min k p.imem.length
  ifid : s.ifid.valid = decide (0 < k ∧ k ≤ p.imem.length)
  idex : s.idex.isSome = decide (1 < k ∧ k ≤ p.imem.length + 1)
  exmem : s.exmem.isSome = decide (2 < k ∧ k ≤ p.imem.length + 2)
  memwb : s.memwb.isSome = decide (3 < k ∧ k ≤ p.imem.length + 3)
  unsquashed : ∀ a, s.ifid ≠ .squashed a
  haltFlag : s.haltFlag = false
  faultHalt : s.faultHalt = false
  trace : ∀ e ∈ s.trace, e.label ≠ .STALL ∧ e.label ≠ .SQUASH
  diags : s.diags = []

theorem straightLineAt_resetWith (p : Params) : StraightLineAt p 0 (resetWith p) where
  inv := resetWith_pipeInv p
  cfg := rfl
  cycle := rfl
  pc := by simp
  ifid := by simp [IfId.valid]
  idex := by simp
  exmem := by simp
  memwb := by simp
  unsquashed := by simp
  haltFlag := rfl
  faultHalt := rfl
  trace := by simp
  diags := rfl

namespace StraightLineAt

variable {p : Params} {k : Nat} {s : State}

theorem canRun_eq (h : StraightLineAt p k s) : s.canRun = decide (k < p.imem.length) := by
  have hpc := h.pc
  rw [Bool.eq_iff_iff, State.canRun_iff, decide_eq_true_eq, h.cfg]
  simp only [h.haltFlag, true_and]
  omega

/-- The last instruction leaves MEM/WB in tick `N + 4` (R203). -/
theorem drv_eq_halted_iff (h : StraightLineAt p k s) (hN : 1 ≤ p.imem.length) :
    s.drv = .halted ↔ p.imem.length + 4 ≤ k := by
  rw [h.inv.drv, drvState_eq_halted_iff, h.faultHalt, h.canRun_eq, State.inFlight, h.ifid, h.idex,
    h.exmem, h.memwb]
  simp only [Bool.false_eq_true, false_or, Bool.or_eq_false_iff, decide_eq_false_iff_not]
  omega

/-- A tick moves every instruction on by one stage. -/
theorem tickState (h : StraightLineAt p k s) (hp : StraightLine p) (hN : p.imem.length < 2 ^ 30) :
    StraightLineAt p (k + 1) s.tickState := by
  have hp' : StraightLine s.cfg := h.cfg ▸ hp
  obtain ⟨hfault, hmemDiags, hmemwb⟩ := h.inv.memOut_of_straightLine hp'
  obtain ⟨hs, hr, hdecDiags, hidex⟩ := h.inv.decodeOut_of_straightLine hp'
  obtain ⟨hvalid, hpc⟩ := State.fetchOut_of_ordinary hs hr
  have hrun := h.canRun_eq
  exact {
    inv := h.inv.tickState h.faultHalt
    cfg := h.cfg
    cycle := congrArg (· + 1) h.cycle
    pc := by
      have hk := h.pc
      rw [State.tickState_pc, hpc, hrun]
      by_cases hlt : k < p.imem.length
      · rw [decide_eq_true hlt, if_pos rfl, BitVec.toNat_add, show (4 : Word).toNat = 4 from rfl]
        omega
      · rw [decide_eq_false hlt, if_neg (by decide)]
        omega
    ifid := by
      rw [State.tickState_ifid, hvalid, hrun]
      exact decide_eq_decide.mpr (by omega)
    idex := by
      rw [State.tickState_idex, hidex, h.ifid]
      exact decide_eq_decide.mpr (by omega)
    exmem := by
      have hex : (executeStage s.idex s.exmem s.memwb).isSome = s.idex.isSome := by
        cases s.idex <;> rfl
      rw [State.tickState_exmem, hex, h.idex]
      exact decide_eq_decide.mpr (by omega)
    memwb := by
      rw [State.tickState_memwb, hmemwb, h.exmem]
      exact decide_eq_decide.mpr (by omega)
    unsquashed := State.fetchOut_ifid_ne_squashed hs hr
    haltFlag := (State.fetchOut_haltFlag_of_no_redirect hr).trans h.haltFlag
    faultHalt := by rw [State.tickState_faultHalt, h.faultHalt, hfault]; rfl
    trace := by
      rintro ⟨n, a, l⟩ he
      rcases State.mem_tickState_trace.mp he with hold | ⟨-, hnew⟩
      · exact h.trace _ hold
      refine ⟨?_, ?_⟩ <;> rintro rfl
      · rw [State.mem_tickEvents_STALL, hs] at hnew
        exact absurd hnew.1 (by decide)
      · exact h.unsquashed a (State.mem_tickEvents_SQUASH.mp hnew)
    diags := by rw [State.tickState_diags, State.tickDiags, h.diags, hmemDiags, hdecDiags]; rfl }

theorem of_steps {k : Nat} (hp : StraightLine p) (h1 : 1 ≤ p.imem.length)
    (hN : p.imem.length < 2 ^ 30) (hk : k ≤ p.imem.length + 4) :
    StraightLineAt p k (steps k (resetWith p)) := by
  induction k with
  | zero => exact straightLineAt_resetWith p
  | succ k ih =>
    have h := ih (by omega)
    have hd : (steps k (resetWith p)).drv ≠ .halted := fun hh =>
      absurd ((h.drv_eq_halted_iff h1).mp hh) (by omega)
    rw [steps_succ, driverStep_tick hd]
    exact h.tickState hp hN

end StraightLineAt

/-- Settles O57: by the state of the run after each tick; its latches are first empty, with `pc` past
the image, after `N + 4` ticks. -/
theorem straightLineProgramTakesNPlusFourTicks :
    Obligations.StraightLineProgramTakesNPlusFourTicks := by
  intro p h1 hN hp s
  have h : StraightLineAt p (p.imem.length + 4) s := StraightLineAt.of_steps hp h1 hN (le_refl _)
  refine ⟨(h.drv_eq_halted_iff h1).mpr (le_refl _), h.cycle, ?_, fun k hk hh => ?_, h.trace,
    h.diags⟩
  · rw [h.pc, Nat.min_eq_right (by omega)]
  · have hrun := StraightLineAt.of_steps hp h1 hN (Nat.le_of_lt hk)
    exact absurd ((hrun.drv_eq_halted_iff h1).mp hh) (by omega)

end Sys2Proof.Machine
end

section
/-! PROOFS. Hazards and forwarding (R225 to R233): how long a stall lasts, what the multiplexer
answers, why the operands taken in Execute and in Decode are the program-order values, and what that
makes of a tick in which an instruction leaves Decode (R305). -/

namespace Sys2Proof.Machine

/-! ### The length of a stall (R225) -/

/-- With ID/EX and EX/MEM empty there is nothing to wait for. -/
theorem Stalls.idex_or_exmem {s : State} (h : Stalls s) : s.idex ≠ none ∨ s.exmem ≠ none := by
  obtain ⟨-, p, w, i, -, -, hz, -⟩ := stalls_iff.mp h
  by_contra hc
  obtain ⟨hx, he⟩ : s.idex = none ∧ s.exmem = none := by simpa using hc
  rw [hx, he] at hz
  cases hz

/-- Settles O35: a stall empties ID/EX and a second one EX/MEM, and then nothing stalls. -/
theorem stallsLastAtMostTwoTicks : Obligations.StallsLastAtMostTwoTicks := by
  intro s t u hs ht hs' hu hs''
  obtain ⟨-, -, hidex, -⟩ := stallFreezesFetchAndInsertsBubble s t hs ht
  obtain ⟨-, -, hidex', -, hexmem, -⟩ := stallFreezesFetchAndInsertsBubble t u hs' hu
  rw [hidex] at hexmem
  rcases hs''.idex_or_exmem with h | h
  · exact h hidex'
  · exact h hexmem

/-! ### The multiplexer (R226, R229) -/

section
variable {exmem : Option ExMem} {memwb : Option MemWb} {r : Reg} {v v' : Word}

theorem fwd_of_fwdExMem_some (h : fwdExMem exmem r = some v') : fwd exmem memwb r v = v' := by
  simp [fwd, h]

theorem fwd_of_fwdExMem_none (h : fwdExMem exmem r = none) :
    fwd exmem memwb r v = (fwdMemWb memwb r).getD v := by
  simp [fwd, h]

theorem fwdExMem_eq_none
    (h : ∀ e, exmem = some e → ¬(e.d.regWrite = true ∧ e.d.rd = r ∧ e.d.memRead = false)) :
    fwdExMem exmem r = none := by
  cases exmem with
  | none => rfl
  | some e => exact if_neg fun ⟨_, hw, hr, hm⟩ => h e rfl ⟨hw, hr, by simpa using hm⟩

theorem fwdMemWb_eq_none (h : ∀ m, memwb = some m → ¬(m.d.regWrite = true ∧ m.d.rd = r)) :
    fwdMemWb memwb r = none := by
  cases memwb with
  | none => rfl
  | some m => exact if_neg fun hc => h m rfl hc.2

end

/-- Register 0 is never forwarded. -/
theorem fwd_zero (exmem : Option ExMem) (memwb : Option MemWb) (v : Word) :
    fwd exmem memwb 0 v = v := by
  have he : fwdExMem exmem 0 = none := by cases exmem <;> simp [fwdExMem]
  have hm : fwdMemWb memwb 0 = none := by cases memwb <;> simp [fwdMemWb]
  rw [fwd_of_fwdExMem_none he, hm]
  rfl

/-- Settles O39: by which of the two latches forwards. -/
theorem forwardingTakesTheNearestProducer : Obligations.ForwardingTakesTheNearestProducer := by
  intro exmem memwb r v
  refine ⟨?_, ?_, fun he hm => ?_, fwd_zero exmem memwb v⟩
  · rintro e rfl h0 hw hr hm
    exact fwd_of_fwdExMem_some (if_pos ⟨h0, hw, hr, by simp [hm]⟩)
  · rintro m rfl h0 hw hr he
    have hfwd : fwdMemWb (some m) r = some m.result := if_pos ⟨h0, hw, hr⟩
    rw [fwd_of_fwdExMem_none (fwdExMem_eq_none he), hfwd]
    rfl
  · rw [fwd_of_fwdExMem_none (fwdExMem_eq_none he), fwdMemWb_eq_none hm]
    rfl

/-! ### Operands in program order (R227, R228, R233) -/

/-- The multiplexer of a tick, over the register file before or after Writeback, reads a register as
the two older instructions leave it, unless a load to it is in EX/MEM. -/
theorem fwd_eq_older_reg {s : State} (hi : PipeInv s) (hf : s.faultHalt = false) {r : Reg} {v : Word}
    (hl : ∀ e, s.exmem = some e → r ≠ 0#5 → e.d.memRead = true → e.d.rd ≠ r)
    (hv : (fwdMemWb s.memwb r).getD v = readReg s.regsAfterWriteback r) :
    fwd s.exmem s.memwb r v = s.older.reg r := by
  rw [older_reg hf]
  exact fwd_eq_readReg (exmem_coherent hi) (fun e he h0 hm _ => hl e he h0 hm) hv

/-- A register outside the source set is not one of its registers. -/
theorem ne_of_not_readsReg {d : Descriptor} {r r' : Reg} (hr : r ≠ 0#5 → readsReg d r = true)
    (h0 : r ≠ 0#5) (h : readsReg d r' = false) : r' ≠ r := by
  rintro rfl
  rw [hr h0] at h
  cases h

/-- The operand the instruction in Execute takes for a register it reads (R227, R230). -/
theorem executeOperand {s : State} (hi : PipeInv s) (hf : s.faultHalt = false) {x : IdEx}
    (hx : s.idex = some x) {r : Reg} (hr : r ≠ 0#5 → readsReg x.d r = true) :
    fwd s.exmem s.memwb r (s.reg r) = s.older.reg r :=
  fwd_eq_older_reg hi hf (fun e he h0 hm => ne_of_not_readsReg hr h0 (hi.loadUse x e hx he hm))
    (getD_fwdMemWb_readReg _ _ _)

/-- Settles O40: what ID/EX captured is the register file before Writeback, and no load to an operand
is in EX/MEM. -/
theorem executeOperandsAreProgramOrder : Obligations.ExecuteOperandsAreProgramOrder := by
  intro s x hi hf hx
  obtain ⟨h1, h2⟩ := hi.operands x hx
  rw [h1, h2]
  exact ⟨fun hu => executeOperand hi hf hx (readsReg_rs1 hu),
    fun hu => executeOperand hi hf hx (readsReg_rs2 hu)⟩

/-- The retirement of an instruction that does not write `r` leaves `r`. -/
theorem State.retire_reg_of_not_writes (s : State) {x : Option ExMem} {r : Reg}
    (h : ∀ e, x = some e → r ≠ 0#5 → e.d.regWrite = true → e.d.rd ≠ r) :
    (s.retire x).reg r = s.reg r := by
  cases hf : s.faultHalt with
  | true => rw [State.retire_of_faultHalt hf]
  | false =>
    rw [State.retire_of_not_faultHalt hf]
    refine readReg_writebackStage_of_not_writes fun m hm => ?_
    obtain ⟨e, v, he, rfl⟩ := memoryStage_memwb hm
    exact h e he

/-- The operand a branch or JALR that is not stalled takes in Decode: EX/MEM holds no load to it and
ID/EX no producer of it (R222, R223, R228). -/
theorem earlyOperand {s : State} (hi : PipeInv s) (hf : s.faultHalt = false) {d : Descriptor}
    {r : Reg} (hz : hazard d s.idex s.exmem = false) (he : early d = true)
    (hr : r ≠ 0#5 → readsReg d r = true) :
    fwd s.exmem s.memwb r (readReg s.regsAfterWriteback r) = (drain s).reg r := by
  obtain ⟨-, hnoProducer, hnoLoad⟩ := hazard_eq_false hz
  calc fwd s.exmem s.memwb r (readReg s.regsAfterWriteback r)
    _ = s.older.reg r :=
        fwd_eq_older_reg hi hf
          (fun e hex h0 hm => ne_of_not_readsReg hr h0 (hnoLoad he e hex hm))
          (getD_fwdMemWb_readReg_after _ _ _)
    _ = (drain s).reg r := by
        refine (s.older.retire_reg_of_not_writes fun e hex h0 hw => ?_).symm
        obtain ⟨x, hx, -, hd⟩ := executeStage_eq_some hex
        rw [hd] at hw ⊢
        exact ne_of_not_readsReg hr h0 (hnoProducer he x hx hw)

/-- Settles O41: the early operand of an instruction the hazard unit lets go. -/
theorem decodeOperandsAreProgramOrder : Obligations.DecodeOperandsAreProgramOrder := by
  rintro s p w i r hi ⟨hd, -, -, hz⟩ he hr
  exact earlyOperand hi (hi.not_faultHalt hd) hz he fun _ => hr

/-! ### A tick that runs an instruction (R233, R305) -/

/-- What Execute makes of an instruction just issued is `executed` on its forwarded operands. -/
theorem executeStage_issued (p : Word) (d : Descriptor) (v1 v2 : Word) (exmem : Option ExMem)
    (memwb : Option MemWb) : executeStage (some ⟨p, d, v1, v2⟩) exmem memwb =
      some (executed d p (if d.usesRs1 then fwd exmem memwb d.rs1 v1 else v1)
        (if d.usesRs2 then fwd exmem memwb d.rs2 v2 else v2)) := rfl

/-- What Decode answers for an instruction that leaves it: no stall, the captured registers, and the
redirect by its early operands. -/
theorem Issues.decodeOut {s : State} {p w : Word} {i : Instr} (h : Issues s p w i) :
    s.decodeOut.stall = false ∧
    s.decodeOut.idex = some ⟨p, describe i w, readReg s.regsAfterWriteback (rs1Of w),
      readReg s.regsAfterWriteback (rs2Of w)⟩ ∧
    s.decodeOut.redirect = redirectOf (describe i w) p
      (fwd s.exmem s.memwb (rs1Of w) (readReg s.regsAfterWriteback (rs1Of w)))
      (fwd s.exmem s.memwb (rs2Of w) (readReg s.regsAfterWriteback (rs2Of w))) := by
  obtain ⟨-, hp, hdec, hz⟩ := h
  rw [State.decodeOut, hp, decodeStage_issue (decodeDescriptor_ok hdec) hz]
  exact ⟨rfl, rfl, rfl⟩

/-- The tick in which `i` leaves Decode is architecturally `exec i`: its operands in Decode and in the
next Execute are those of the drained state. -/
theorem Issues.archEq_drain_tickState {s : State} {p w : Word} {i : Instr} (h : Issues s p w i)
    (hi : PipeInv s) (hf : (drain s).faultHalt = false) :
    ∃ u, exec i (drain s) = .next u ∧ ArchEq (drain s.tickState) u := by
  obtain ⟨hs, hidex, hred⟩ := h.decodeOut
  obtain ⟨hdrv, hp, hdec, hz⟩ := h
  obtain ⟨-, hpc, -⟩ := hi.ifid p w hp
  have h0 := hi.not_faultHalt hdrv
  have hdp : (drain s).pc = p := issuePc_instr hp
  have reads1 := readsReg_rs1 (d := describe i w)
  have reads2 := readsReg_rs2 (d := describe i w)
  obtain ⟨u, hx, hcfg, hregs, hdmem, hfault, hnext⟩ := retiresAsExec hdec hf
    (a := if (describe i w).usesRs1 then _ else _) (b := if (describe i w).usesRs2 then _ else _)
    (fun hu => (if_pos hu).trans (nextExecuteOperand hi hf hz (reads1 hu)))
    (fun hu => (if_pos hu).trans (nextExecuteOperand hi hf hz (reads2 hu)))
    (fun he hu => earlyOperand hi h0 hz he (reads1 hu))
    (fun he hu => earlyOperand hi h0 hz he (reads2 hu))
  obtain ⟨tregs, tdmem, tfault⟩ := drain_tickState h0 (drain s) (drain_cfg s) rfl rfl rfl
  obtain ⟨tpc, tflag⟩ := issuePc_tickState hs hpc
  rw [hdp] at hregs hdmem hfault
  rw [hdp, drain_haltFlag, drain_cfg] at hnext
  rw [hidex, executeStage_issued] at tregs tdmem tfault
  rw [hred] at tpc tflag
  have hfaults := tfault.trans hfault
  exact ⟨u, hx, by simp [hcfg], tregs.trans hregs, tdmem.trans hdmem, hfaults,
    fun hh => tpc.trans (hnext (hfaults ▸ hh)).1.symm,
    fun hh => (drain_haltFlag _).trans (tflag.trans (hnext (hfaults ▸ hh)).2.symm)⟩

/-- Settles O54: IF/ID holds the image's word at the architectural pc, and the tick is `exec` of it. -/
theorem stepRunsTheDecodedInstruction : Obligations.StepRunsTheDecodedInstruction := by
  intro s p w i hi hd hf
  obtain ⟨u, hx, heq⟩ := hd.archEq_drain_tickState hi hf
  obtain ⟨hdrv, hp, -⟩ := hd
  obtain ⟨hw, -⟩ := hi.ifid p w hp
  refine ⟨issuePc_instr hp, by rw [drain_cfg, hw], s.tickState, u, ?_, hx, heq⟩
  rw [step_eq_next, driverStep_tick hdrv]
  rfl

end Sys2Proof.Machine
end

section
/-! PROOFS. A load after a store (R53, R54, R60): the bytes the store leaves, read back at its
own address and apart from it. -/

namespace Sys2Proof.Machine

theorem byteOf_zero (v : Word) : byteOf v 0 = v.setWidth 8 :=
  (BitVec.setWidth_eq_extractLsb' (by decide)).symm

theorem byteOf_one_append_zero (v : Word) :
    (byteOf v 1 ++ byteOf v 0 : BitVec 16) = v.setWidth 16 := by
  rw [BitVec.setWidth_eq_extractLsb' (by decide)]
  exact BitVec.extractLsb'_append_extractLsb'_eq_extractLsb' rfl

/-- The bytes of the span hold the low bytes of the value in order (R51, R54). -/
theorem readByte_memWrite_span {m : Memory} (h : Memory.wf m) (A v : Word) {n : Size}
    (hn : ¬(n = .half ∧ offset A = 3)) {k : Nat} (hk : k < n.bytes) :
    readByte (memWrite m A n v) (accessBase A n + k) = byteOf v k := by
  rw [readByte_memWrite h A n v hn, if_pos (by omega), Nat.add_sub_cancel_left]

/-- A load at the address and width of the store gives the low bits stored. -/
theorem memRead_memWrite_same {m : Memory} (h : Memory.wf m) (A v : Word) {n : Size}
    (hn : ¬(n = .half ∧ offset A = 3)) :
    memRead (memWrite m A n v) A n = v.setWidth (8 * n.bytes) := by
  have hbyte {k : Nat} (hk : k < n.bytes) := readByte_memWrite_span h A v hn hk
  cases n with
  | word =>
    rw [memRead_word_eq, memWrite, readWord_writeWord h, if_pos rfl]
    exact (BitVec.setWidth_eq v).symm
  | half =>
    have h0 : readByte (memWrite m A .half v) A.toNat = byteOf v 0 := hbyte (k := 0) (by decide)
    have h1 : readByte (memWrite m A .half v) (A.toNat + 1) = byteOf v 1 := hbyte (by decide)
    rw [memRead_half_eq _ _ fun h3 => hn ⟨rfl, h3⟩, h0, h1]
    exact byteOf_one_append_zero v
  | byte =>
    rw [memRead_byte_eq]
    exact (hbyte (k := 0) (by decide)).trans (byteOf_zero v)

/-- A byte outside the span of the store is as before. -/
theorem memRead_memWrite_apart {m : Memory} (h : Memory.wf m) {A B v : Word} {n : Size}
    (hn : ¬(n = .half ∧ offset A = 3))
    (hB : B.toNat < accessBase A n ∨ accessBase A n + n.bytes ≤ B.toNat) :
    memRead (memWrite m A n v) B .byte = memRead m B .byte := by
  rw [memRead_byte_eq, memRead_byte_eq, readByte_memWrite h A n v hn, if_neg (by omega)]

/-- The bytes of an access that does not fault lie in its word (R53, R54). -/
theorem accessBase_span {A : Word} {n : Size} (hn : ¬(n = .half ∧ offset A = 3)) :
    A.toNat / 4 * 4 ≤ accessBase A n ∧ accessBase A n + n.bytes ≤ A.toNat / 4 * 4 + 4 := by
  rw [offset_eq] at hn
  cases n <;> simp only [accessBase, Size.bytes, toNat_containing, true_and] at hn ⊢ <;> omega

theorem accessBase_of_ne_word {A : Word} {n : Size} (hn : n ≠ .word) :
    accessBase A n = A.toNat := by
  cases n with
  | word => exact absurd rfl hn
  | half => rfl
  | byte => rfl

/-- Settles O26: a byte apart lies outside the containing word or, for a narrower store, outside its
span. -/
theorem loadReadsLatestStore : Obligations.LoadReadsLatestStore := by
  refine ⟨fun s A => (memRead_word_eq s.dmem A).symm, fun m A v n h hn =>
    ⟨memRead_memWrite_same h A v hn, fun B hB => memRead_memWrite_apart h hn ?_⟩⟩
  have hspan := accessBase_span hn
  obtain hB | hB | ⟨hw, hB⟩ := hB
  · exact .inl (by omega)
  · exact .inr (by omega)
  · rwa [accessBase_of_ne_word hw]

end Sys2Proof.Machine
end

section
/-! PROOFS. The cycle driver (R252 to R259): `run` as the ticks it executes, what ends a run, and
the first tick of a placed word. -/

namespace Sys2Proof.Machine

/-! ### `run` (R254, R255, R259) -/

theorem runTicks_halted {s : State} (h : s.drv = .halted) (b : Nat) :
    runTicks b s = ⟨0, s, []⟩ := by
  cases b with
  | zero => rfl
  | succ b => rw [runTicks, if_pos h]

theorem runTicks_tick {s : State} (h : s.drv ≠ .halted) (b : Nat) :
    runTicks (b + 1) s = ⟨(runTicks b s.tickState).ticks + 1, (runTicks b s.tickState).final,
      s.tickDiags ++ (runTicks b s.tickState).diags⟩ := by
  rw [runTicks, if_neg h, driverStep_tick h]
  rfl

theorem run_eq_runTicks {b : Int} {s : State} (himem : s.cfg.imem ≠ []) (hb : 0 < b) :
    run b s = .next (runTicks b.toNat s) := by
  rw [run, if_neg himem, if_neg (by omega)]

/-- Settles O44: the driver's step and `run` both test for HALTED before they tick. -/
theorem haltedStepChangesNothing : Obligations.HaltedStepChangesNothing := by
  intro s h
  have hstep := driverStep_halted h
  exact ⟨by rw [step_eq_next, hstep], by rw [hstep], by rw [hstep], fun b hb himem => by
    rw [run_eq_runTicks himem hb, runTicks_halted h]⟩

/-- Settles O48, by induction on the first budget: a run that HALTED within it leaves nothing for
the second. -/
theorem runCanBeContinued : Obligations.RunCanBeContinued := by
  intro a b s
  induction a generalizing s with
  | zero => simp only [Nat.zero_add, runTicks, List.nil_append]
  | succ a ih =>
    by_cases h : s.drv = .halted
    · simp only [runTicks_halted h, Nat.add_zero, List.append_nil]
    · rw [Nat.add_right_comm, runTicks_tick h, runTicks_tick h, ih]
      simp only [Nat.add_right_comm, List.append_assoc]

/-- `run` executes at most its budget, and fewer ticks only when the core is HALTED. -/
theorem runTicks_ticks (b : Nat) (s : State) : (runTicks b s).ticks ≤ b ∧
    ((runTicks b s).ticks < b → (runTicks b s).final.drv = .halted) := by
  induction b generalizing s with
  | zero => exact ⟨le_rfl, fun h => absurd h (Nat.lt_irrefl 0)⟩
  | succ b ih =>
    by_cases h : s.drv = .halted
    · rw [runTicks_halted h]
      exact ⟨Nat.zero_le _, fun _ => h⟩
    · rw [runTicks_tick h]
      obtain ⟨hle, hlt⟩ := ih s.tickState
      exact ⟨Nat.succ_le_succ hle, fun hb => hlt (Nat.lt_of_succ_lt_succ hb)⟩

/-- What `run` leaves is the state after its ticks, which count and report one after the other. -/
theorem runTicks_final (b : Nat) (s : State) :
    (runTicks b s).final = steps (runTicks b s).ticks s ∧
    (runTicks b s).final.cycle = s.cycle + (runTicks b s).ticks ∧
    (runTicks b s).final.diags = s.diags ++ (runTicks b s).diags := by
  induction b generalizing s with
  | zero => exact ⟨rfl, rfl, (List.append_nil _).symm⟩
  | succ b ih =>
    by_cases h : s.drv = .halted
    · rw [runTicks_halted h]
      exact ⟨rfl, rfl, (List.append_nil _).symm⟩
    · obtain ⟨hfinal, hcycle, hdiags⟩ := ih s.tickState
      rw [runTicks_tick h]
      refine ⟨?_, ?_, ?_⟩
      · rw [steps, driverStep_tick h]
        exact hfinal
      · rw [hcycle, State.tickState_cycle, Nat.add_assoc, Nat.add_comm 1]
      · rw [hdiags, State.tickState_diags, List.append_assoc]

/-- Settles O47: the two tests in their order, then the run. -/
theorem runReportsConfigurationErrors : Obligations.RunReportsConfigurationErrors := by
  refine fun b s => ⟨fun himem => ?_, fun himem hb => ?_, fun himem hb =>
    ⟨runTicks b.toNat s, run_eq_runTicks himem hb, ?_⟩⟩
  · rw [run, if_pos himem]
  · rw [run, if_neg himem, if_pos hb]
  · obtain ⟨hle, hhalted⟩ := runTicks_ticks b.toNat s
    obtain ⟨hfinal, hcycle, hdiags⟩ := runTicks_final b.toNat s
    exact ⟨hle, hfinal, hcycle, hdiags, hhalted⟩

/-! ### A strict-mode memory fault (R258, R282) -/

theorem State.memOut_of_strict_fault {s : State} {e : ExMem} {n : Size} {f : AccessFault}
    (he : s.exmem = some e) (hn : e.d.memWidth = some n)
    (hf : accessFault s.cfg e.aluResult n = some f) (hp : s.cfg.permissive = false) :
    s.memOut = ⟨none, s.dmem, true, [⟨f.kind, s.cycle + 1, e.pc, e.aluResult⟩]⟩ := by
  simp [State.memOut, he, memoryStage_access hn, memoryAccess, hf, hp, State.tickNo]

/-- Settles O42: Memory answers a bubble and the fault, the other stages do not read it, and the
state function makes a core with a strict fault HALTED. -/
theorem strictMemoryFaultHaltsTheCore : Obligations.StrictMemoryFaultHaltsTheCore := by
  intro s t e n f hd he hn hf hp ht
  obtain ⟨hh, -⟩ | ⟨-, rfl⟩ := step_cases ht
  · exact absurd hh hd
  have hout := State.memOut_of_strict_fault he hn hf hp
  have hfault : s.tickState.faultHalt = true := by simp [hout]
  have hhalted : s.tickState.drv = .halted := drvState_eq_halted_of_faultHalt hfault
  exact ⟨by simp [hout], by simp [hout], rfl, rfl, rfl, rfl, hfault, hhalted,
    by simp [State.tickDiags, hout], State.mem_tickEvents_MEM.mpr ⟨e, he, rfl⟩,
    steps_halted hhalted⟩

/-! ### The halt target (R256) -/

theorem State.fetchOut_haltFlag_of_redirect {s : State} {target : Word}
    (hr : s.decodeOut.redirect = some target) :
    s.fetchOut.haltFlag = (s.haltFlag || s.cfg.haltTarget == some target) := by
  have hs := stall_eq_false_of_redirect hr
  cases hc : canFetch s.cfg s.haltFlag s.pc <;> simp [State.fetchOut, fetchStage, hs, hr, hc]

/-- Decode neither stalls nor redirects without an instruction. -/
theorem State.decodeOut_of_not_instr {s : State} (h : ∀ p w, s.ifid ≠ .instr p w) :
    s.decodeOut.stall = false ∧ s.decodeOut.redirect = none := by
  cases hi : s.ifid with
  | bubble => rw [State.decodeOut_of_bubble hi]; exact ⟨rfl, rfl⟩
  | squashed p => rw [State.decodeOut_of_squashed hi]; exact ⟨rfl, rfl⟩
  | instr p w => exact absurd hi (h p w)

/-- Settles O46: the flag is Fetch's, which sets it for a redirect to the target only, and reads
nothing once it is set. -/
theorem haltTargetStopsFetching : Obligations.HaltTargetStopsFetching := by
  intro s t hd ht
  obtain ⟨hh, -⟩ | ⟨-, rfl⟩ := step_cases ht
  · exact absurd hh hd
  rw [State.tickState_pc, State.tickState_haltFlag, State.tickState_ifid]
  refine ⟨fun target hr htarget => ?_, fun hflag hifid => ?_, fun hflag hset => ?_⟩
  · refine ⟨State.fetchOut_pc_of_redirect (stall_eq_false_of_redirect hr) hr, ?_, fun p w => ?_⟩
    · rw [State.fetchOut_haltFlag_of_redirect hr, htarget, beq_self_eq_true, Bool.or_true]
    · rw [State.fetchOut_ifid_of_redirect hr]
      split <;> exact nofun
  · obtain ⟨hs, hr⟩ := State.decodeOut_of_not_instr hifid
    rw [State.fetchOut_eq_of_not_canFetch hs hr (canFetch_eq_none.mpr (.inl hflag))]
    exact ⟨hflag, rfl, rfl, rfl⟩
  · cases hr : s.decodeOut.redirect with
    | none =>
      rw [State.fetchOut_haltFlag_of_no_redirect hr, hflag] at hset
      cases hset
    | some target =>
      rw [State.fetchOut_haltFlag_of_redirect hr, hflag, Bool.false_or, beq_iff_eq] at hset
      exact ⟨target, rfl, hset⟩

/-! ### A placed word (log entry 3) -/

theorem decodeTableWord_eq_some {nbits w : Nat} {i : Instr} (h : decodeTableWord nbits w = some i) :
    decode (BitVec.ofNat 32 (w % 2 ^ nbits)) = .ok i := by
  unfold decodeTableWord at h
  split at h
  · next heq =>
    cases h
    exact heq
  · cases h

/-- Nothing in flight makes an instruction wait. -/
theorem hazard_none (d : Descriptor) : hazard d none none = false := by
  simp [hazard, loadUse, hazA, hazB]

/-- A core is not HALTED with a word just placed in IF/ID. -/
theorem placeWord_drv_ne_halted (s : State) (w : Word) : (placeWord s w).drv ≠ .halted := by
  have hflight : (placeWord s w).inFlight = true := State.inFlight_iff.mpr (.inl ⟨s.pc, w, rfl⟩)
  rw [placeWord, State.settle_drv, ne_eq, drvState_eq_halted_iff]
  rintro (hfault | ⟨-, hnone⟩)
  · cases hfault
  · cases hflight.symm.trans hnone

/-- Settles O60: the placed word stands in IF/ID with no instruction ahead of it. -/
theorem placedWordIsIssued : Obligations.PlacedWordIsIssued := by
  intro nbits w i h
  have hissues : Issues (State.reset.withFetchWord nbits w) 0 _ i :=
    ⟨placeWord_drv_ne_halted _ _, rfl, decodeTableWord_eq_some h, hazard_none _⟩
  obtain ⟨t, ht, hidex, -⟩ := stepIssuesTheDecodedInstruction _ _ _ _ hissues
  exact ⟨t, _, ht, hidex, rfl, rfl⟩

end Sys2Proof.Machine
end

section
/-! PROOFS. Exceptions and reset (R280 to R283, R300): nothing stops the machine, a permissive-mode
memory fault goes on, and what the reset state holds and first does. -/

namespace Sys2Proof.Machine

/-- Settles O4: the words of `95_test_vectors.md` sections 2.1 and 2.2, each evaluated. -/
theorem sampleWordsDecode : Obligations.SampleWordsDecode := by
  unfold Obligations.SampleWordsDecode
  decide

/-- Settles O24: each of the five shapes of an effect answers a next state, and so does a step. -/
theorem nothingStopsTheMachine : Obligations.NothingStopsTheMachine := by
  refine ⟨fun i s => ?_, fun s => ⟨_, step_eq_next s⟩⟩
  obtain ⟨_, _, h⟩ | ⟨_, _, h⟩ | ⟨_, _, _, h⟩ | ⟨_, _, _, _, h⟩ | ⟨_, _, _, h⟩ := exec_cases i s <;>
    exact ⟨_, h⟩

/-! ### A permissive-mode memory fault (R282) -/

theorem State.memOut_of_permissive_fault {s : State} {e : ExMem} {n : Size} {f : AccessFault}
    (he : s.exmem = some e) (hn : e.d.memWidth = some n)
    (hf : accessFault s.cfg e.aluResult n = some f) (hp : s.cfg.permissive = true) :
    s.memOut = ⟨some (e.pass 0), s.dmem, false, [⟨f.kind, s.cycle + 1, e.pc, e.aluResult⟩]⟩ := by
  simp [State.memOut, he, memoryStage_access hn, memoryAccess, hf, hp, State.tickNo]

/-- Settles O43: Memory passes the instruction on with 0 and the report, and neither writes memory nor
sets the flag. -/
theorem permissiveMemoryFaultContinues : Obligations.PermissiveMemoryFaultContinues := by
  intro s t e n f hd he hn hf hp ht
  obtain ⟨hh, -⟩ | ⟨-, rfl⟩ := step_cases ht
  · exact absurd hh hd
  have hout := State.memOut_of_permissive_fault he hn hf hp
  exact ⟨by simp [hout, ExMem.pass], by simp [hout], by simp [hout],
    by simp [State.tickDiags, hout], State.mem_tickEvents_MEM.mpr ⟨e, he, rfl⟩⟩

/-! ### Reset (R300) -/

theorem resetWith_reg_of_ne_zero (p : Params) {r : Reg} (h : r ≠ 0) :
    (resetWith p).reg r = readReg p.regInit r := by
  have hne : 0 ≠ r.toNat := fun h0 => h (BitVec.eq_of_toNat_eq h0.symm)
  exact Vector.getElem_set_ne (by decide) r.isLt hne

/-- Fetch has a word to read at reset exactly when the image has one. -/
theorem resetWith_canRun (p : Params) : (resetWith p).canRun = true ↔ p.imem ≠ [] := by
  rw [State.canRun_iff, ← List.length_pos_iff]
  simp

theorem resetWith_drv_eq_running_iff (p : Params) :
    (resetWith p).drv = .running ↔ p.imem ≠ [] := by
  rw [resetWith_drv, drvState_eq_running_iff, resetWith_canRun]
  simp

theorem resetWith_drv_eq_halted_iff (p : Params) :
    (resetWith p).drv = .halted ↔ p.imem = [] := by
  have hempty : (resetWith p).inFlight = false := rfl
  rw [resetWith_drv, drvState_eq_halted_iff, ← Bool.not_eq_true (State.canRun _), resetWith_canRun,
    hempty]
  simp

/-- Decode holds nothing in the first tick, so it is an ordinary fetch at 0. -/
theorem resetWith_tickState_of_imem {p : Params} {w : Word} {rest : List Word}
    (h : p.imem = w :: rest) :
    (resetWith p).tickState.ifid = .instr 0 w ∧ (resetWith p).tickState.pc = 4 := by
  have hout := State.decodeOut_of_bubble (resetWith_ifid p)
  have hw : fetch p 0 = some w := fetch_eq_some_iff.mpr ⟨rfl, by simp [h]⟩
  have e : (resetWith p).fetchOut = _ := State.fetchOut_eq_of_canFetch (by rw [hout]) (by rw [hout])
    (canFetch_eq_some.mpr ⟨rfl, hw⟩)
  rw [State.tickState_ifid, State.tickState_pc, e]
  exact ⟨rfl, rfl⟩

/-- Settles O50: the fields are construction's, the driver state is whether there is a word to fetch,
and the first tick fetches it. -/
theorem resetLeavesTheStatedValues : Obligations.ResetLeavesTheStatedValues := by
  intro p s
  refine ⟨resetWith_reg_zero p, fun r => resetWith_reg_of_ne_zero p, rfl, rfl, rfl, rfl, rfl, rfl,
    rfl, rfl, rfl, rfl, rfl, rfl, resetWith_drv_eq_running_iff p, resetWith_drv_eq_halted_iff p,
    fun w rest h => ⟨s.tickState, ?_, resetWith_tickState_of_imem h⟩⟩
  have hd : s.drv ≠ .halted := fun hh => by simp [(resetWith_drv_eq_halted_iff p).mp hh] at h
  rw [step_eq_next, driverStep_tick hd]
  rfl

end Sys2Proof.Machine
end

section
/-! PROOFS. Runs from reset against the sequential interpreter (R305): after every tick the drained
pipeline is the interpreter some instructions on, and a HALTED core is its own drained state. -/

namespace Sys2Proof.Machine

/-- The pipeline invariant holds along a run. -/
theorem PipeInv.steps {s : State} (hi : PipeInv s) (n : Nat) : PipeInv (steps n s) := by
  induction n generalizing s with
  | zero => exact hi
  | succ n ih => exact ih (pipelineInvariantIsKept s _ hi (step_eq_next s))

/-! ### One step against the interpreter -/

/-- The interpreter takes its step while it has neither faulted nor reached the halt target. -/
theorem seqStep_of_fetch {s : State} {w : Word} (hf : s.faultHalt = false) (hh : s.haltFlag = false)
    (hw : fetch s.cfg s.pc = some w) : seqStep s = seqExec w s := by
  simp [seqStep, hf, hh, hw]

theorem seqExec_of_ok {w : Word} {i : Instr} (h : decode w = .ok i) (s : State) :
    seqExec w s = exec i s := by
  simp [seqExec, h]

theorem seqExec_of_error {w : Word} {e : DecodeReject} (h : decode w = .error e) (s : State) :
    seqExec w s = .next (s.skip w) := by
  simp [seqExec, h]

/-- An interpreter that agrees with the drained pipeline is about to take the word in IF/ID. -/
theorem PipeInv.seqStep_of_archEq {s t : State} {p w : Word} (hi : PipeInv s)
    (hf : (drain s).faultHalt = false) (hp : s.ifid = .instr p w) (h : ArchEq (drain s) t) :
    seqStep t = seqExec w t := by
  obtain ⟨hw, -, hh⟩ := hi.ifid p w hp
  refine seqStep_of_fetch (h.faultHalt ▸ hf) ?_ ?_
  · rw [← h.haltFlag hf, drain_haltFlag, hh]
  · rw [← h.cfg, ← h.pc hf, drain_cfg, drain_pc, issuePc_instr hp, hw]

/-- A step of the pipeline is no step or one step of the interpreter. -/
theorem PipeInv.step_simulates {s s' t : State} (hi : PipeInv s) (hs : step s = .next s')
    (h : ArchEq (drain s) t) :
    ∃ t', (t' = t ∨ seqStep t = .next t') ∧ ArchEq (drain s') t' := by
  obtain ⟨hfault, hreject, hkeep⟩ := otherStepsRunNothing s s' hi hs
  cases hf : (drain s).faultHalt with
  | true => exact ⟨t, .inl rfl, (hfault hf).trans h⟩
  | false =>
    by_cases hissue : ∃ p w i, Issues s p w i
    · obtain ⟨p, w, i, hpwi⟩ := hissue
      obtain ⟨-, -, s'', u, hs'', hu, heq⟩ := stepRunsTheDecodedInstruction s p w i hi hpwi hf
      cases hs.symm.trans hs''
      obtain ⟨-, hp, hdec, -⟩ := hpwi
      obtain ⟨u', t', hu', ht', heq'⟩ := exec_congr h hf i
      cases hu.symm.trans hu'
      exact ⟨t', .inr (by rw [hi.seqStep_of_archEq hf hp h, seqExec_of_ok hdec, ht']),
        heq.trans heq'⟩
    by_cases hrej : s.drv ≠ .halted ∧ ∃ p w e, s.ifid = .instr p w ∧ decode w = .error e
    · obtain ⟨hd, p, w, e, hp, hdec⟩ := hrej
      exact ⟨t.skip w, .inr (by rw [hi.seqStep_of_archEq hf hp h, seqExec_of_error hdec]),
        (hreject hf hd p w e hp hdec).trans (skip_congr h hf w)⟩
    · exact ⟨t, .inl rfl, (hkeep hissue fun hd p w e hp hdec =>
        hrej ⟨hd, p, w, e, hp, hdec⟩).trans h⟩

/-! ### The run -/

/-- At reset nothing is in flight. -/
theorem archEq_drain_resetWith (p : Params) : ArchEq (drain (resetWith p)) (resetWith p) :=
  ⟨rfl, rfl, rfl, rfl, fun _ => rfl, fun _ => rfl⟩

theorem exists_seqRun_archEq_drain (p : Params) (n : Nat) :
    ∃ k t, seqRun k (resetWith p) = .next t ∧ ArchEq (drain (steps n (resetWith p))) t := by
  induction n with
  | zero => exact ⟨0, _, rfl, archEq_drain_resetWith p⟩
  | succ n ih =>
    obtain ⟨k, t, hk, h⟩ := ih
    have hi := (resetWith_pipeInv p).steps n
    rw [steps_succ]
    obtain ⟨t', rfl | ht', h'⟩ := hi.step_simulates (step_eq_next _) h
    · exact ⟨k, _, hk, h'⟩
    · exact ⟨k + 1, t', seqRun_succ_last hk ht', h'⟩

/-! ### The end of the run -/

/-- A core with a strict-mode fault keeps the registers and memory it has: MEM/WB is empty. -/
theorem PipeInv.archEq_drain_of_faultHalt {s : State} (hi : PipeInv s) (hf : s.faultHalt = true) :
    ArchEq s (drain s) := by
  have holder : s.older = s := by
    rw [State.older_of_memwb_none (hi.faulted hf), State.retire_of_faultHalt hf]
  refine ⟨(drain_cfg s).symm, ?_, ?_, hf.trans (drain_faultHalt_of_faultHalt hf).symm,
    fun h => ?_, fun h => ?_⟩
  · rw [drain_regs, holder, State.retire_of_faultHalt hf]
  · rw [drain_dmem, holder, State.retire_of_faultHalt hf]
  · rw [hf] at h; cases h
  · rw [hf] at h; cases h

/-- With empty latches there is nothing left to complete. -/
theorem archEq_drain_of_not_inFlight {s : State} (h : s.inFlight = false) : ArchEq s (drain s) := by
  obtain ⟨⟨⟨hifid, hidex⟩, hexmem⟩, hmemwb⟩ : ((s.ifid.valid = false ∧ s.idex = none) ∧
      s.exmem = none) ∧ s.memwb = none := by simpa [State.inFlight] using h
  have holder : s.older = s := by
    rw [State.older_of_memwb_none hmemwb, hexmem, State.retire_none]
  have hpc : s.issuePc = s.pc := by
    revert hifid
    unfold State.issuePc
    cases s.ifid <;> simp [IfId.valid]
  have hex : executeStage s.idex s.exmem s.memwb = none := by rw [hidex]; rfl
  exact ⟨(drain_cfg s).symm, by rw [drain_regs, holder, hex, State.retire_none],
    by rw [drain_dmem, holder, hex, State.retire_none],
    by rw [drain_faultHalt, holder, hex, State.retire_none], fun _ => hpc.symm,
    fun _ => (drain_haltFlag s).symm⟩

/-- A HALTED core is its own drained state, and nothing is left for an interpreter to run there. -/
theorem PipeInv.archEq_drain_of_halted {s : State} (hi : PipeInv s) (hd : s.drv = .halted) :
    ArchEq s (drain s) ∧ (s.faultHalt = true ∨ s.canRun = false) := by
  obtain hf | ⟨hrun, hempty⟩ := drvState_eq_halted_iff.mp (hi.drv ▸ hd)
  · exact ⟨hi.archEq_drain_of_faultHalt hf, .inl hf⟩
  · exact ⟨archEq_drain_of_not_inFlight hempty, .inr hrun⟩

theorem seqStopped_eq_not_canRun (s : State) : seqStopped s = (s.faultHalt || !s.canRun) := by
  rw [seqStopped, State.canRun_eq, Bool.not_and, Bool.not_not, Bool.or_assoc]

theorem ArchEq.seqStopped_congr {s t : State} (h : ArchEq s t) : seqStopped t = seqStopped s := by
  unfold seqStopped
  rw [← h.faultHalt, ← h.cfg]
  cases hf : s.faultHalt with
  | true => rfl
  | false => rw [h.pc hf, h.haltFlag hf]

/-- Settles O56: the interpreter that agrees with the drained pipeline, at a state with nothing in
flight. -/
theorem haltedRunEqualsSequentialRun : Obligations.HaltedRunEqualsSequentialRun := by
  intro p n hd
  obtain ⟨k, t, hk, h⟩ := exists_seqRun_archEq_drain p n
  obtain ⟨hdrain, hstop⟩ := ((resetWith_pipeInv p).steps n).archEq_drain_of_halted hd
  have heq := hdrain.trans h
  refine ⟨k, t, hk, ?_, heq⟩
  rw [heq.seqStopped_congr, seqStopped_eq_not_canRun]
  rcases hstop with h | h <;> simp [h]

end Sys2Proof.Machine
end

section
/-! PROOFS. The ticks of a drained run (R303, R304): after the last fetch that is kept, the ticks
without a stall are the four stages its instruction still has to pass; before it, Fetch reads nothing
only in a tick that redirects. -/

namespace Sys2Proof.Machine

/-! ### The kind of a tick -/

theorem State.tickKind_eq_stalled_iff {s : State} :
    s.tickKind = .stalled ↔ s.decodeOut.stall = true := by
  rcases tickKind_cases s with ⟨hk, hs, -⟩ | ⟨hs, _, -, -, ⟨hk, -⟩ | ⟨hk, -⟩⟩ |
    ⟨hk, hs, -⟩ | ⟨hk, hs, -⟩ <;>
    simp [hk, hs]

/-- A fetch that is kept needs a word to read. -/
theorem State.tickKind_ne_fetched_of_not_canRun {s : State} (h : s.canRun = false) :
    s.tickKind ≠ .fetched := by
  rcases tickKind_cases s with ⟨hk, -⟩ | ⟨-, _, -, -, ⟨hk, -⟩ | ⟨hk, -⟩⟩ |
    ⟨-, -, -, w, hc, -⟩ | ⟨hk, -⟩
  case inr.inr.inl =>
    rw [State.canRun, hc] at h
    cases h
  all_goals rw [hk]; decide

/-- What a kept fetch leaves in IF/ID. -/
theorem State.fetchOut_ifid_of_fetched {s : State} (h : s.tickKind = .fetched) :
    ∃ w, s.fetchOut.ifid = .instr s.pc w := by
  rcases tickKind_cases s with ⟨hk, -⟩ | ⟨-, _, -, -, ⟨hk, -⟩ | ⟨hk, -⟩⟩ |
    ⟨-, -, -, w, -, e⟩ | ⟨hk, -⟩
  case inr.inr.inl => exact ⟨w, by rw [e]⟩
  all_goals cases h.symm.trans hk

/-- A tick that neither stalls nor fetches leaves no instruction in IF/ID. -/
theorem State.fetchOut_ifid_valid_eq_false {s : State} (hs : s.decodeOut.stall = false)
    (hk : s.tickKind ≠ .fetched) : s.fetchOut.ifid.valid = false := by
  rcases tickKind_cases s with ⟨-, hs', -⟩ | ⟨-, _, -, -, ⟨-, e⟩ | ⟨-, e, -⟩⟩ |
    ⟨hk', -⟩ | ⟨-, -, -, -, e⟩
  · cases hs.symm.trans hs'
  · rw [e]; rfl
  · rw [e]; rfl
  · exact absurd hk' hk
  · rw [e]; rfl

/-- Without an instruction in IF/ID, Decode does nothing to the rest. -/
theorem State.decodeOut_of_not_valid {s : State} (h : s.ifid.valid = false) :
    s.decodeOut.stall = false ∧ s.decodeOut.redirect = none ∧ s.decodeOut.idex = none := by
  cases hi : s.ifid with
  | bubble => rw [State.decodeOut_of_bubble hi]; exact ⟨rfl, rfl, rfl⟩
  | squashed p => rw [State.decodeOut_of_squashed hi]; exact ⟨rfl, rfl, rfl⟩
  | instr p w => rw [hi] at h; cases h

theorem ticksOfKind_succ {s : State} (hd : s.drv ≠ .halted) (kind : TickKind) (n : Nat) :
    ticksOfKind kind (n + 1) s =
      (if s.tickKind = kind then 1 else 0) + ticksOfKind kind n s.tickState := by
  rw [ticksOfKind, driverStep_tick hd]
  rfl

/-! ### A run that drains and fetches nothing more -/

/-- The run from `s` drains in exactly `n` ticks, and none of them fetches an instruction that is
kept. -/
structure DrainsUnfed (s : State) (n : Nat) : Prop where
  inv : PipeInv s
  drains : DrainsIn s n
  unfed : ∀ k < n, (steps k s).tickKind ≠ .fetched

namespace DrainsUnfed

variable {s : State} {n : Nat}

theorem not_halted (h : DrainsUnfed s (n + 1)) : s.drv ≠ .halted := by
  obtain ⟨-, -, hnot⟩ := h.drains
  exact hnot 0 n.succ_pos

theorem not_fetched (h : DrainsUnfed s (n + 1)) : s.tickKind ≠ .fetched := h.unfed 0 n.succ_pos

theorem tickState (h : DrainsUnfed s (n + 1)) : DrainsUnfed s.tickState n := by
  have hstep : ∀ k, steps (k + 1) s = steps k s.tickState := fun k => by
    rw [steps, driverStep_tick h.not_halted]
    rfl
  obtain ⟨hhalt, hfault, hnot⟩ := h.drains
  refine ⟨h.inv.tickState (h.inv.not_faultHalt h.not_halted), ⟨?_, ?_, fun k hk => ?_⟩,
    fun k hk => ?_⟩
  · rw [← hstep]; exact hhalt
  · rw [← hstep]; exact hfault
  · rw [← hstep]; exact hnot (k + 1) (Nat.succ_lt_succ hk)
  · rw [← hstep]; exact h.unfed (k + 1) (Nat.succ_lt_succ hk)

/-- A run that drains has no strict-mode fault anywhere in it. -/
theorem faultHalt (h : DrainsUnfed s n) : s.faultHalt = false := by
  cases n with
  | zero => exact h.drains.2.1
  | succ n => exact h.inv.not_faultHalt h.not_halted

theorem not_inFlight_of_zero (h : DrainsUnfed s 0) : s.inFlight = false := by
  rcases drvState_eq_halted_iff.mp (h.inv.drv ▸ h.drains.1) with hf | ⟨-, hempty⟩
  · cases h.faultHalt.symm.trans hf
  · exact hempty

/-- Memory passes the instruction in EX/MEM on, since no tick of the run faults. -/
theorem memOut_memwb_isSome (h : DrainsUnfed s (n + 1)) :
    s.memOut.memwb.isSome = s.exmem.isSome := by
  obtain ⟨-, hfault⟩ : s.faultHalt = false ∧ s.memOut.fault = false := by
    simpa using h.tickState.faultHalt
  rw [State.memOut] at hfault ⊢
  cases he : s.exmem with
  | none => rfl
  | some e =>
    rw [he] at hfault
    rcases memoryStage_cases s.cfg s.tickNo e s.dmem with ⟨hf, -⟩ | ⟨-, v, hv⟩
    · cases hfault.symm.trans hf
    · rw [hv]; rfl

end DrainsUnfed

/-! ### The ticks without a stall that are still to come -/

/-- The ticks in which Decode lets Fetch go on and Fetch keeps nothing. -/
def unfedTicks (n : Nat) (s : State) : Nat := ticksOfKind .squashed n s + ticksOfKind .idle n s

/-- The stages that the youngest instruction beyond Decode still has to pass. -/
def State.stagesLeft (s : State) : Nat :=
  if s.idex.isSome then 3 else if s.exmem.isSome then 2 else if s.memwb.isSome then 1 else 0

theorem State.stagesLeft_le (s : State) : s.stagesLeft ≤ 3 := by
  unfold State.stagesLeft
  cases s.idex.isSome <;> cases s.exmem.isSome <;> cases s.memwb.isSome <;> decide

theorem State.stagesLeft_eq_zero_iff {s : State} (hv : s.ifid.valid = false) :
    s.stagesLeft = 0 ↔ s.inFlight = false := by
  rw [State.stagesLeft, State.inFlight, hv]
  cases s.idex.isSome <;> cases s.exmem.isSome <;> cases s.memwb.isSome <;> decide

namespace DrainsUnfed

variable {s : State} {n : Nat}

/-- A tick that stalls is not counted, every other one is. -/
theorem unfedTicks_succ (h : DrainsUnfed s (n + 1)) : unfedTicks (n + 1) s =
    (if s.decodeOut.stall then 0 else 1) + unfedTicks n s.tickState := by
  have hstall : s.decodeOut.stall = decide (s.tickKind = .stalled) := by
    rw [Bool.eq_iff_iff, decide_eq_true_eq, State.tickKind_eq_stalled_iff]
  rw [hstall, unfedTicks, unfedTicks, ticksOfKind_succ h.not_halted, ticksOfKind_succ h.not_halted]
  cases hkind : s.tickKind with
  | fetched => exact absurd hkind h.not_fetched
  | stalled => simp
  | squashed => simp; omega
  | idle => simp; omega

/-- A tick takes the instructions beyond Decode one stage on, when Decode gives none. -/
theorem stagesLeft_tickState (h : DrainsUnfed s (n + 1)) (hidex : s.decodeOut.idex = none) :
    s.tickState.stagesLeft = s.stagesLeft - 1 := by
  have hex : (executeStage s.idex s.exmem s.memwb).isSome = s.idex.isSome := by cases s.idex <;> rfl
  simp only [State.stagesLeft, State.tickState_idex, State.tickState_exmem, State.tickState_memwb,
    hidex, hex, h.memOut_memwb_isSome]
  cases s.idex.isSome <;> cases s.exmem.isSome <;> cases s.memwb.isSome <;> rfl

/-- With no instruction in IF/ID the run takes the stages left. -/
theorem unfedTicks_of_not_valid (h : DrainsUnfed s n) (hv : s.ifid.valid = false) :
    unfedTicks n s = s.stagesLeft := by
  induction n generalizing s with
  | zero => exact ((State.stagesLeft_eq_zero_iff hv).mpr h.not_inFlight_of_zero).symm
  | succ n ih =>
    obtain ⟨hs, hr, hidex⟩ := State.decodeOut_of_not_valid hv
    have hv' : s.tickState.ifid.valid = false := State.fetchOut_ifid_valid_eq_false hs h.not_fetched
    have hrun : s.canRun = false := (State.fetchOut_of_ordinary hs hr).1.symm.trans hv'
    have hpos : s.stagesLeft ≠ 0 := fun h0 => h.not_halted <| h.inv.drv.trans <|
      drvState_eq_halted_iff.mpr (.inr ⟨hrun, (State.stagesLeft_eq_zero_iff hv).mp h0⟩)
    rw [h.unfedTicks_succ, hs, ih h.tickState hv', h.stagesLeft_tickState hidex, if_neg nofun]
    omega

/-- A run with an instruction in IF/ID has not ended. -/
theorem ne_zero_of_instr {p w : Word} (h : DrainsUnfed s n) (hp : s.ifid = .instr p w) : n ≠ 0 := by
  rintro rfl
  cases h.not_inFlight_of_zero.symm.trans (State.inFlight_iff.mpr (.inl ⟨p, w, hp⟩))

/-- A recognized instruction in IF/ID waits there, then leaves Decode and has three stages left. -/
theorem unfedTicks_of_recognized {p w : Word} {i : Instr} (h : DrainsUnfed s n)
    (hp : s.ifid = .instr p w) (hdec : decode w = .ok i) : unfedTicks n s = 4 := by
  induction n generalizing s with
  | zero => exact absurd rfl (h.ne_zero_of_instr hp)
  | succ n ih =>
    have hstall := State.decodeOut_stall hp (decodeDescriptor_ok hdec)
    cases hz : hazard (describe i w) s.idex s.exmem with
    | true =>
      rw [hz] at hstall
      have hp' : s.tickState.ifid = .instr p w := by
        rw [State.tickState_ifid, State.fetchOut, hstall]
        exact hp
      rw [h.unfedTicks_succ, hstall, ih h.tickState hp', if_pos rfl]
    | false =>
      obtain ⟨hs, hidex, -⟩ := Issues.decodeOut ⟨h.not_halted, hp, hdec, hz⟩
      have hthree : s.tickState.stagesLeft = 3 := by
        rw [State.stagesLeft, State.tickState_idex, hidex]
        rfl
      rw [h.unfedTicks_succ, hs, if_neg nofun, h.tickState.unfedTicks_of_not_valid
        (State.fetchOut_ifid_valid_eq_false hs h.not_fetched), hthree]

/-- An unrecognized word in IF/ID leaves only the stages of the instructions ahead of it. -/
theorem unfedTicks_of_rejected {p w : Word} {e : DecodeReject} (h : DrainsUnfed s n)
    (hp : s.ifid = .instr p w) (hdec : decode w = .error e) : unfedTicks n s ≤ 4 := by
  cases n with
  | zero => exact absurd rfl (h.ne_zero_of_instr hp)
  | succ n =>
    have hout : s.decodeOut = ⟨none, false, none, [(p, .ID)], [⟨.decodeFault, s.tickNo, p, w⟩]⟩ := by
      rw [State.decodeOut, hp, decodeStage_reject hdec]
    have hs : s.decodeOut.stall = false := by rw [hout]
    have hle := s.stagesLeft_le
    rw [h.unfedTicks_succ, hs, if_neg nofun, h.tickState.unfedTicks_of_not_valid
      (State.fetchOut_ifid_valid_eq_false hs h.not_fetched), h.stagesLeft_tickState (by rw [hout])]
    omega

end DrainsUnfed

/-! ### After the last kept fetch -/

theorem steps_cfg (n : Nat) (s : State) : (steps n s).cfg = s.cfg := by
  induction n generalizing s with
  | zero => rfl
  | succ n ih => rw [steps, ih, step_cfg (step_eq_next s)]

/-- The ticks behind the last kept fetch drain what it left in IF/ID. -/
theorem LastFetch.drainsUnfed {s : State} {m last : Nat} (h : LastFetch s (last + 1 + m) last)
    (hi : PipeInv s) (hd : DrainsIn s (last + 1 + m)) : DrainsUnfed (steps (last + 1) s) m := by
  obtain ⟨hhalt, hfault, hnot⟩ := hd
  obtain ⟨-, -, hunfed⟩ := h
  refine ⟨hi.steps _, ⟨?_, ?_, fun k hk => ?_⟩, fun k hk => ?_⟩
  · rw [← steps_add]; exact hhalt
  · rw [← steps_add]; exact hfault
  · rw [← steps_add]; exact hnot _ (by omega)
  · rw [← steps_add]; exact hunfed _ (by omega) (by omega)

/-- The tick of a kept fetch counts to no other kind. -/
theorem ticksOfKind_fetched_between {s : State} {last : Nat}
    (hk : (steps last s).tickKind = .fetched) {kind : TickKind} (hne : kind ≠ .fetched) (m : Nat) :
    ticksOfKind kind (last + 1 + m) s =
      ticksOfKind kind last s + ticksOfKind kind m (steps (last + 1) s) := by
  rw [ticksOfKind_add, ticksOfKind_add]
  simp [ticksOfKind, hk, hne.symm]

/-- R304's count is off by the ticks that read nothing, and by how the ticks that keep nothing after
the last kept fetch differ from four. -/
theorem add_four_eq_countedTicks {s : State} {last : Nat}
    (hk : (steps last s).tickKind = .fetched) (m : Nat) :
    last + 1 + m + 4 = countedTicks s (last + 1 + m) last + ticksOfKind .idle last s +
      unfedTicks m (steps (last + 1) s) := by
  have htotal := ticksOfKind_total (last + 1 + m) s
  rw [ticksOfKind_fetched_between hk (kind := .squashed) nofun,
    ticksOfKind_fetched_between hk (kind := .idle) nofun] at htotal
  rw [countedTicks, unfedTicks]
  omega

/-! ### Before the last kept fetch -/

/-- Nothing to read and no instruction that could redirect: nothing is fetched any more. -/
def State.Starved (s : State) : Prop := s.canRun = false ∧ s.ifid.valid = false

theorem State.Starved.tickState {s : State} (h : s.Starved) : s.tickState.Starved := by
  obtain ⟨hrun, hv⟩ := h
  obtain ⟨hs, hr, -⟩ := State.decodeOut_of_not_valid hv
  exact ⟨State.tickState_canRun hrun hr,
    State.fetchOut_ifid_valid_eq_false hs (State.tickKind_ne_fetched_of_not_canRun hrun)⟩

theorem State.Starved.steps {s : State} (h : s.Starved) (n : Nat) : (steps n s).Starved := by
  induction n generalizing s with
  | zero => exact h
  | succ n ih =>
    refine ih ?_
    by_cases hd : s.drv = .halted
    · rw [driverStep_halted hd]; exact h
    · rw [driverStep_tick hd]; exact h.tickState

theorem State.canRun_of_idle {s : State} (hk : s.tickKind = .idle) : s.canRun = false := by
  rcases tickKind_cases s with ⟨hk', -⟩ | ⟨-, _, -, -, ⟨hk', -⟩ | ⟨-, -, hc⟩⟩ |
    ⟨hk', -⟩ | ⟨-, -, -, hc, -⟩
  case inr.inl.inr | inr.inr.inr => rw [State.canRun, hc]; rfl
  all_goals cases hk.symm.trans hk'

/-- A tick that reads nothing and does not redirect is followed by no fetch. -/
theorem State.starved_of_idle {s : State} (hk : s.tickKind = .idle)
    (hr : s.decodeOut.redirect = none) : s.tickState.Starved := by
  have hs : s.decodeOut.stall = false := by
    rw [← Bool.not_eq_true, ← State.tickKind_eq_stalled_iff, hk]
    decide
  refine ⟨State.tickState_canRun (State.canRun_of_idle hk) hr,
    State.fetchOut_ifid_valid_eq_false hs ?_⟩
  rw [hk]
  decide

/-- An instruction that redirects was fetched with the halt flag clear, so a tick that redirects and
reads nothing has `pc` where nothing can be fetched. -/
theorem PipeInv.not_fetchable_of_redirect {s : State} (hi : PipeInv s) (hk : s.tickKind = .idle)
    (hr : s.decodeOut.redirect ≠ none) : fetchable s.cfg s.pc = false := by
  obtain ⟨target, ht⟩ := Option.ne_none_iff_exists'.mp hr
  obtain ⟨p, w, -, hp, -⟩ := State.exists_instr_of_redirect ht
  obtain ⟨-, -, hflag⟩ := hi.ifid p w hp
  have hrun := State.canRun_of_idle hk
  rwa [State.canRun_eq, hflag] at hrun

/-- With a kept fetch still to come, a tick that reads nothing redirects. -/
theorem redirect_of_idle_before_fetched {s : State} {k last : Nat}
    (hd : (steps k s).drv ≠ .halted) (hk : (steps k s).tickKind = .idle) (hlt : k < last)
    (hlast : (steps last s).tickKind = .fetched) : (steps k s).decodeOut.redirect ≠ none := by
  intro hr
  have hstarved := (State.starved_of_idle hk hr).steps (last - (k + 1))
  have hsteps : steps last s = steps (last - (k + 1)) (steps k s).tickState := by
    rw [show (steps k s).tickState = steps (k + 1) s by rw [steps_succ, driverStep_tick hd]; rfl,
      ← steps_add, Nat.add_sub_cancel' hlt]
  rw [← hsteps] at hstarved
  exact State.tickKind_ne_fetched_of_not_canRun hstarved.1 hlast

/-- Settles O59: the ticks after the last kept fetch that keep nothing are four when its word is
recognized and at most four when it is not; each earlier tick that reads nothing redirects. -/
theorem drainedRunTakesFetchStallSquashPlusFourTicks :
    Obligations.DrainedRunTakesFetchStallSquashPlusFourTicks := by
  intro p n last s U hdrains hlast
  have hi : PipeInv s := resetWith_pipeInv p
  have ⟨hlt, hfetched, _⟩ := hlast
  have ⟨_, _, hnot⟩ := hdrains
  refine ⟨?_, fun k hk hidle => ?_⟩
  · obtain ⟨m, rfl⟩ : ∃ m, n = last + 1 + m := Nat.exists_eq_add_of_le hlt
    have hrest := hlast.drainsUnfed hi hdrains
    have hcount := add_four_eq_countedTicks hfetched m
    obtain ⟨w, hw⟩ := State.fetchOut_ifid_of_fetched hfetched
    have hp : (steps (last + 1) s).ifid = .instr (steps last s).pc w := by
      rw [steps_succ, driverStep_tick (hnot last hlt)]
      exact hw
    refine ⟨_, w, hp, fun ⟨i, hdec⟩ => ?_, fun e hdec => ⟨?_, ?_⟩⟩
    · have := hrest.unfedTicks_of_recognized hp hdec
      omega
    · have := hrest.ne_zero_of_instr hp
      omega
    · have := hrest.unfedTicks_of_rejected hp hdec
      omega
  · have hd := hnot k (hk.trans hlt)
    have hr := redirect_of_idle_before_fetched hd hidle hk hfetched
    have hnf := (hi.steps k).not_fetchable_of_redirect hidle hr
    rw [steps_cfg] at hnf
    exact ⟨hr, hnf⟩

end Sys2Proof.Machine
end
